-- ==== Sys2Proof/Word.lean ====
section
/-!
DEFINITION. The word types of the block: bus words (spec/30_encoding.md R90), register numbers (R96) and
micro-operation codes (R105).
-/

namespace Sys2Proof

/-- A word of the command or the response stream: `WORD_W = 32` bits (00_scope.md R10, 30_encoding.md R90). -/
abbrev Word := BitVec 32

/-- A register number: the 16-bit `reg` field (30_encoding.md R96). -/
abbrev RegNum := BitVec 16

/-- A micro-operation code: 4 bits (30_encoding.md R105). -/
abbrev MicroCode := BitVec 4

end Sys2Proof
end

