-- ==== Sys2Proof/Syntax.lean ====
section
/-!
DEFINITION. The instructions: the eight commands of the command set HC1 (spec/30_encoding.md R93), each with
its operand words, and the twelve micro-operation codes of the sequencer (R105). One constructor for each row
of spec/opcode_table.json.
-/

namespace Sys2Proof

/-- One whole command (the command word and its operand words, 30_encoding.md R92) or one micro-operation. -/
inductive Instr where
  /-- `NOP`, 46_host_commands.md R226. -/
  | nop
  /-- `RESET`, 46_host_commands.md R227. -/
  | reset
  /-- `WRCFG reg, v`, 46_host_commands.md R228. -/
  | wrcfg (reg : RegNum) (v : Word)
  /-- `RDCFG reg`, 46_host_commands.md R229. -/
  | rdcfg (reg : RegNum)
  /-- `START`, 46_host_commands.md R231. -/
  | start
  /-- `PUSH x`, 40_sliding_window_fifo.md R120. -/
  | push (x : Word)
  /-- `BLOCK cnt: xs`, 40_sliding_window_fifo.md R125; `cnt` is the length of `xs`. -/
  | block (xs : List Word)
  /-- `CLRERR`, 46_host_commands.md R233. -/
  | clrerr
  /-- `U.IDLE`, code 0x0, 30_encoding.md R105. -/
  | uIdle
  /-- `U.WINDOW`, code 0x1, 42_stft_analysis.md R162. -/
  | uWindow
  /-- `U.FFT.FWD`, code 0x2, 41_radix2_fft_ifft.md R141. -/
  | uFftFwd
  /-- `U.ANALYZE`, code 0x3, 42_stft_analysis.md R164. -/
  | uAnalyze
  /-- `U.REMAP`, code 0x4, 43_bin_remapper.md R181. -/
  | uRemap
  /-- `U.SYNTH`, code 0x5, 44_phase_synthesis.md R191. -/
  | uSynth
  /-- `U.ZERONEG`, code 0x6, 44_phase_synthesis.md R196. -/
  | uZeroneg
  /-- `U.FFT.INV`, code 0x7, 41_radix2_fft_ifft.md R141. -/
  | uFftInv
  /-- `U.OLA_ADD`, code 0x8, 45_overlap_add.md R211. -/
  | uOlaAdd
  /-- `U.DRAIN`, code 0x9, 45_overlap_add.md R212. -/
  | uDrain
  /-- `U.ACC_SHIFT`, code 0xA, 45_overlap_add.md R213. -/
  | uAccShift
  /-- `U.IN_SHIFT`, code 0xB, 40_sliding_window_fifo.md R130. -/
  | uInShift
deriving DecidableEq, Repr

end Sys2Proof
end

