-- ==== Sys2Proof/WellFormed.lean ====
section
/-!
DEFINITION. Which instructions a command word can announce: the only limit is the 16-bit sample count of
`BLOCK` (spec/30_encoding.md R97). Every register number and every operand word decodes (R95, R98).
-/

namespace Sys2Proof

/-- The largest sample count of one `BLOCK` (00_scope.md R10, 30_encoding.md R97). -/
def maxBlock : Nat := 65535

/-- An instruction that has an encoding: a `BLOCK` announces at most `MAX_BLOCK` samples (30_encoding.md R97). -/
def WellFormed : Instr → Bool
  | .block xs => xs.length ≤ maxBlock
  | .nop => true
  | .reset => true
  | .wrcfg _ _ => true
  | .rdcfg _ => true
  | .start => true
  | .push _ => true
  | .clrerr => true
  | .uIdle => true
  | .uWindow => true
  | .uFftFwd => true
  | .uAnalyze => true
  | .uRemap => true
  | .uSynth => true
  | .uZeroneg => true
  | .uFftInv => true
  | .uOlaAdd => true
  | .uDrain => true
  | .uAccShift => true
  | .uInShift => true

end Sys2Proof
end

