-- ==== Sys2Proof/Decode.lean ====
section
/-!
DEFINITION. Decoding of command words (spec/30_encoding.md R91 to R95, R102, R103) and of micro-operation
codes (R105), total on every word; after it the encoder. A command word announces its operand words by its own
bits alone (R94).
-/

namespace Sys2Proof

/-! The fields of a command word (30_encoding.md R91). -/

/-- Bits 31:24, `op`. -/
def opField (w : Word) : BitVec 8 := w.extractLsb' 24 8
/-- Bits 23:16, `rsv`. -/
def rsvField (w : Word) : BitVec 8 := w.extractLsb' 16 8
/-- Bits 15:0, `imm`. -/
def immField (w : Word) : BitVec 16 := w.extractLsb' 0 16

/-- What a legal command word says (30_encoding.md R95). -/
inductive Header where
  /-- `0x00`. -/
  | nop
  /-- `0x01`. -/
  | reset
  /-- `0x02`. -/
  | wrcfg (reg : RegNum)
  /-- `0x03`. -/
  | rdcfg (reg : RegNum)
  /-- `0x04`. -/
  | start
  /-- `0x05`. -/
  | push
  /-- `0x06`. -/
  | block (cnt : BitVec 16)
  /-- `0x07`. -/
  | clrerr
deriving DecidableEq, Repr

/-- A header whose class wants `imm = 0x0000` (30_encoding.md R92, classes Z and S). -/
def zeroImm (imm : BitVec 16) (h : Header) : Option Header :=
  if imm = 0 then some h else none

/-- `decode(w)` of 30_encoding.md R95; `none` is `Illegal`. -/
def decodeHeader (w : Word) : Option Header :=
  if rsvField w ≠ 0 then none
  else match (opField w).toNat with
    | 0x00 => zeroImm (immField w) .nop
    | 0x01 => zeroImm (immField w) .reset
    | 0x02 => some (.wrcfg (immField w))
    | 0x03 => some (.rdcfg (immField w))
    | 0x04 => zeroImm (immField w) .start
    | 0x05 => zeroImm (immField w) .push
    | 0x06 => some (.block (immField w))
    | 0x07 => zeroImm (immField w) .clrerr
    | _ => none

/-- How many operand words a legal command word announces (30_encoding.md R92). -/
def Header.operands : Header → Nat
  | .wrcfg _ => 1
  | .push => 1
  | .block cnt => cnt.toNat
  | .nop => 0
  | .reset => 0
  | .rdcfg _ => 0
  | .start => 0
  | .clrerr => 0

/-- `nops(w)` of 30_encoding.md R94: a function of the word alone; an illegal word announces none. -/
def nops (w : Word) : Nat :=
  match decodeHeader w with
  | none => 0
  | some h => h.operands

/-- The instruction a header and the operand words it announced make (30_encoding.md R92). -/
def assemble : Header → List Word → Instr
  | .nop, _ => .nop
  | .reset, _ => .reset
  | .wrcfg reg, ops => .wrcfg reg (ops.headD 0)
  | .rdcfg reg, _ => .rdcfg reg
  | .start, _ => .start
  | .push, ops => .push (ops.headD 0)
  | .block _, ops => .block ops
  | .clrerr, _ => .clrerr

/-- What the words at the head of the command stream are (30_encoding.md R94, R95, R103). -/
inductive Decoded where
  /-- A whole command and the words after it. -/
  | instr (i : Instr) (rest : List Word)
  /-- An illegal word (R102): it consumes no operand word; `rest` begins with the next command word. -/
  | illegal (w : Word) (rest : List Word)
  /-- Not all words of the command have been sent yet. -/
  | incomplete
deriving DecidableEq, Repr

/-- Reads one command from the command stream (30_encoding.md R94, R95). -/
def decodeCommand : List Word → Decoded
  | [] => .incomplete
  | w :: ws =>
    match decodeHeader w with
    | none => .illegal w ws
    | some h =>
      if ws.length < h.operands then .incomplete
      else .instr (assemble h (ws.take h.operands)) (ws.drop h.operands)

/-- The micro-operation of a code (30_encoding.md R105); codes 0xC to 0xF are none. -/
def decodeMicro (c : MicroCode) : Option Instr :=
  match c.toNat with
  | 0x0 => some .uIdle
  | 0x1 => some .uWindow
  | 0x2 => some .uFftFwd
  | 0x3 => some .uAnalyze
  | 0x4 => some .uRemap
  | 0x5 => some .uSynth
  | 0x6 => some .uZeroneg
  | 0x7 => some .uFftInv
  | 0x8 => some .uOlaAdd
  | 0x9 => some .uDrain
  | 0xA => some .uAccShift
  | 0xB => some .uInShift
  | _ => none

/-- An instruction's encoding: the words of a command, or a micro-operation code. -/
inductive Encoding where
  /-- The command word and its operand words (30_encoding.md R90). -/
  | words (ws : List Word)
  /-- A micro-operation code (30_encoding.md R105). -/
  | code (c : MicroCode)
deriving DecidableEq, Repr

/-- The instruction an encoding stands for, when it is exactly one. -/
def decodeEncoding : Encoding → Option Instr
  | .words ws =>
    match decodeCommand ws with
    | .instr i [] => some i
    | _ => none
  | .code c => decodeMicro c

/-! The encoder. -/

/-- A command word from its opcode and immediate (30_encoding.md R91). -/
def commandWord (op : BitVec 8) (imm : BitVec 16) : Word := op ++ (0#8) ++ imm

/-- The words of a command, or the code of a micro-operation (30_encoding.md R93, R105, R106). -/
def encode : Instr → Encoding
  | .nop => .words [commandWord 0x00 0]
  | .reset => .words [commandWord 0x01 0]
  | .wrcfg reg v => .words [commandWord 0x02 reg, v]
  | .rdcfg reg => .words [commandWord 0x03 reg]
  | .start => .words [commandWord 0x04 0]
  | .push x => .words [commandWord 0x05 0, x]
  | .block xs => .words (commandWord 0x06 (BitVec.ofNat 16 xs.length) :: xs)
  | .clrerr => .words [commandWord 0x07 0]
  | .uIdle => .code 0x0
  | .uWindow => .code 0x1
  | .uFftFwd => .code 0x2
  | .uAnalyze => .code 0x3
  | .uRemap => .code 0x4
  | .uSynth => .code 0x5
  | .uZeroneg => .code 0x6
  | .uFftInv => .code 0x7
  | .uOlaAdd => .code 0x8
  | .uDrain => .code 0x9
  | .uAccShift => .code 0xA
  | .uInShift => .code 0xB

/-! An instruction given as one number, as spec/opcode_table.json numbers its bits. -/

/-- Whether a table row of `nbits` bits is a micro-operation code: such a row has 4 bits, one byte at most. -/
def isMicroRow (nbits : Nat) : Bool := nbits ≤ 8

/-- Operand word `k` of an instruction given as a number: bits `32·(k+1)` and up of it. -/
def tableOperand (w k : Nat) : Word := BitVec.ofNat 32 (w / 2 ^ (32 * (k + 1)))

/-- The words of a command given as a number: the command word in bits 31:0, then the operand words it announces. -/
def tableWords (w : Nat) : List Word :=
  BitVec.ofNat 32 w :: (List.range (nops (BitVec.ofNat 32 w))).map (tableOperand w)

/-- The encoding that a table row's bits stand for; bits from `nbits` up are 0. -/
def tableEncoding (nbits w : Nat) : Encoding :=
  if isMicroRow nbits then .code (BitVec.ofNat 4 w)
  else .words (tableWords (w % 2 ^ nbits))

/-- The instruction the decoder reads from an instruction whose bits are `w`. -/
def decodeTableWord (nbits w : Nat) : Option Instr := decodeEncoding (tableEncoding nbits w)

end Sys2Proof
end

