-- ==== Sys2Proof/Machine/Binary32.lean ====
section
/-!
DEFINITION. The IEEE 754 binary32 layout of a bus word under the default hardware binding (spec/00_scope.md R14), and the value
a pattern has.
-/

namespace Sys2Proof.Machine

/-- The sign, bit 31 (00_scope.md R14). -/
def signField (w : Word) : BitVec 1 := w.extractLsb' 31 1
/-- The biased exponent, bits 30:23. -/
def exponentField (w : Word) : BitVec 8 := w.extractLsb' 23 8
/-- The fraction, bits 22:0. -/
def fractionField (w : Word) : BitVec 23 := w.extractLsb' 0 23

/-- The size of a pattern with biased exponent `e` and fraction `f`: `(1 + f/2^23)·2^(e-127)`, and without the leading 1
and with the exponent of `e = 1` when `e = 0`; none for `e = 255`, the infinities and NaN. -/
def binary32Size (e f : Nat) : Option ℚ :=
  if e = 255 then none
  else if e = 0 then some (f / 2 ^ 149)
  else some ((2 ^ 23 + f) * 2 ^ e / 2 ^ 150)

/-- The value of a binary32 pattern (00_scope.md R14; the layout is the spec's general knowledge, 93_implementation_defined.md K1). -/
def binary32Value (w : Word) : Option ℚ :=
  (binary32Size (exponentField w).toNat (fractionField w).toNat).map fun q => if signField w = 1 then -q else q

/-- The patterns whose meaning R14 settles: 0x00000000 and the normal numbers. Infinities, NaN, subnormals and the negative
zero stay inside `NUM`. -/
def isSettledWord (w : Word) : Bool := w = 0 ∨ (0 < (exponentField w).toNat ∧ (exponentField w).toNat < 255)

/-- The value of a word that R14 settles. -/
def settledValue (w : Word) : Option ℚ := if isSettledWord w then binary32Value w else none

/-- The value of a normal number. -/
theorem settledValue_of_normal {w : Word} {e f : Nat} (he : (exponentField w).toNat = e) (hf : (fractionField w).toNat = f)
    (h0 : 0 < e) (h1 : e < 255) :
    settledValue w = some (if signField w = 1 then -((2 ^ 23 + f) * 2 ^ e / 2 ^ 150) else (2 ^ 23 + f) * 2 ^ e / 2 ^ 150 : ℚ) := by
  rw [settledValue, if_pos (by simp [isSettledWord, he, h0, h1]), binary32Value, he, hf, binary32Size,
    if_neg (by omega), if_neg (by omega), Option.map_some]

/-- The value of 0x00000000. -/
theorem settledValue_zero : settledValue 0x00000000 = some 0 := by
  have he : (exponentField 0x00000000).toNat = 0 := by decide
  have hf : (fractionField 0x00000000).toNat = 0 := by decide
  rw [settledValue, if_pos (by decide), binary32Value, he, hf]
  simp [binary32Size]

/-- A settled word is 0x00000000 or a normal number. -/
theorem settled_cases {w : Word} {q : ℚ} (h : settledValue w = some q) :
    w = 0 ∨ (0 < (exponentField w).toNat ∧ (exponentField w).toNat < 255) := by
  unfold settledValue at h
  split at h
  · rename_i hw
    simpa [isSettledWord] using hw
  · cases h

/-- The settled value is the value of the pattern. -/
theorem binary32Value_of_settled {w : Word} {q : ℚ} (h : settledValue w = some q) : binary32Value w = some q := by
  unfold settledValue at h
  split at h
  · exact h
  · cases h

/-- A word is its three fields. -/
theorem word_of_fields {v w : Word} (hs : signField v = signField w) (he : exponentField v = exponentField w)
    (hf : fractionField v = fractionField w) : v = w := by
  have h (x : Word) : x = signField x ++ exponentField x ++ fractionField x := by
    apply BitVec.eq_of_getLsbD_eq
    intro i hi
    simp only [signField, exponentField, fractionField, BitVec.getLsbD_append, BitVec.getLsbD_extractLsb']
    by_cases h1 : i < 23
    · simp [h1]
    · by_cases h2 : i - 23 < 8
      · simp [h1, h2, show 23 + (i - 23) = i by omega]
      · simp [h1, h2, show i - 23 - 8 < 1 by omega, show 31 + (i - 23 - 8) = i by omega]
  rw [h v, h w, hs, he, hf]

/-- The exponent and the fraction of a normal number are determined by its size. -/
theorem normal_unique {e e' f f' : Nat} (hf : f < 2 ^ 23) (hf' : f' < 2 ^ 23) (h : (2 ^ 23 + f) * 2 ^ e = (2 ^ 23 + f') * 2 ^ e') :
    e = e' ∧ f = f' := by
  have key : ∀ {a b c d : Nat}, c < 2 ^ 23 → (2 ^ 23 + c) * 2 ^ a = (2 ^ 23 + d) * 2 ^ b → b ≤ a := by
    intro a b c d hc hh
    by_contra hlt
    obtain ⟨k, rfl⟩ := Nat.exists_eq_add_of_lt (Nat.lt_of_not_le hlt)
    have h1 : 2 ^ 23 + c = (2 ^ 23 + d) * 2 ^ (k + 1) := by
      apply Nat.eq_of_mul_eq_mul_right (Nat.two_pow_pos a)
      rw [hh, Nat.mul_assoc, ← Nat.pow_add]
      congr 2
      omega
    have h2 : 2 ^ 23 * 2 ≤ (2 ^ 23 + d) * 2 ^ (k + 1) :=
      Nat.mul_le_mul (by omega) (by rw [Nat.pow_succ]; have := Nat.two_pow_pos k; omega)
    omega
  have he : e = e' := Nat.le_antisymm (key hf' h.symm) (key hf h)
  subst he
  exact ⟨rfl, by have := Nat.eq_of_mul_eq_mul_right (Nat.two_pow_pos e) h; omega⟩

/-- Two settled words of one value are one word. -/
theorem settledValue_injective {v w : Word} {q : ℚ} (hv : settledValue v = some q) (hw : settledValue w = some q) : v = w := by
  have pos (x : Word) : (0 : ℚ) < (2 ^ 23 + (fractionField x).toNat) * 2 ^ (exponentField x).toNat / 2 ^ 150 := by positivity
  have nonzero {x : Word} (hx : 0 < (exponentField x).toNat ∧ (exponentField x).toNat < 255) (h : settledValue x = some 0) :
      False := by
    rw [settledValue_of_normal rfl rfl hx.1 hx.2] at h
    have hp := pos x
    have := Option.some.inj h
    split_ifs at this <;> linarith
  rcases settled_cases hv with rfl | hv'
  · rcases settled_cases hw with rfl | hw'
    · rfl
    · rw [settledValue_zero] at hv
      exact (nonzero hw' (hw.trans hv.symm)).elim
  · rcases settled_cases hw with rfl | hw'
    · rw [settledValue_zero] at hw
      exact (nonzero hv' (hv.trans hw.symm)).elim
    · rw [settledValue_of_normal rfl rfl hv'.1 hv'.2] at hv
      rw [settledValue_of_normal rfl rfl hw'.1 hw'.2, ← hv] at hw
      have h := Option.some.inj hw
      have hpv := pos v
      have hpw := pos w
      have both (hs : signField v = signField w)
          (hq : (2 ^ 23 + (fractionField v).toNat) * 2 ^ (exponentField v).toNat / 2 ^ 150 =
            ((2 ^ 23 + (fractionField w).toNat) * 2 ^ (exponentField w).toNat / 2 ^ 150 : ℚ)) : v = w := by
        have hn : (2 ^ 23 + (fractionField v).toNat) * 2 ^ (exponentField v).toNat =
            (2 ^ 23 + (fractionField w).toNat) * 2 ^ (exponentField w).toNat := by
          have := (div_left_inj' (by norm_num : (2 ^ 150 : ℚ) ≠ 0)).1 hq
          exact_mod_cast this
        obtain ⟨h1, h2⟩ := normal_unique (fractionField v).isLt (fractionField w).isLt hn
        exact word_of_fields hs (BitVec.eq_of_toNat_eq h1) (BitVec.eq_of_toNat_eq h2)
      have bit (x : Word) (hx : signField x ≠ 1) : signField x = 0 := by
        revert hx
        generalize signField x = b
        revert b
        decide
      split_ifs at h with h1 h2 h2
      · exact both (h2.trans h1.symm) (by linarith)
      · linarith
      · linarith
      · exact both ((bit v h2).trans (bit w h1).symm) h.symm

end Sys2Proof.Machine
end

