-- ==== Sys2Proof/Config.lean ====
section
/-!
DEFINITION. What an implementation fixes: the build parameters of spec/00_scope.md R10 and the open scalar
arithmetic `NUM` (R12, R13) with the default binding of its bus words (R14). `NUM` is an opaque constant.
-/

namespace Sys2Proof

namespace Config

/-- `MAX_FRAME`: the fixed maximum of the frame size (00_scope.md R10). -/
def maxFrame : Nat := 4096

/-- `MIN_FRAME`: the smallest frame size `START` accepts (00_scope.md R10). -/
def minFrame : Nat := 2

/-- `IDX_W`: the width of an index register, `log2(MAX_FRAME) + 2` (00_scope.md R10). -/
abbrev idxW : Nat := 14

end Config

/-- The arithmetic part of the record `NUM` (00_scope.md R12): total functions over one scalar type. -/
structure NumOps (α : Type) where
  /-- `NUM.num(i)`, the scalar of an integer. -/
  num : Int → α
  /-- `a ⊕ b`. -/
  add : α → α → α
  /-- `a ⊖ b`. -/
  sub : α → α → α
  /-- `a ⊗ b`. -/
  mul : α → α → α
  /-- `a ⊘ b`. -/
  div : α → α → α
  /-- `NUM.neg(a)`. -/
  neg : α → α
  /-- `NUM.sqrt(a)`. -/
  sqrt : α → α
  /-- `NUM.cos(a)`. -/
  cos : α → α
  /-- `NUM.sin(a)`. -/
  sin : α → α
  /-- `NUM.atan2(y, x)`. -/
  atan2 : α → α → α
  /-- `NUM.floor(a)`. -/
  floor : α → Int
  /-- `NUM.evenq(q)`. -/
  evenq : α → Int
  /-- `NUM.lt(a, b)`. -/
  lt : α → α → Bool
  /-- `NUM.le(a, b)`. -/
  le : α → α → Bool
  /-- `NUM.isFinite(a)`. -/
  isFinite : α → Bool
  /-- `NUM.pi`. -/
  pi : α

/-- The whole record `NUM` (00_scope.md R12): the arithmetic and what a bus word stands for. -/
structure NumInst (α : Type) extends NumOps α where
  /-- `NUM.decode(w)`, the value a bus word stands for. -/
  decode : Word → α
  /-- `NUM.encode(a)`, the bus word of a value. -/
  encode : α → Word

/-! The derived constants of 00_scope.md R12. -/

/-- `ZERO = NUM.num(0)`. -/
def NumOps.zero {α : Type} (N : NumOps α) : α := N.num 0
/-- `ONE = NUM.num(1)`. -/
def NumOps.one {α : Type} (N : NumOps α) : α := N.num 1
/-- `TWO = NUM.num(2)`. -/
def NumOps.two {α : Type} (N : NumOps α) : α := N.num 2
/-- `HALF = ONE ⊘ TWO`. -/
def NumOps.half {α : Type} (N : NumOps α) : α := N.div N.one N.two
/-- `TWO_PI = TWO ⊗ PI`. -/
def NumOps.twoPi {α : Type} (N : NumOps α) : α := N.mul N.two N.pi

/-- The reading of "= ZERO" in the laws of 00_scope.md R13: equal to `ZERO`, or (in an instance with signed
zeros) comparing equal to it. -/
def NumOps.EqZero {α : Type} (N : NumOps α) (a : α) : Prop :=
  a = N.zero ∨ (N.le a N.zero = true ∧ N.le N.zero a = true)

/-- The operations NUM-FINITE speaks of (00_scope.md R13). -/
inductive FiniteOp where
  /-- `⊕`. -/
  | add
  /-- `⊖`. -/
  | sub
  /-- `⊗`. -/
  | mul
  /-- `NUM.cos`, of the first operand. -/
  | cos
  /-- `NUM.sin`, of the first operand. -/
  | sin
  /-- `NUM.atan2`. -/
  | atan2
deriving DecidableEq, Repr

/-- The result of an operation of NUM-FINITE. -/
def NumOps.apply {α : Type} (N : NumOps α) : FiniteOp → α → α → α
  | .add, a, b => N.add a b
  | .sub, a, b => N.sub a b
  | .mul, a, b => N.mul a b
  | .cos, a, _ => N.cos a
  | .sin, a, _ => N.sin a
  | .atan2, y, x => N.atan2 y x

/-- The four named laws every `NUM` satisfies (00_scope.md R13), with the weaker reading of "= ZERO", and no other. When an
operation overflows is the instance's own (93_implementation_defined.md U1): `overflows op a b`. -/
structure NumLaws {α : Type} (N : NumInst α) (overflows : FiniteOp → α → α → Bool) : Prop where
  /-- NUM-ZERO. -/
  zero_add_zero : N.EqZero (N.add N.zero N.zero)
  /-- NUM-ZERO. -/
  zero_sub_zero : N.EqZero (N.sub N.zero N.zero)
  /-- NUM-ZERO. -/
  zero_mul : ∀ a, N.isFinite a = true → N.EqZero (N.mul N.zero a)
  /-- NUM-ZERO. -/
  mul_zero : ∀ a, N.isFinite a = true → N.EqZero (N.mul a N.zero)
  /-- NUM-ZERO. -/
  zero_div : ∀ a, N.isFinite a = true → ¬ N.EqZero a → N.EqZero (N.div N.zero a)
  /-- NUM-ZERO. -/
  sqrt_zero : N.EqZero (N.sqrt N.zero)
  /-- NUM-ZERO. -/
  atan2_zero : N.EqZero (N.atan2 N.zero N.zero)
  /-- NUM-INT: `NUM.num` is injective on `0 … 2·MAX_FRAME`. -/
  num_inj : ∀ i j : Nat, i ≤ 2 * Config.maxFrame → j ≤ 2 * Config.maxFrame → N.num i = N.num j → i = j
  /-- NUM-INT: `NUM.floor(NUM.num(i)) = i` on that range. -/
  floor_num : ∀ i : Nat, i ≤ 2 * Config.maxFrame → N.floor (N.num i) = i
  /-- NUM-INT: `NUM.num(i) ⊗ ONE = NUM.num(i)` on that range. -/
  num_mul_one : ∀ i : Nat, i ≤ 2 * Config.maxFrame → N.mul (N.num i) N.one = N.num i
  /-- NUM-WORD. -/
  decode_zero : N.decode 0 = N.zero
  /-- NUM-WORD: a value some bus word holds survives `encode` and `decode`. -/
  decode_encode : ∀ w, N.decode (N.encode (N.decode w)) = N.decode w
  /-- NUM-FINITE: a finite input that does not overflow gives a finite result. -/
  finite_result : ∀ op a b, N.isFinite a = true → N.isFinite b = true → overflows op a b = false →
    N.isFinite (N.apply op a b) = true

/-- What 93_implementation_defined.md U2 requires of an instance beside the laws: the floor of a non-finite value is no bin
number. -/
def FloorGuard {α : Type} (N : NumOps α) : Prop :=
  ∀ a, N.isFinite a = false → ¬ (0 ≤ N.floor a ∧ N.floor a ≤ (Config.maxFrame / 2 : Nat))

/-- The default hardware binding of the bus words (00_scope.md R10, R14): a word that R14 settles stands for the binary32 value of
its pattern, and is the word of that value. It is none of the laws of R13: no definition of the machine and no statement rests on it, only the
examples and the witnesses do (log entry 2). -/
structure DefaultBinding {α : Type} (N : NumInst α) : Prop where
  /-- A number is finite. -/
  finite : ∀ w q, Machine.settledValue w = some q → N.isFinite (N.decode w) = true
  /-- `NUM.lt` compares the values (R12). -/
  lt_value : ∀ v w p q, Machine.settledValue v = some p → Machine.settledValue w = some q →
    (N.lt (N.decode v) (N.decode w) = true ↔ p < q)
  /-- `NUM.le` compares the values (R12). -/
  le_value : ∀ v w p q, Machine.settledValue v = some p → Machine.settledValue w = some q →
    (N.le (N.decode v) (N.decode w) = true ↔ p ≤ q)
  /-- The word of an integer on which NUM-INT makes `NUM.num` exact stands for that scalar. -/
  integer : ∀ (w : Word) (i : Nat), i ≤ 2 * Config.maxFrame → Machine.settledValue w = some (i : ℚ) → N.decode w = N.num i
  /-- `0x3F000000` is 0.5, the scalar `HALF` of R12. -/
  half : N.decode 0x3F000000 = N.half
  /-- The bus word of the value is its pattern. -/
  encode_word : ∀ w q, Machine.settledValue w = some q → N.encode (N.decode w) = w

/-- What 95_test_vectors.md T45 says `START` makes of its two words that are no numbers, NaN and +∞: as a pitch and as a rate
they are refused. R14 leaves their meaning inside `NUM` (log entry 2). -/
structure RefusedNonNumbers {α : Type} (N : NumInst α) : Prop where
  /-- Refused as a pitch. -/
  pitch : ∀ w : Word, w = 0x7FC00000 ∨ w = 0x7F800000 →
    N.isFinite (N.decode w) = false ∨ N.lt (N.decode w) N.half = true ∨ N.lt N.two (N.decode w) = true
  /-- Refused as a rate. -/
  rate : ∀ w : Word, w = 0x7FC00000 ∨ w = 0x7F800000 →
    N.isFinite (N.decode w) = false ∨ N.le (N.decode w) N.zero = true

/-- A scalar as the machine's state holds it: an element of the number format the hardware has, named by its
number in a countable carrier. What value the element stands for only `Config.NUM` knows (log entry 1). -/
structure Num where
  /-- The element's number in the carrier; it is not the value. -/
  code : Nat
deriving DecidableEq, Repr

namespace Config

/-- The element of the carrier that the evidence takes for a rational number, and for "no number". -/
def ofRat (q : Option ℚ) : Num := ⟨Encodable.encode q⟩

/-- The rational number an element stands for in the evidence. -/
def toRat (a : Num) : Option ℚ := (Encodable.decode (α := Option ℚ) a.code).getD none

/-- The last word below `n` that has the property, and 0 when there is none. -/
def lastWord (p : Word → Bool) : Nat → Word
  | 0 => 0
  | n + 1 => if p (BitVec.ofNat 32 n) then BitVec.ofNat 32 n else lastWord p n

/-- Whether a word stands for an element in the evidence. -/
def standsFor (a : Num) (w : Word) : Bool := ofRat (Machine.binary32Value w) = a

/-- A settled word that stands for an element in the evidence, if there is one. -/
def settledWord (a : Num) : Word := lastWord (fun w => Machine.isSettledWord w && standsFor a w) (2 ^ 32)

/-- An operation of the evidence: no number where an operand is none. -/
def liftRat (f : ℚ → ℚ → ℚ) (a b : Num) : Num := ofRat (Option.map₂ f (toRat a) (toRat b))

/-- A comparison of the evidence. -/
def compareRat (f : ℚ → ℚ → Bool) (a b : Num) : Bool := (Option.map₂ f (toRat a) (toRat b)).getD false

/-- Evidence that what is asked of `NUM` can be met, and no more: exact rational numbers, and one element that is no number.
`Config.numeric` does not unfold to it. -/
def evidence : NumInst Num where
  num i := ofRat (some i)
  add := liftRat (· + ·)
  sub := liftRat (· - ·)
  mul := liftRat (· * ·)
  div := liftRat (· / ·)
  neg a := ofRat ((toRat a).map Neg.neg)
  sqrt _ := ofRat (some 0)
  cos _ := ofRat (some 0)
  sin _ := ofRat (some 0)
  atan2 _ _ := ofRat (some 0)
  floor a := ((toRat a).map fun q => ⌊q⌋).getD (-1)
  evenq _ := 0
  lt := compareRat fun p q => decide (p < q)
  le := compareRat fun p q => decide (p ≤ q)
  isFinite a := (toRat a).isSome
  pi := ofRat (some 3)
  decode w := ofRat (Machine.binary32Value w)
  encode a := if standsFor a (settledWord a) then settledWord a else lastWord (standsFor a) (2 ^ 32)

theorem toRat_ofRat (q : Option ℚ) : toRat (ofRat q) = q := by simp [toRat, ofRat]

theorem lastWord_spec (p : Word → Bool) (w : Word) (h : p w = true) :
    ∀ n, w.toNat < n → p (lastWord p n) = true
  | n + 1, hn => by
    rw [lastWord]
    split
    · assumption
    · rename_i hp
      refine lastWord_spec p w h n (Nat.lt_of_le_of_ne (Nat.le_of_lt_succ hn) fun e => hp ?_)
      rw [← e, BitVec.ofNat_toNat, BitVec.setWidth_eq]
      exact h

/-- The laws of 00_scope.md R13 can be met. -/
theorem evidence_laws : NumLaws evidence fun _ _ _ => false where
  zero_add_zero := Or.inl (by simp [evidence, NumOps.zero, liftRat, toRat_ofRat])
  zero_sub_zero := Or.inl (by simp [evidence, NumOps.zero, liftRat, toRat_ofRat])
  zero_mul a h := Or.inl (by
    obtain ⟨q, hq⟩ := Option.isSome_iff_exists.1 h
    simp [evidence, NumOps.zero, liftRat, toRat_ofRat, hq])
  mul_zero a h := Or.inl (by
    obtain ⟨q, hq⟩ := Option.isSome_iff_exists.1 h
    simp [evidence, NumOps.zero, liftRat, toRat_ofRat, hq])
  zero_div a h _ := Or.inl (by
    obtain ⟨q, hq⟩ := Option.isSome_iff_exists.1 h
    simp [evidence, NumOps.zero, liftRat, toRat_ofRat, hq])
  sqrt_zero := Or.inl (by simp [evidence, NumOps.zero])
  atan2_zero := Or.inl (by simp [evidence, NumOps.zero])
  num_inj i j _ _ h := by
    have := congrArg toRat h
    simpa [evidence, toRat_ofRat] using this
  floor_num i _ := by simp [evidence, toRat_ofRat]
  num_mul_one i _ := by simp [evidence, NumOps.one, liftRat, toRat_ofRat]
  decode_zero := by
    show ofRat (Machine.binary32Value 0) = ofRat (some 0)
    congr 1
    have he : (Machine.exponentField 0).toNat = 0 := by decide
    have hf : (Machine.fractionField 0).toNat = 0 := by decide
    rw [Machine.binary32Value, he, hf]
    simp [Machine.binary32Size]
  decode_encode w := by
    have h : standsFor (ofRat (Machine.binary32Value w)) (evidence.encode (ofRat (Machine.binary32Value w))) = true := by
      simp only [evidence]
      split
      · assumption
      · exact lastWord_spec _ w (by simp [standsFor]) (2 ^ 32) w.isLt
    exact of_decide_eq_true h
  finite_result op a b ha hb _ := by
    obtain ⟨p, hp⟩ := Option.isSome_iff_exists.1 ha
    obtain ⟨q, hq⟩ := Option.isSome_iff_exists.1 hb
    cases op <;> simp [evidence, NumOps.apply, liftRat, toRat_ofRat, hp, hq]

/-- The requirement of U2 can be met. -/
theorem evidence_guard : FloorGuard evidence.toNumOps := fun a h => by
  have ha : toRat a = none := by simpa [evidence] using h
  simp [evidence, ha]

theorem settledWord_spec {w : Word} {q : ℚ} (h : Machine.settledValue w = some q) :
    settledWord (ofRat (some q)) = w ∧ standsFor (ofRat (some q)) w = true := by
  have hw : Machine.isSettledWord w = true := by
    by_contra hn
    rw [Machine.settledValue, if_neg hn] at h
    cases h
  have hs : standsFor (ofRat (some q)) w = true := by simp [standsFor, Machine.binary32Value_of_settled h]
  have hl := lastWord_spec (fun v => Machine.isSettledWord v && standsFor (ofRat (some q)) v) w (by simp [hw, hs]) (2 ^ 32) w.isLt
  obtain ⟨h1, h2⟩ := (Bool.and_eq_true _ _).mp hl
  have hv := congrArg toRat (of_decide_eq_true h2)
  rw [toRat_ofRat, toRat_ofRat] at hv
  exact ⟨Machine.settledValue_injective (by rw [settledWord, Machine.settledValue, if_pos h1, hv]) h, hs⟩

/-- The default binding of 00_scope.md R14 can be met. -/
theorem evidence_binding : DefaultBinding evidence where
  finite w q h := by simp [evidence, toRat_ofRat, Machine.binary32Value_of_settled h]
  lt_value v w p q hv hw := by
    simp [evidence, compareRat, toRat_ofRat, Machine.binary32Value_of_settled hv, Machine.binary32Value_of_settled hw]
  le_value v w p q hv hw := by
    simp [evidence, compareRat, toRat_ofRat, Machine.binary32Value_of_settled hv, Machine.binary32Value_of_settled hw]
  integer w i _ h := by simp [evidence, Machine.binary32Value_of_settled h]
  half := by
    have he : (Machine.exponentField 0x3F000000).toNat = 126 := by decide
    have hf : (Machine.fractionField 0x3F000000).toNat = 0 := by decide
    have hs : Machine.signField 0x3F000000 ≠ 1 := by decide
    have h : Machine.binary32Value 0x3F000000 = some (1 / 2) := by
      norm_num [Machine.binary32Value, Machine.binary32Size, he, hf, hs]
    show ofRat (Machine.binary32Value 0x3F000000) = _
    rw [h]
    simp [evidence, NumOps.half, NumOps.one, NumOps.two, liftRat, toRat_ofRat]
  encode_word w q h := by
    obtain ⟨h1, h2⟩ := settledWord_spec h
    show evidence.encode (ofRat (Machine.binary32Value w)) = w
    simp only [evidence, Machine.binary32Value_of_settled h, h1, h2, if_true]

/-- The refusals of 95_test_vectors.md T45 can be met. -/
theorem evidence_refusals : RefusedNonNumbers evidence where
  pitch w hw := Or.inl (by
    have h : Machine.binary32Value w = none := by rcases hw with rfl | rfl <;> rfl
    simp [evidence, toRat_ofRat, h])
  rate w hw := Or.inl (by
    have h : Machine.binary32Value w = none := by rcases hw with rfl | rfl <;> rfl
    simp [evidence, toRat_ofRat, h])

end Config

/-- A scalar arithmetic over `Num` with what the spec says of it, each part under its own name. The defaults only show that the
type has an element. -/
structure Numeric where
  /-- The record `NUM` of 00_scope.md R12. -/
  inst : NumInst Num := Config.evidence
  /-- When an operation overflows, the instance's own (93_implementation_defined.md U1; log entry 3). -/
  overflows : FiniteOp → Num → Num → Bool := fun _ _ _ => false
  /-- The four laws of 00_scope.md R13. -/
  laws : NumLaws inst overflows := by exact Config.evidence_laws
  /-- 93_implementation_defined.md U2. -/
  guard : FloorGuard inst.toNumOps := by exact Config.evidence_guard
  /-- 00_scope.md R14. -/
  binding : DefaultBinding inst := by exact Config.evidence_binding
  /-- 95_test_vectors.md T45. -/
  refusals : RefusedNonNumbers inst := by exact Config.evidence_refusals
deriving Inhabited

/-- The scalar arithmetic of this hardware: OPEN (00_scope.md R10, R12). No body: no proof can learn more of it than its
named parts (log entries 1, 2). -/
opaque Config.numeric : Numeric

/-- `NUM` (00_scope.md R12). -/
def Config.NUM : NumInst Num := Config.numeric.inst

/-- The laws of 00_scope.md R13 for `NUM`. -/
theorem Config.NUM_laws : NumLaws Config.NUM Config.numeric.overflows := Config.numeric.laws

/-- 93_implementation_defined.md U2 for `NUM`. -/
theorem Config.NUM_guard : FloorGuard Config.NUM.toNumOps := Config.numeric.guard

/-- The default binding of bus words of 00_scope.md R14 for `NUM`, for examples only. -/
theorem Config.NUM_binding : DefaultBinding Config.NUM := Config.numeric.binding

/-- The refused words of 95_test_vectors.md T45 for `NUM`, for examples only. -/
theorem Config.NUM_refusals : RefusedNonNumbers Config.NUM := Config.numeric.refusals

/-- The value a word that is no number stands for in `NUM_REAL`, where every scalar is a number: open (log entry 22). -/
opaque Config.realOfNonNumber : Word → ℝ

/-- The bus word of a real number that no bus word stands for: open, a rounding (93_implementation_defined.md U1; log entry 22). -/
opaque Config.roundedWord : ℝ → Word

end Sys2Proof
end

