-- ==== Sys2Proof/Machine/State.lean ====
section
/-!
DEFINITION. The state of the block (spec/10_state.md), the two streams of its host interface
(30_encoding.md R90), the reasons a step of the model can stop, and the state after reset (10_state.md R44).
-/

namespace Sys2Proof.Machine

/-- `MODE` (10_state.md R28). -/
inductive Mode where
  /-- CONFIG: the configuration registers can be written, no sample is accepted. -/
  | config
  /-- RUN: the configuration is locked, samples are processed. -/
  | run
deriving DecidableEq, Repr

/-- What the host does to the block, in the order it does it (00_scope.md R18, 70_reset_and_hazards.md R280). -/
inductive HostInput where
  /-- A word sent on the command stream. -/
  | word (w : Word)
  /-- An assertion of the reset input `rst`. -/
  | rst
deriving DecidableEq, Repr

/-- Why a step can stop. Neither is reached by a running stream (20_memory.md R65, 30_encoding.md R105). -/
inductive Fault where
  /-- Raised by a micro-operation, `PUSH` or `BLOCK` that would access an array element that holds no value
  (10_state.md R47) or an index outside the array's logical length (20_memory.md R65). Safe: the spec gives no
  meaning to such an access and says it cannot occur. -/
  | noElement
  /-- Raised by `step` when the sequencer's code is 0xC to 0xF, which is never produced (30_encoding.md R105). Safe. -/
  | undefinedMicroOp
deriving DecidableEq, Repr

/-- Why an instruction has no meaning. -/
inductive Refusal where
  /-- Raised by an arm of `exec` for an instruction that has no meaning in the model; no arm does so. Safe. -/
  | notModelled (mnemonic : String)
deriving DecidableEq, Repr

/-- The latched configuration, the cursor, the Stream State and the frame scratch arrays, over a scalar type.
An array is the list of its elements, of its logical length (10_state.md section 2); the empty list is an array
whose elements hold no value (R47). -/
structure Stream (α : Type) where
  /-- Latched `fftFrameSize` (10_state.md R38). -/
  F : Nat
  /-- Latched `oversamplingFactor` (R38). -/
  O : Nat
  /-- Latched `stepSize` (R38). -/
  S : Nat
  /-- Latched `inFifoLatency` (R38). -/
  L : Nat
  /-- Latched `fftFrameSize / 2` (R38). -/
  H : Nat
  /-- Latched `log2(F)` (R38). -/
  n : Nat
  /-- Latched `pitchShift` (R38). -/
  P : α
  /-- Latched `sampleRate` (R38). -/
  SR : α
  /-- Latched `freqPerBin` (R38). -/
  FPB : α
  /-- Latched expected phase advance of bin 1 (R38). -/
  EXPCT : α
  /-- The sample cursor, an index register of `IDX_W` bits (R26). -/
  rover : BitVec Config.idxW
  /-- `F` elements (R20). -/
  inputFIFO : List α
  /-- `F` elements (R21). -/
  outputFIFO : List α
  /-- `2F` elements (R22). -/
  outputAccumulator : List α
  /-- `2F` elements, interleaved real and imaginary parts (R23, 20_memory.md R62). -/
  spectrum : List α
  /-- `H + 1` elements (R24). -/
  lastPhase : List α
  /-- `H + 1` elements (R25). -/
  sumPhase : List α
  /-- Scratch, `H + 1` elements (R27). -/
  anaMagn : List α
  /-- Scratch, `H + 1` elements (R27). -/
  anaFreq : List α
  /-- Scratch, `F` elements (R27). -/
  synMagn : List α
  /-- Scratch, `F` elements (R27). -/
  synFreq : List α
deriving DecidableEq, Repr

/-- A stream that does not exist: every array without a value, `rover` 0 (10_state.md R44); the latched values,
which the spec leaves unspecified, are 0 and `z` (log entry 4). -/
def Stream.absent {α : Type} (z : α) : Stream α where
  F := 0
  O := 0
  S := 0
  L := 0
  H := 0
  n := 0
  P := z
  SR := z
  FPB := z
  EXPCT := z
  rover := 0
  inputFIFO := []
  outputFIFO := []
  outputAccumulator := []
  spectrum := []
  lastPhase := []
  sumPhase := []
  anaMagn := []
  anaFreq := []
  synMagn := []
  synFreq := []

/-- The whole state. -/
structure State where
  /-- `MODE` (10_state.md R28). -/
  mode : Mode
  /-- `ERR` (R29). -/
  err : Bool
  /-- `ERRCODE` (R29). -/
  errcode : BitVec 8
  /-- Register `FRAME`, 0x0001 (R30). -/
  frame : Word
  /-- Register `OSAMP`, 0x0002 (R31). -/
  osamp : Word
  /-- Register `PITCH`, 0x0003 (R32). -/
  pitch : Word
  /-- Register `RATE`, 0x0004 (R33). -/
  rate : Word
  /-- Latched configuration, `rover` and the arrays (R20 to R27, R38). -/
  stream : Stream Num
  /-- The sequencer's micro-operation code (30_encoding.md R105); 0x0 between commands (10_state.md R41). -/
  uop : MicroCode
  /-- What the host has sent and the block has not taken yet (30_encoding.md R90), the model's own field. -/
  cmd : List HostInput
  /-- The response words produced, oldest first (30_encoding.md R90), the model's own field. -/
  rsp : List Word
deriving DecidableEq, Repr

/-- The machine right after hardware reset (10_state.md R44, 70_reset_and_hazards.md R280). -/
def State.reset : State where
  mode := .config
  err := false
  errcode := 0x00
  frame := 0x00000000
  osamp := 0x00000000
  pitch := 0x00000000
  rate := 0x00000000
  stream := Stream.absent ⟨0⟩
  uop := 0x0
  cmd := []
  rsp := []

/-- What running an instruction gives. -/
abbrev Result := Host.Outcome State Fault Refusal

end Sys2Proof.Machine
end

