-- ==== Sys2Proof/Machine/Flags.lean ====
section
/-!
DEFINITION. The status codes (spec/30_encoding.md R100) and the only flags of the hardware, the error record
`ERR`, `ERRCODE` (10_state.md R29, 60_exceptions.md R256). No micro-operation and no arithmetic condition
writes a flag (10_state.md R42).
-/

namespace Sys2Proof.Machine

/-- The status of a response (30_encoding.md R100). -/
inductive Status where
  /-- Every executed command. -/
  | ok
  /-- R251. -/
  | illegalCmd
  /-- R252. -/
  | badReg
  /-- R253. -/
  | locked
  /-- R254. -/
  | notStarted
  /-- R257. -/
  | cfgFrameNotPow2
  /-- R258. -/
  | cfgFrameRange
  /-- R259. -/
  | cfgOsampRange
  /-- R260. -/
  | cfgOsampNdiv
  /-- R261. -/
  | cfgPitchRange
  /-- R262. -/
  | cfgRateRange
deriving DecidableEq, Repr

/-- The code of a status (30_encoding.md R100). -/
def statusCode : Status → BitVec 8
  | .ok => 0x00
  | .illegalCmd => 0x01
  | .badReg => 0x02
  | .locked => 0x03
  | .notStarted => 0x04
  | .cfgFrameNotPow2 => 0x10
  | .cfgFrameRange => 0x11
  | .cfgOsampRange => 0x12
  | .cfgOsampNdiv => 0x13
  | .cfgPitchRange => 0x14
  | .cfgRateRange => 0x15

/-- What a refusal with status `c` does to the error record: the first error since the last clear is the one
recorded (60_exceptions.md R256). -/
def recordError (c : Status) (s : State) : State :=
  if s.err then s else { s with err := true, errcode := statusCode c }

/-- Clearing the error record (10_state.md R29). -/
def clearError (s : State) : State := { s with err := false, errcode := 0x00 }

/-- One bit of a register from a condition. -/
def flagBit (b : Bool) : BitVec 1 := if b then 1 else 0

/-- The word `STATUS` reads as: `zext_32(ERRCODE ‖ 000000 ‖ ERR ‖ RUN)` (46_host_commands.md R230, 10_state.md R46). -/
def statusWord (s : State) : Word :=
  (0 : BitVec 16) ++ s.errcode ++ (0 : BitVec 6) ++ flagBit s.err ++ flagBit (s.mode = .run)

end Sys2Proof.Machine
end

