-- ==== Sys2Proof/Machine/Ops.lean ====
section
/-!
DEFINITION. The shared operations: counted loops (spec/00_scope.md R16), access to the array memories
(20_memory.md R60, R62), the response of a command (30_encoding.md R99), THE REFUSAL, which is the hardware's
only exception (60_exceptions.md R250), and the reset transition (70_reset_and_hazards.md R280).
-/

namespace Sys2Proof.Machine

/-- `for k in 0 .. n-1`, ascending (00_scope.md R16): runs `body k` on what the earlier rounds left. -/
def loop {β : Type} : Nat → (Nat → β → β) → β → β
  | 0, _, b => b
  | n + 1, body, b => body n (loop n body b)

/-! The array memories. -/

/-- `MemRead(A, i)`, written `A[i]` (20_memory.md R60). Every use stands behind a check that the index lies inside the
array (R65), so the value past its end is never used. -/
def memRead {α : Type} (N : NumOps α) (A : List α) (i : Nat) : α := A.getD i N.zero

/-- `MemWrite(A, i, v)`, written `A[i] <- v`: only the addressed element changes (20_memory.md R60). -/
def memWrite {α : Type} (A : List α) (i : Nat) (v : α) : List α := A.set i v

/-- An array memory is in its one form: no element holds a value, or each of its `len` logical elements holds
one (10_state.md R47, 20_memory.md R61). -/
def Memory.wf {α : Type} (len : Nat) (A : List α) : Bool := A.isEmpty || A.length == len

/-- The complex element `X[k]`: the pair `(spectrum[2k], spectrum[2k+1])` (20_memory.md R62). -/
def complexRead {α : Type} (N : NumOps α) (X : List α) (k : Nat) : α × α :=
  (memRead N X (2 * k), memRead N X (2 * k + 1))

/-- Writing the complex element `X[k]` (20_memory.md R62). -/
def complexWrite {α : Type} (X : List α) (k : Nat) (v : α × α) : List α :=
  memWrite (memWrite X (2 * k) v.1) (2 * k + 1) v.2

/-- The block move of the two shifts: `for k in 0 .. cnt-1: A[k] <- A[k + by]`, ascending
(70_reset_and_hazards.md R294). -/
def shiftDown {α : Type} (N : NumOps α) (cnt step : Nat) (A : List α) : List α :=
  loop cnt (fun k A => memWrite A k (memRead N A (k + step))) A

/-- A result that is given only when every element it needs exists and holds a value (10_state.md R47, 20_memory.md R65). -/
def ifElements {β : Type} (present : Bool) (x : β) : Except Fault β :=
  if present then .ok x else .error .noElement

/-- Runs one operation on the Stream State. -/
def onStream (f : Stream Num → Except Fault (Stream Num)) (s : State) : Result :=
  match f s.stream with
  | .ok st => .next { s with stream := st }
  | .error e => .fault e

/-! Responses. -/

/-- The response header `op ‖ status ‖ cnt` (30_encoding.md R99). -/
def responseHeader (op : BitVec 8) (status : BitVec 8) (cnt : Nat) : Word :=
  op ++ status ++ BitVec.ofNat 16 cnt

/-- `respond(OK, data)` (00_scope.md R16): one header and the data words. -/
def respond (op : BitVec 8) (data : List Word) (s : State) : State :=
  { s with rsp := s.rsp ++ responseHeader op (statusCode .ok) data.length :: data }

/-- `raise Refuse(c)` (60_exceptions.md R250): no state changes but the error record (R256), and the response is the
single word `op ‖ c ‖ 0x0000`. -/
def refuse (op : BitVec 8) (c : Status) (s : State) : State :=
  { recordError c s with rsp := s.rsp ++ [responseHeader op (statusCode c) 0] }

/-- The state change of hardware reset and of `RESET` (70_reset_and_hazards.md R280, 46_host_commands.md R227); the two
streams of the host interface are not state of the block. -/
def resetTransition (s : State) : State := { State.reset with cmd := s.cmd, rsp := s.rsp }

end Sys2Proof.Machine
end

