-- ==== Sys2Proof/Machine/Operands.lean ====
section
/-!
DEFINITION. The operand forms of the commands: register numbers (spec/30_encoding.md R96, 10_state.md section 4) and
what each register reads as (46_host_commands.md R230); sample words are decoded by `NUM` where they are used
(30_encoding.md R98).
-/

namespace Sys2Proof.Machine

/-- The nine registers (10_state.md section 4). -/
inductive Reg where
  /-- 0x0000, read-only (R46). -/
  | status
  /-- 0x0001 (R30). -/
  | frame
  /-- 0x0002 (R31). -/
  | osamp
  /-- 0x0003 (R32). -/
  | pitch
  /-- 0x0004 (R33). -/
  | rate
  /-- 0x0005, read-only (R34). -/
  | maxframe
  /-- 0x0006, read-only (R35). -/
  | step
  /-- 0x0007, read-only (R36). -/
  | latency
  /-- 0x0008, read-only (R37). -/
  | rover
deriving DecidableEq, Repr

/-- The register of a number; 0x0009 to 0xFFFF name none (20_memory.md R67). -/
def regOf (reg : RegNum) : Option Reg :=
  match reg.toNat with
  | 0x0000 => some .status
  | 0x0001 => some .frame
  | 0x0002 => some .osamp
  | 0x0003 => some .pitch
  | 0x0004 => some .rate
  | 0x0005 => some .maxframe
  | 0x0006 => some .step
  | 0x0007 => some .latency
  | 0x0008 => some .rover
  | _ => none

/-- A register that reads 0 in CONFIG mode (46_host_commands.md R230). -/
def runOnly (s : State) (v : Nat) : Word := if s.mode = .run then BitVec.ofNat 32 v else 0

/-- `regval(reg)` (46_host_commands.md R230). -/
def regval (s : State) : Reg → Word
  | .status => statusWord s
  | .frame => s.frame
  | .osamp => s.osamp
  | .pitch => s.pitch
  | .rate => s.rate
  | .maxframe => BitVec.ofNat 32 Config.maxFrame
  | .step => runOnly s s.stream.S
  | .latency => runOnly s s.stream.L
  | .rover => runOnly s s.stream.rover.toNat

/-- Writing a configuration register; `none` for a read-only one (46_host_commands.md R228). -/
def writeReg (s : State) (v : Word) : Reg → Option State
  | .frame => some { s with frame := v }
  | .osamp => some { s with osamp := v }
  | .pitch => some { s with pitch := v }
  | .rate => some { s with rate := v }
  | .status => none
  | .maxframe => none
  | .step => none
  | .latency => none
  | .rover => none

end Sys2Proof.Machine
end

