-- ==== Sys2Proof/Machine/Control.lean ====
section
/-!
DEFINITION. The six commands that carry no sample (spec/46_host_commands.md): `NOP`, `RESET`, `WRCFG`, `RDCFG`, `START`,
`CLRERR`.
-/

namespace Sys2Proof.Machine

/-- `NOP` (46 R226). -/
def execNop (s : State) : Result := .next (respond 0x00 [] s)

/-- `RESET` (46 R227). -/
def execReset (s : State) : Result := .next (respond 0x01 [] (resetTransition s))

/-- `WRCFG reg, v` (46 R228): an undefined or read-only register is `BAD_REG`, then RUN mode is `LOCKED`. -/
def execWrcfg (reg : RegNum) (v : Word) (s : State) : Result :=
  match (regOf reg).bind (writeReg s v) with
  | none => .next (refuse 0x02 .badReg s)
  | some s' =>
    match s.mode with
    | .run => .next (refuse 0x02 .locked s)
    | .config => .next (respond 0x02 [] s')

/-- `RDCFG reg` (46 R229). -/
def execRdcfg (reg : RegNum) (s : State) : Result :=
  match regOf reg with
  | none => .next (refuse 0x03 .badReg s)
  | some r => .next (respond 0x03 [regval s r] s)

/-- The configuration checks of `START`, in order; the first that fails decides (46 R231, 60_exceptions.md R255). -/
def startRefusal {α : Type} (N : NumOps α) (frame osamp : Word) (p sr : α) : Option Status :=
  let f := frame.toNat
  let o := osamp.toNat
  if frame = 0 ∨ frame &&& (frame - 1) ≠ 0 then some .cfgFrameNotPow2
  else if f < Config.minFrame ∨ f > Config.maxFrame then some .cfgFrameRange
  else if o < 1 ∨ o > f then some .cfgOsampRange
  else if f % o ≠ 0 then some .cfgOsampNdiv
  else if ¬ N.isFinite p ∨ N.lt p N.half ∨ N.lt N.two p then some .cfgPitchRange
  else if ¬ N.isFinite sr ∨ N.le sr N.zero then some .cfgRateRange
  else none

/-- What an accepted `START` makes: the latched configuration (10_state.md R38), six zero arrays and `rover = L`
(46 R231); the scratch arrays are not written (10_state.md R27). -/
def startStream {α : Type} (N : NumOps α) (f o : Nat) (p sr : α) (old : Stream α) : Stream α :=
  { old with
    F := f
    O := o
    S := f / o
    L := f - f / o
    H := f / 2
    n := Nat.log2 f
    P := p
    SR := sr
    FPB := N.div sr (N.num f)
    EXPCT := N.div (N.mul N.twoPi (N.num (f / o : Nat))) (N.num f)
    rover := BitVec.ofNat _ (f - f / o)
    inputFIFO := List.replicate f N.zero
    outputFIFO := List.replicate f N.zero
    outputAccumulator := List.replicate (2 * f) N.zero
    spectrum := List.replicate (2 * f) N.zero
    lastPhase := List.replicate (f / 2 + 1) N.zero
    sumPhase := List.replicate (f / 2 + 1) N.zero }

/-- `START` (46 R231). -/
def execStart (s : State) : Result :=
  match s.mode with
  | .run => .next (refuse 0x04 .locked s)
  | .config =>
    let p := Config.NUM.decode s.pitch
    let sr := Config.NUM.decode s.rate
    match startRefusal Config.NUM.toNumOps s.frame s.osamp p sr with
    | some c => .next (refuse 0x04 c s)
    | none =>
      .next (respond 0x04 []
        { s with
          mode := .run
          stream := startStream Config.NUM.toNumOps s.frame.toNat s.osamp.toNat p sr s.stream })

/-- `CLRERR` (46 R233). -/
def execClrerr (s : State) : Result := .next (respond 0x07 [] (clearError s))

end Sys2Proof.Machine
end

