-- ==== Sys2Proof/Machine/Fft.lean ====
section
/-!
DEFINITION. The FFT/IFFT unit (spec/41_radix2_fft_ifft.md): the in-place radix-2 transform of `spectrum`, and the
micro-operations `U.FFT.FWD` and `U.FFT.INV`.
-/

namespace Sys2Proof.Machine

/-- The direction input `dir` of the unit (30_encoding.md R104). -/
inductive Dir where
  /-- `dir = 0`, sign −1. -/
  | fwd
  /-- `dir = 1`, sign +1. -/
  | inv
deriving DecidableEq, Repr

/-- `bitrev(i, n)`: the `n`-bit form of `i` read backwards (41 R144). -/
def bitrev (i : Nat) : Nat → Nat
  | 0 => 0
  | n + 1 => (i % 2) * 2 ^ n + bitrev (i / 2) n

/-- Exchanging the pairs `X[i]` and `X[j]` (41 R143); both are read before either is written (70 R292). -/
def swapComplex {α : Type} (N : NumOps α) (X : List α) (i j : Nat) : List α :=
  complexWrite (complexWrite X i (complexRead N X j)) j (complexRead N X i)

/-- Pass 1, the bit-reversal permutation (41 R143). -/
def bitrevPass {α : Type} (N : NumOps α) (F n : Nat) (X : List α) : List α :=
  loop F (fun i X => if i < bitrev i n then swapComplex N X i (bitrev i n) else X) X

/-- The base twiddle `(wr, wi)` of the stage with pair distance `d` (41 R146). -/
def baseTwiddle {α : Type} (N : NumOps α) (dir : Dir) (d : Nat) : α × α :=
  let arg := N.div N.pi (N.num d)
  (N.cos arg, match dir with
    | .inv => N.sin arg
    | .fwd => N.neg (N.sin arg))

/-- The next power of the twiddle, `u <- u · w`; the new `ui` uses the old `ur` (41 R146, 70 R293). -/
def nextTwiddle {α : Type} (N : NumOps α) (w u : α × α) : α × α :=
  (N.sub (N.mul u.1 w.1) (N.mul u.2 w.2), N.add (N.mul u.1 w.2) (N.mul u.2 w.1))

/-- `t = b · u` of the butterfly (41 R147). -/
def twiddled {α : Type} (N : NumOps α) (b u : α × α) : α × α :=
  (N.sub (N.mul b.1 u.1) (N.mul b.2 u.2), N.add (N.mul b.1 u.2) (N.mul b.2 u.1))

/-- The butterfly of `X[i]` and `X[i + d]` with twiddle `u`: both are read, then both are written (41 R147, 70 R291). -/
def butterfly {α : Type} (N : NumOps α) (d : Nat) (u : α × α) (i : Nat) (X : List α) : List α :=
  let a := complexRead N X i
  let t := twiddled N (complexRead N X (i + d)) u
  complexWrite (complexWrite X (i + d) (N.sub a.1 t.1, N.sub a.2 t.2)) i (N.add a.1 t.1, N.add a.2 t.2)

/-- The butterflies of one twiddle index `j`: `i = j, j + 2d, j + 4d, …` while `i < F` (41 R147); `F` is a
multiple of `2d`. -/
def butterflies {α : Type} (N : NumOps α) (F d j : Nat) (u : α × α) (X : List α) : List α :=
  loop (F / (2 * d)) (fun m X => butterfly N d u (j + 2 * d * m) X) X

/-- One stage, pair distance `d`: for `j = 0 … d-1` the butterflies of `j`, then the twiddle update (41 R141, R145). -/
def fftStage {α : Type} (N : NumOps α) (dir : Dir) (F d : Nat) (X : List α) : List α :=
  (loop d (fun j Xu => (butterflies N F d j Xu.2 Xu.1, nextTwiddle N (baseTwiddle N dir d) Xu.2))
    (X, (N.one, N.zero))).1

/-- `U.FFT(dir)` on an array of `F = 2^n` pairs: pass 1, then `n` stages with `d = 1, 2, …, F/2` (41 R141, R142). -/
def fftArray {α : Type} (N : NumOps α) (dir : Dir) (F n : Nat) (X : List α) : List α :=
  loop n (fun s X => fftStage N dir F (2 ^ s) X) (bitrevPass N F n X)

/-- `U.FFT(dir)` on the Stream State (41 R141). The unit has a meaning for powers of two only (R151); with `F = 0`,
the model's latched value when there is no stream, its loops do not run (log entry 16). -/
def fftStream {α : Type} (N : NumOps α) (dir : Dir) (st : Stream α) : Except Fault (Stream α) :=
  ifElements (st.spectrum.length = 2 * st.F ∧ (st.F = 2 ^ st.n ∨ st.F = 0))
    { st with spectrum := fftArray N dir st.F st.n st.spectrum }

/-- `U.FFT.FWD` (41 R141, `dir = 0`). -/
def execUFftFwd (s : State) : Result := onStream (fftStream Config.NUM.toNumOps .fwd) s

/-- `U.FFT.INV` (41 R141, `dir = 1`). -/
def execUFftInv (s : State) : Result := onStream (fftStream Config.NUM.toNumOps .inv) s

end Sys2Proof.Machine
end

