-- ==== Sys2Proof/Machine/Analysis.lean ====
section
/-!
DEFINITION. The analysis stage (spec/42_stft_analysis.md): `U.WINDOW` and `U.ANALYZE`.
-/

namespace Sys2Proof.Machine

/-- The window `w(k) = HALF ⊖ (HALF ⊗ NUM.cos((TWO_PI ⊗ NUM.num(k)) ⊘ NUM.num(F)))` (42 R161). -/
def hann {α : Type} (N : NumOps α) (F k : Nat) : α :=
  N.sub N.half (N.mul N.half (N.cos (N.div (N.mul N.twoPi (N.num k)) (N.num F))))

/-- The elements `U.WINDOW` writes, all `2F` of `spectrum` in index order (42 R162). -/
def windowArray {α : Type} (N : NumOps α) (F : Nat) (input : List α) : List α :=
  (List.range F).flatMap fun k => [N.mul (memRead N input k) (hann N F k), N.zero]

/-- `U.WINDOW` on the Stream State (42 R162). -/
def windowStream {α : Type} (N : NumOps α) (st : Stream α) : Except Fault (Stream α) :=
  ifElements (st.inputFIFO.length = st.F) { st with spectrum := windowArray N st.F st.inputFIFO }

/-- The magnitude of a bin, `TWO ⊗ NUM.sqrt((re ⊗ re) ⊕ (im ⊗ im))` (42 R166). -/
def magnitude {α : Type} (N : NumOps α) (x : α × α) : α :=
  N.mul N.two (N.sqrt (N.add (N.mul x.1 x.1) (N.mul x.2 x.2)))

/-- The phase of a bin, `NUM.atan2(im, re)` (42 R164). -/
def phase {α : Type} (N : NumOps α) (x : α × α) : α := N.atan2 x.2 x.1

/-- The wrap of a residual into (−π, π]: `t ⊖ (PI ⊗ NUM.num(NUM.evenq(t ⊘ PI)))` (42 R167). -/
def wrapPhase {α : Type} (N : NumOps α) (t : α) : α :=
  N.sub t (N.mul N.pi (N.num (N.evenq (N.div t N.pi))))

/-- The true frequency of bin `k` from its phase and the phase of the frame before (42 R164, R165, R168). -/
def trueFrequency {α : Type} (N : NumOps α) (st : Stream α) (k : Nat) (ph last : α) : α :=
  let t := N.sub (N.sub ph last) (N.mul (N.num k) st.EXPCT)
  let dev := N.div (N.mul (N.num st.O) (wrapPhase N t)) N.twoPi
  N.add (N.mul (N.num k) st.FPB) (N.mul dev st.FPB)

/-- `U.ANALYZE` on the Stream State (42 R164): for every bin `0 … H` the magnitude, the frequency (from the phase the
tracker held before, R165) and the new tracker value. The bins are independent of one another. -/
def analyzeStream {α : Type} (N : NumOps α) (st : Stream α) : Except Fault (Stream α) :=
  ifElements (st.spectrum.length = 2 * st.F ∧ st.lastPhase.length = st.H + 1 ∧ st.H < st.F)
    { st with
      anaMagn := (List.range (st.H + 1)).map fun k => magnitude N (complexRead N st.spectrum k)
      anaFreq := (List.range (st.H + 1)).map fun k =>
        trueFrequency N st k (phase N (complexRead N st.spectrum k)) (memRead N st.lastPhase k)
      lastPhase := (List.range (st.H + 1)).map fun k => phase N (complexRead N st.spectrum k) }

/-- `U.WINDOW` (42 R162). -/
def execUWindow (s : State) : Result := onStream (windowStream Config.NUM.toNumOps) s

/-- `U.ANALYZE` (42 R164). -/
def execUAnalyze (s : State) : Result := onStream (analyzeStream Config.NUM.toNumOps) s

end Sys2Proof.Machine
end

