-- ==== Sys2Proof/Machine/OverlapAdd.lean ====
section
/-!
DEFINITION. The overlap-add accumulator (spec/45_overlap_add.md): `U.OLA_ADD`, `U.DRAIN`, `U.ACC_SHIFT`.
-/

namespace Sys2Proof.Machine

/-- What one frame adds at position `k`: `((TWO ⊗ w(k)) ⊗ spectrum[2k]) ⊘ NUM.num(H * O)` (45 R211). -/
def olaIncrement {α : Type} (N : NumOps α) (F H O : Nat) (X : List α) (k : Nat) : α :=
  N.div (N.mul (N.mul N.two (hann N F k)) (memRead N X (2 * k))) (N.num (H * O : Nat))

/-- `U.OLA_ADD` on the Stream State (45 R211): positions `0 … F-1`. -/
def olaAddStream {α : Type} (N : NumOps α) (st : Stream α) : Except Fault (Stream α) :=
  ifElements (st.outputAccumulator.length = 2 * st.F ∧ st.spectrum.length = 2 * st.F)
    { st with
      outputAccumulator := loop st.F
        (fun k A => memWrite A k (N.add (memRead N A k) (olaIncrement N st.F st.H st.O st.spectrum k)))
        st.outputAccumulator }

/-- `U.DRAIN` on the Stream State (45 R212): `outputFIFO[k] <- outputAccumulator[k]`, `k = 0 … S-1`. -/
def drainStream {α : Type} (N : NumOps α) (st : Stream α) : Except Fault (Stream α) :=
  ifElements (st.outputAccumulator.length = 2 * st.F ∧ st.outputFIFO.length = st.F ∧ st.S ≤ st.F)
    { st with
      outputFIFO := loop st.S (fun k A => memWrite A k (memRead N st.outputAccumulator k)) st.outputFIFO }

/-- The accumulator shift: all `2F` elements move down by `S`, the top `S` become zero (45 R213). -/
def accShiftArray {α : Type} (N : NumOps α) (F S : Nat) (A : List α) : List α :=
  loop S (fun k A => memWrite A (2 * F - S + k) N.zero) (shiftDown N (2 * F - S) S A)

/-- `U.ACC_SHIFT` on the Stream State (45 R213). -/
def accShiftStream {α : Type} (N : NumOps α) (st : Stream α) : Except Fault (Stream α) :=
  ifElements (st.outputAccumulator.length = 2 * st.F ∧ st.S ≤ st.F)
    { st with outputAccumulator := accShiftArray N st.F st.S st.outputAccumulator }

/-- `U.OLA_ADD` (45 R211). -/
def execUOlaAdd (s : State) : Result := onStream (olaAddStream Config.NUM.toNumOps) s

/-- `U.DRAIN` (45 R212). -/
def execUDrain (s : State) : Result := onStream (drainStream Config.NUM.toNumOps) s

/-- `U.ACC_SHIFT` (45 R213). -/
def execUAccShift (s : State) : Result := onStream (accShiftStream Config.NUM.toNumOps) s

end Sys2Proof.Machine
end

