-- ==== Sys2Proof/Machine/Remap.lean ====
section
/-!
DEFINITION. The frequency bin remapper (spec/43_bin_remapper.md): `U.REMAP`.
-/

namespace Sys2Proof.Machine

/-- The target of source bin `k`: `NUM.floor(NUM.num(k) ⊗ P)` (43 R181, R184). -/
def remapTarget {α : Type} (N : NumOps α) (P : α) (k : Nat) : Int := N.floor (N.mul (N.num k) P)

/-- Whether a target is kept: `t ≤ H` (43 R183), and `0 ≤ t`, which 43 R183 proves of every finite product and
93_implementation_defined.md U2 asks an instance to deny of a non-finite one (log entry 13). -/
def targetKept (H : Nat) (t : Int) : Bool := 0 ≤ t ∧ t ≤ H

/-- The scatter of one source bin (43 R181): magnitudes add, the frequency is overwritten. -/
def scatter {α : Type} (N : NumOps α) (H : Nat) (P : α) (anaMagn anaFreq : List α) (k : Nat)
    (syn : List α × List α) : List α × List α :=
  let t := remapTarget N P k
  if targetKept H t then
    (memWrite syn.1 t.toNat (N.add (memRead N syn.1 t.toNat) (memRead N anaMagn k)),
     memWrite syn.2 t.toNat (N.mul (memRead N anaFreq k) P))
  else syn

/-- Phase 1 clears `F` elements of both arrays, phase 2 scatters `k = 0 … H` ascending (43 R181, R182). -/
def remapArrays {α : Type} (N : NumOps α) (F H : Nat) (P : α) (anaMagn anaFreq : List α) : List α × List α :=
  loop (H + 1) (scatter N H P anaMagn anaFreq) (List.replicate F N.zero, List.replicate F N.zero)

/-- `U.REMAP` on the Stream State (43 R181). -/
def remapStream {α : Type} (N : NumOps α) (st : Stream α) : Except Fault (Stream α) :=
  let syn := remapArrays N st.F st.H st.P st.anaMagn st.anaFreq
  ifElements (st.anaMagn.length = st.H + 1 ∧ st.anaFreq.length = st.H + 1 ∧ st.H < st.F)
    { st with synMagn := syn.1, synFreq := syn.2 }

/-- `U.REMAP` (43 R181). -/
def execURemap (s : State) : Result := onStream (remapStream Config.NUM.toNumOps) s

end Sys2Proof.Machine
end

