-- ==== Sys2Proof/Machine/Synthesis.lean ====
section
/-!
DEFINITION. Phase accumulation and spectrum regeneration (spec/44_phase_synthesis.md): `U.SYNTH` and `U.ZERONEG`.
-/

namespace Sys2Proof.Machine

/-- The phase increment of bin `k` for the frequency `f` (44 R191). -/
def phaseIncrement {α : Type} (N : NumOps α) (st : Stream α) (k : Nat) (f : α) : α :=
  let dev := N.div (N.sub f (N.mul (N.num k) st.FPB)) st.FPB
  N.add (N.div (N.mul N.twoPi dev) (N.num st.O)) (N.mul (N.num k) st.EXPCT)

/-- The phase of bin `k` after this frame: `sumPhase[k] ⊕ increment` (44 R193). -/
def newSumPhase {α : Type} (N : NumOps α) (st : Stream α) (k : Nat) : α :=
  N.add (memRead N st.sumPhase k) (phaseIncrement N st k (memRead N st.synFreq k))

/-- The regenerated pair `(magn ⊗ NUM.cos(ph), magn ⊗ NUM.sin(ph))` (44 R191). -/
def polar {α : Type} (N : NumOps α) (magn ph : α) : α × α := (N.mul magn (N.cos ph), N.mul magn (N.sin ph))

/-- `U.SYNTH` on the Stream State (44 R191): every bin `0 … H`; the pair uses the phase just accumulated (R194). -/
def synthStream {α : Type} (N : NumOps α) (st : Stream α) : Except Fault (Stream α) :=
  ifElements (st.synMagn.length = st.F ∧ st.synFreq.length = st.F ∧ st.sumPhase.length = st.H + 1 ∧
      st.spectrum.length = 2 * st.F ∧ st.H < st.F)
    { st with
      sumPhase := (List.range (st.H + 1)).map (newSumPhase N st)
      spectrum := loop (st.H + 1)
        (fun k X => complexWrite X k (polar N (memRead N st.synMagn k) (newSumPhase N st k))) st.spectrum }

/-- `U.ZERONEG` on an array: bins `H+1 … F-1` become zero (44 R196). -/
def zeroNegArray {α : Type} (N : NumOps α) (F H : Nat) (X : List α) : List α :=
  loop (F - (H + 1)) (fun m X => complexWrite X (H + 1 + m) (N.zero, N.zero)) X

/-- `U.ZERONEG` on the Stream State (44 R196). -/
def zeroNegStream {α : Type} (N : NumOps α) (st : Stream α) : Except Fault (Stream α) :=
  ifElements (st.spectrum.length = 2 * st.F) { st with spectrum := zeroNegArray N st.F st.H st.spectrum }

/-- `U.SYNTH` (44 R191). -/
def execUSynth (s : State) : Result := onStream (synthStream Config.NUM.toNumOps) s

/-- `U.ZERONEG` (44 R196). -/
def execUZeroneg (s : State) : Result := onStream (zeroNegStream Config.NUM.toNumOps) s

end Sys2Proof.Machine
end

