-- ==== Sys2Proof/Machine/Fifo.lean ====
section
/-!
DEFINITION. The sliding-window FIFO and driver (spec/40_sliding_window_fifo.md): `U.IDLE`, `U.IN_SHIFT`, the frame
sequence, and the commands `PUSH` and `BLOCK`.
-/

namespace Sys2Proof.Machine

/-- `U.IN_SHIFT` on the Stream State (40 R130): `inputFIFO[k] <- inputFIFO[k + S]`, `k = 0 … L-1`; the tail stays. -/
def inShiftStream {α : Type} (N : NumOps α) (st : Stream α) : Except Fault (Stream α) :=
  ifElements (st.inputFIFO.length = st.F ∧ st.L + st.S ≤ st.F)
    { st with inputFIFO := shiftDown N st.L st.S st.inputFIFO }

/-- `FRAME()`: the eleven micro-operations in their fixed order (40 R126). -/
def frameStream {α : Type} (N : NumOps α) (st : Stream α) : Except Fault (Stream α) := do
  let st ← windowStream N st
  let st ← fftStream N .fwd st
  let st ← analyzeStream N st
  let st ← remapStream N st
  let st ← synthStream N st
  let st ← zeroNegStream N st
  let st ← fftStream N .inv st
  let st ← olaAddStream N st
  let st ← drainStream N st
  let st ← accShiftStream N st
  inShiftStream N st

/-- Whether the cursor points into the last hop of the input and its output exists: `L ≤ rover < F` and
`rover − L` inside `outputFIFO` (40 R121, R122; 20_memory.md R65). -/
def cursorInRange {α : Type} (st : Stream α) : Bool :=
  st.L ≤ st.rover.toNat ∧ st.rover.toNat < st.inputFIFO.length ∧ st.rover.toNat - st.L < st.outputFIFO.length

/-- The output sample of a `PUSH`: `outputFIFO[rover − L]`, as a bus word (40 R122, 30_encoding.md R101). -/
def outputSample {α : Type} (N : NumInst α) (st : Stream α) : Word :=
  N.encode (memRead N.toNumOps st.outputFIFO (st.rover.toNat - st.L))

/-- Step 1 of a `PUSH`: `inputFIFO[rover] <- NUM.decode(x)` (40 R121). -/
def acceptSample {α : Type} (N : NumInst α) (x : Word) (st : Stream α) : Stream α :=
  { st with inputFIFO := memWrite st.inputFIFO st.rover.toNat (N.decode x) }

/-- Step 3 of a `PUSH`: advance the cursor; when it reaches `F`, set it back to `L` and run a frame (40 R123). -/
def advanceStream {α : Type} (N : NumOps α) (st : Stream α) : Except Fault (Stream α) :=
  if st.F ≤ st.rover.toNat + 1 then frameStream N { st with rover := BitVec.ofNat _ st.L }
  else .ok { st with rover := st.rover + 1 }

/-- The three steps of a `PUSH`, in this order (40 R120, 70 R296): the new Stream State and the output word. -/
def pushStream {α : Type} (N : NumInst α) (x : Word) (st : Stream α) : Except Fault (Stream α × Word) := do
  let st ← ifElements (cursorInRange st) st
  let st' ← advanceStream N.toNumOps (acceptSample N x st)
  return (st', outputSample N st)

/-- `cnt` successive `PUSH` steps: the new Stream State and the output words in order (40 R125). -/
def blockStream {α : Type} (N : NumInst α) : List Word → Stream α → Except Fault (Stream α × List Word)
  | [], st => .ok (st, [])
  | x :: xs, st => do
    let (st1, y) ← pushStream N x st
    let (st2, ys) ← blockStream N xs st1
    return (st2, y :: ys)

/-- `U.IDLE`: no frame in progress, no state change (30_encoding.md R105). -/
def execUIdle (s : State) : Result := .next s

/-- `U.IN_SHIFT` (40 R130). -/
def execUInShift (s : State) : Result := onStream (inShiftStream Config.NUM.toNumOps) s

/-- `PUSH x` (40 R120, R124). -/
def execPush (x : Word) (s : State) : Result :=
  match s.mode with
  | .config => .next (refuse 0x05 .notStarted s)
  | .run =>
    match pushStream Config.NUM x s.stream with
    | .ok (st, y) => .next (respond 0x05 [y] { s with stream := st })
    | .error e => .fault e

/-- `BLOCK cnt: xs` (40 R125, R124). -/
def execBlock (xs : List Word) (s : State) : Result :=
  match s.mode with
  | .config => .next (refuse 0x06 .notStarted s)
  | .run =>
    match blockStream Config.NUM xs s.stream with
    | .ok (st, ys) => .next (respond 0x06 ys { s with stream := st })
    | .error e => .fault e

end Sys2Proof.Machine
end

