-- ==== Sys2Proof/Machine/Dispatch.lean ====
section
/-! DEFINITION. The meaning of every instruction: one arm per constructor of `Instr`. -/

namespace Sys2Proof.Machine

def exec (i : Instr) (s : State) : Host.Outcome State Fault Refusal :=
  match i with
  | .nop => Sys2Proof.Machine.execNop s
  | .reset => Sys2Proof.Machine.execReset s
  | .wrcfg reg v => Sys2Proof.Machine.execWrcfg reg v s
  | .rdcfg reg => Sys2Proof.Machine.execRdcfg reg s
  | .start => Sys2Proof.Machine.execStart s
  | .push x => Sys2Proof.Machine.execPush x s
  | .block xs => Sys2Proof.Machine.execBlock xs s
  | .clrerr => Sys2Proof.Machine.execClrerr s
  | .uIdle => Sys2Proof.Machine.execUIdle s
  | .uWindow => Sys2Proof.Machine.execUWindow s
  | .uFftFwd => Sys2Proof.Machine.execUFftFwd s
  | .uAnalyze => Sys2Proof.Machine.execUAnalyze s
  | .uRemap => Sys2Proof.Machine.execURemap s
  | .uSynth => Sys2Proof.Machine.execUSynth s
  | .uZeroneg => Sys2Proof.Machine.execUZeroneg s
  | .uFftInv => Sys2Proof.Machine.execUFftInv s
  | .uOlaAdd => Sys2Proof.Machine.execUOlaAdd s
  | .uDrain => Sys2Proof.Machine.execUDrain s
  | .uAccShift => Sys2Proof.Machine.execUAccShift s
  | .uInShift => Sys2Proof.Machine.execUInShift s

end Sys2Proof.Machine
end

