-- ==== Sys2Proof/Machine/Fetch.lean ====
section
/-!
DEFINITION. Where the next instruction comes from: the sequencer's micro-operation code while a frame is being
stepped (spec/30_encoding.md R105), else the host's command stream (R90, R94). The reset input is taken between
commands (70_reset_and_hazards.md R280, R282).
-/

namespace Sys2Proof.Machine

/-- What the next step does. -/
inductive Fetched where
  /-- Run `i` on `s`, from which its words are already taken. -/
  | instr (i : Instr) (s : State)
  /-- Refuse the illegal word `w` (60_exceptions.md R251). -/
  | illegal (w : Word) (s : State)
  /-- Take the reset state (70_reset_and_hazards.md R280). -/
  | hardwareReset (s : State)
  /-- The host has not sent all words of the command: the block waits (70_reset_and_hazards.md R297). -/
  | waiting
  /-- The micro-operation code is none (30_encoding.md R105). -/
  | noMicroOp
deriving DecidableEq, Repr

/-- The words the host sends before it next asserts `rst`. -/
def leadingWords : List HostInput → List Word
  | .word w :: rest => w :: leadingWords rest
  | .rst :: _ => []
  | [] => []

/-- The inputs after the next assertion of `rst`, if there is one. -/
def afterReset : List HostInput → Option (List HostInput)
  | .word _ :: rest => afterReset rest
  | .rst :: rest => some rest
  | [] => none

/-- The micro-operation code after `c`: the next of the frame's list, and `U.IDLE` after the last (40 R126). -/
def nextCode (c : MicroCode) : MicroCode := if c = 0xB then 0x0 else c + 1

/-- The next instruction of the command stream. An empty stream leaves the sequencer at `U.IDLE`; a command whose
words are not all there waits, unless `rst` cuts it short (70 R282): then its words are discarded with it. -/
def fetchCommand (s : State) : Fetched :=
  match decodeCommand (leadingWords s.cmd) with
  | .instr i rest =>
    .instr i { s with cmd := s.cmd.drop ((leadingWords s.cmd).length - rest.length) }
  | .illegal w _ => .illegal w { s with cmd := s.cmd.drop 1 }
  | .incomplete =>
    match afterReset s.cmd with
    | some rest => .hardwareReset { s with cmd := rest }
    | none => if s.cmd = [] then .instr .uIdle s else .waiting

/-- The next instruction: a micro-operation while the sequencer's code is not `U.IDLE`, else a command. -/
def fetch (s : State) : Fetched :=
  if s.uop = 0x0 then fetchCommand s
  else
    match decodeMicro s.uop with
    | some i => .instr i { s with uop := nextCode s.uop }
    | none => .noMicroOp

/-- The state in which an encoding is what `fetch` takes next: a command's words stand at the head of the command
stream with the sequencer idle; a micro-operation's code stands in the sequencer, and for `U.IDLE` no command waits. -/
def placeEncoding (s : State) : Encoding → State
  | .words ws => { s with uop := 0x0, cmd := ws.map HostInput.word ++ s.cmd }
  | .code c => { s with uop := c, cmd := if c = 0x0 then [] else s.cmd }

end Sys2Proof.Machine
end

