-- ==== Sys2Proof/Machine/Step.lean ====
section
/-!
DEFINITION. One step of the block (spec/30_encoding.md R90, 20_memory.md R70): a whole command with its response, or one
micro-operation when the sequencer's code says so.
-/

namespace Sys2Proof.Machine

/-- One step. -/
def step (s : State) : Host.Outcome State Fault Refusal :=
  match fetch s with
  | .instr i s' => exec i s'
  | .illegal w s' => .next (refuse (opField w) .illegalCmd s')
  | .hardwareReset s' => .next (resetTransition s')
  | .waiting => .next s
  | .noMicroOp => .fault .undefinedMicroOp

/-- `s` with the instruction whose bits are `w` placed where `step` fetches next (log entry 12). -/
def State.withFetchWord (s : State) (nbits w : Nat) : State := placeEncoding s (tableEncoding nbits w)

end Sys2Proof.Machine
end

