-- ==== Sys2Proof/Machine/NumReal.lean ====
section
/-!
DEFINITION. The reference instance `NUM_REAL` of the scalar arithmetic (spec/00_scope.md R12): exact real numbers. The
machine does not run on it; statements about values are made for it. Its bus words are those of R14; what no rule settles
of them is open (log entry 22).
-/

namespace Sys2Proof.Machine

open Classical in
/-- `NUM_REAL` (00_scope.md R12). -/
noncomputable def numReal : NumOps ℝ where
  num i := (i : ℝ)
  add a b := a + b
  sub a b := a - b
  mul a b := a * b
  div a b := a / b
  neg a := -a
  sqrt a := Real.sqrt a
  cos a := Real.cos a
  sin a := Real.sin a
  atan2 y x := Complex.arg ⟨x, y⟩
  floor a := ⌊a⌋
  evenq q := 2 * ⌈(q - 1) / 2⌉
  lt a b := decide (a < b)
  le a b := decide (a ≤ b)
  isFinite _ := true
  pi := Real.pi

/-- The real number a bus word stands for: the value of its binary32 pattern (00_scope.md R14), and an open one where the
pattern is an infinity or NaN. -/
noncomputable def realOfWord (w : Word) : ℝ :=
  match binary32Value w with
  | some q => q
  | none => Config.realOfNonNumber w

open Classical in
/-- The bus word of a real number: the settled word whose value it is (00_scope.md R14; there is one at most), else a
pattern of that value, else a word that stands for it (NUM-WORD of R13); an open word where no word stands for it. -/
noncomputable def wordOfReal (a : ℝ) : Word :=
  if h : ∃ w, ∃ q : ℚ, settledValue w = some q ∧ (q : ℝ) = a then Classical.choose h
  else if h : ∃ w, ∃ q : ℚ, binary32Value w = some q ∧ (q : ℝ) = a then Classical.choose h
  else if h : ∃ w, realOfWord w = a then Classical.choose h
  else Config.roundedWord a

/-- `NUM_REAL`, the whole record (00_scope.md R12). -/
noncomputable def numRealWords : NumInst ℝ where
  toNumOps := numReal
  decode := realOfWord
  encode := wordOfReal

end Sys2Proof.Machine
end

