-- ==== Sys2Proof/Machine/Pseudo.lean ====
section
/-!
DEFINITION. The pseudo-commands (spec/30_encoding.md R107) and the text form of commands (R106): what the host writes,
expanded to the commands of the block.
-/

namespace Sys2Proof.Machine

/-- `CONFIGURE p, F, o, sr` (30 R107); the four operands are bus words (R98). -/
def configure (p f o sr : Word) : List Instr :=
  [.wrcfg 0x0001 f, .wrcfg 0x0002 o, .wrcfg 0x0003 p, .wrcfg 0x0004 sr, .start]

/-- `SILENCE n`, `n ≤ 65535` samples 0.0, whose bus word is 0x00000000 (30 R107, 00_scope.md R13 NUM-WORD). -/
def silence (n : Nat) : Instr := .block (List.replicate n 0x00000000)

/-- `BLOCK`s of at most 65535 samples carrying `xs` in order, none when `xs` is empty; `fuel` bounds their number (30 R107).
R107 leaves open where the samples are cut. DESIGN CHOICE (log entry 26): every `BLOCK` but the last carries 65535. -/
def blocks : Nat → List Word → List Instr
  | 0, _ => []
  | fuel + 1, xs =>
    if xs = [] then [] else .block (xs.take maxBlock) :: blocks fuel (xs.drop maxBlock)

/-- `PROCESS p, F, o, sr, xs`: configures only when `STATUS.RUN = 0` (30 R107, 46 R236). -/
def process (running : Bool) (p f o sr : Word) (xs : List Word) : List Instr :=
  (if running then [] else configure p f o sr) ++ blocks xs.length xs

/-- The name of a register in assembler text (30 R106). -/
def regName : Reg → String
  | .status => "STATUS"
  | .frame => "FRAME"
  | .osamp => "OSAMP"
  | .pitch => "PITCH"
  | .rate => "RATE"
  | .maxframe => "MAXFRAME"
  | .step => "STEP"
  | .latency => "LATENCY"
  | .rover => "ROVER"

/-- A raw word in assembler text, `0x` and hexadecimal digits (30 R106). -/
def hexText (v : Nat) : String := "0x" ++ String.ofList (Nat.toDigits 16 v)

/-- A register operand in assembler text: its name, or its number (30 R106). -/
def regText (reg : RegNum) : String :=
  match regOf reg with
  | some r => regName r
  | none => hexText reg.toNat

/-- The line of a command in assembler text (30 R106); a micro-operation has none. -/
def assemblerLine : Instr → Option String
  | .nop => some "NOP"
  | .reset => some "RESET"
  | .wrcfg reg v => some ("WRCFG " ++ regText reg ++ ", " ++ hexText v.toNat)
  | .rdcfg reg => some ("RDCFG " ++ regText reg)
  | .start => some "START"
  | .push x => some ("PUSH " ++ hexText x.toNat)
  | .block xs => some ("BLOCK " ++ toString xs.length ++ ": " ++ String.intercalate ", " (xs.map fun x => hexText x.toNat))
  | .clrerr => some "CLRERR"
  | .uIdle => none
  | .uWindow => none
  | .uFftFwd => none
  | .uAnalyze => none
  | .uRemap => none
  | .uSynth => none
  | .uZeroneg => none
  | .uFftInv => none
  | .uOlaAdd => none
  | .uDrain => none
  | .uAccShift => none
  | .uInShift => none

end Sys2Proof.Machine
end

