-- ==== Sys2Proof/Machine/Reference.lean ====
section
/-!
DEFINITION. Forms of the transform that loops over no array, for statements about the FFT unit: what each pass makes of
element `i` (spec/41_radix2_fft_ifft.md R143, R146, R147). The machine does not run on them. Beside them, the strict
reading of the law NUM-ZERO (00_scope.md R13).
-/

namespace Sys2Proof.Machine

variable {α : Type}

/-- The twiddle `u_j`: `u_0 = (ONE, ZERO)`, `u_(j+1) = u_j · w` with `w` the base twiddle of pair distance `d` (41 R146). -/
def twiddlePower (N : NumOps α) (dir : Dir) (d : Nat) : Nat → α × α
  | 0 => (N.one, N.zero)
  | j + 1 =>
    let u := twiddlePower N dir d j
    let wr := N.cos (N.div N.pi (N.num d))
    let wi := match dir with
      | .inv => N.sin (N.div N.pi (N.num d))
      | .fwd => N.neg (N.sin (N.div N.pi (N.num d)))
    (N.sub (N.mul u.1 wr) (N.mul u.2 wi), N.add (N.mul u.1 wi) (N.mul u.2 wr))

/-- Element `i` after the stage of pair distance `d`, from the elements before it: `a + b·u_j` in the lower half of a group
of `2d`, `a − b·u_j` in the upper half (41 R145, R147). -/
def stageForm (N : NumOps α) (dir : Dir) (d : Nat) (X : Nat → α × α) (i : Nat) : α × α :=
  let j := i % (2 * d)
  if j < d then
    let u := twiddlePower N dir d j
    let b := X (i + d)
    (N.add (X i).1 (N.sub (N.mul b.1 u.1) (N.mul b.2 u.2)), N.add (X i).2 (N.add (N.mul b.1 u.2) (N.mul b.2 u.1)))
  else
    let u := twiddlePower N dir d (j - d)
    let a := X (i - d)
    (N.sub a.1 (N.sub (N.mul (X i).1 u.1) (N.mul (X i).2 u.2)), N.sub a.2 (N.add (N.mul (X i).1 u.2) (N.mul (X i).2 u.1)))

/-- Element `i` after the bit-reversal pass and the first `s` stages of a transform of `2^n` elements (41 R141). -/
def stagesForm (N : NumOps α) (dir : Dir) (n : Nat) (X : Nat → α × α) : Nat → Nat → α × α
  | 0, i => X (bitrev i n)
  | s + 1, i => stageForm N dir (2 ^ s) (stagesForm N dir n X s) i

/-- `sgn(dir)` (30_encoding.md R104). -/
def Dir.sgn : Dir → Int
  | .fwd => -1
  | .inv => 1

/-- The law NUM-ZERO read strictly, in an instance all of whose values are finite, with the scale `NUM.num(H·O)` never
`ZERO` (00_scope.md R13; 45_overlap_add.md R211). `NUM_REAL` is such an instance. -/
structure ExactZero (N : NumOps α) : Prop where
  /-- `ZERO ⊕ ZERO = ZERO`. -/
  zero_add : N.add N.zero N.zero = N.zero
  /-- `ZERO ⊖ ZERO = ZERO`. -/
  zero_sub : N.sub N.zero N.zero = N.zero
  /-- `ZERO ⊗ a = ZERO`. -/
  zero_mul : ∀ a, N.mul N.zero a = N.zero
  /-- `a ⊗ ZERO = ZERO`. -/
  mul_zero : ∀ a, N.mul a N.zero = N.zero
  /-- `ZERO ⊘ a = ZERO` for `a ≠ ZERO`. -/
  zero_div : ∀ a, a ≠ N.zero → N.div N.zero a = N.zero
  /-- `NUM.sqrt(ZERO) = ZERO`. -/
  sqrt_zero : N.sqrt N.zero = N.zero
  /-- `NUM.atan2(ZERO, ZERO) = ZERO`. -/
  atan2_zero : N.atan2 N.zero N.zero = N.zero
  /-- The scale of the overlap-add is not `ZERO`. -/
  num_ne_zero : ∀ i : Nat, 0 < i → i ≤ 2 ^ 23 → N.num i ≠ N.zero

end Sys2Proof.Machine
end

