-- ==== Sys2Proof/Safety.lean ====
section
/-!
DEFINITION. The terms claims are stated in: what a running stream looks like (spec/00_scope.md R11, 20_memory.md R61), the
invariant of the machine, and when a step completes.
-/

namespace Sys2Proof.Machine

/-- A step or an instruction completes: it answers a next state. -/
def Completes (r : Result) : Prop := ∃ t, r = .next t

/-- The state after a command whose command word has the top byte `op` is refused with the status `code`: the error record
as the first error leaves it, the one response word, nothing else (60_exceptions.md R250, R256). -/
def refused (op code : BitVec 8) (s : State) : State :=
  { s with
    err := true
    errcode := if s.err then s.errcode else code
    rsp := s.rsp ++ [op ++ code ++ (0 : BitVec 16)] }

/-- Runs instructions one after another, stopping where one stops. -/
def runAll : List Instr → State → Result
  | [], s => .next s
  | i :: is, s =>
    match exec i s with
    | .next t => runAll is t
    | .fault e => .fault e
    | .refused r => .refused r

/-- The eleven micro-operations of a frame, in their order (40_sliding_window_fifo.md R126). -/
def frameInstrs : List Instr :=
  [.uWindow, .uFftFwd, .uAnalyze, .uRemap, .uSynth, .uZeroneg, .uFftInv, .uOlaAdd, .uDrain, .uAccShift, .uInShift]

/-- The integers `START` latches (00_scope.md R9, R11): `F = 2^n` within the limits, `O` divides `F`, and `S`, `L`, `H` follow. -/
structure Geometry {α : Type} (st : Stream α) : Prop where
  /-- `F = 2^n`. -/
  frame_pow : st.F = 2 ^ st.n
  /-- `MIN_FRAME ≤ F`. -/
  frame_min : Config.minFrame ≤ st.F
  /-- `F ≤ MAX_FRAME`. -/
  frame_max : st.F ≤ Config.maxFrame
  /-- `S · O = F`. -/
  hop : st.S * st.O = st.F
  /-- `L + S = F`. -/
  latency : st.L + st.S = st.F
  /-- `2 · H = F`. -/
  half : 2 * st.H = st.F

/-- A running stream between commands: its geometry, `L ≤ rover ≤ F − 1`, and the six Stream State arrays at their
logical lengths (00_scope.md R11, 20_memory.md R61). -/
structure Running {α : Type} (st : Stream α) : Prop extends Geometry st where
  /-- `L ≤ rover`. -/
  rover_low : st.L ≤ st.rover.toNat
  /-- `rover < F`. -/
  rover_high : st.rover.toNat < st.F
  /-- `F` elements (10_state.md R20). -/
  inputFIFO_length : st.inputFIFO.length = st.F
  /-- `F` elements (R21). -/
  outputFIFO_length : st.outputFIFO.length = st.F
  /-- `2F` elements (R22). -/
  outputAccumulator_length : st.outputAccumulator.length = 2 * st.F
  /-- `2F` elements (R23). -/
  spectrum_length : st.spectrum.length = 2 * st.F
  /-- `H + 1` elements (R24). -/
  lastPhase_length : st.lastPhase.length = st.H + 1
  /-- `H + 1` elements (R25). -/
  sumPhase_length : st.sumPhase.length = st.H + 1

/-- `U.ANALYZE` has written the analysis arrays of the frame (10_state.md R27). -/
def AnalysisPresent {α : Type} (st : Stream α) : Prop :=
  st.anaMagn.length = st.H + 1 ∧ st.anaFreq.length = st.H + 1

/-- `U.REMAP` has written the synthesis arrays of the frame (10_state.md R27). -/
def SynthesisPresent {α : Type} (st : Stream α) : Prop :=
  st.synMagn.length = st.F ∧ st.synFreq.length = st.F

/-- Each scratch array holds no value or one for each logical element (10_state.md R27, R47). -/
def ScratchForm {α : Type} (st : Stream α) : Prop :=
  Memory.wf (st.H + 1) st.anaMagn = true ∧ Memory.wf (st.H + 1) st.anaFreq = true ∧
    Memory.wf st.F st.synMagn = true ∧ Memory.wf st.F st.synFreq = true

/-- Elements `lo … hi−1` of an array hold `ZERO`. -/
def ZeroBetween {α : Type} (N : NumOps α) (A : List α) (lo hi : Nat) : Prop :=
  ∀ k, lo ≤ k → k < hi → A[k]? = some N.zero

/-- The latched configuration is the one the registers hold, and `START` accepts it (10_state.md R38). -/
structure LatchedFrom (s : State) : Prop where
  /-- The checks of `START` pass. -/
  accepted : startRefusal Config.NUM.toNumOps s.frame s.osamp (Config.NUM.decode s.pitch) (Config.NUM.decode s.rate) = none
  /-- `F = FRAME`. -/
  frame : s.stream.F = s.frame.toNat
  /-- `O = OSAMP`. -/
  osamp : s.stream.O = s.osamp.toNat
  /-- `P = NUM.decode(PITCH)`. -/
  pitch : s.stream.P = Config.NUM.decode s.pitch
  /-- `SR = NUM.decode(RATE)`. -/
  rate : s.stream.SR = Config.NUM.decode s.rate
  /-- `FPB = SR ⊘ NUM.num(F)`. -/
  freqPerBin : s.stream.FPB = Config.NUM.div s.stream.SR (Config.NUM.num s.stream.F)
  /-- `EXPCT = (TWO_PI ⊗ NUM.num(S)) ⊘ NUM.num(F)`. -/
  expected : s.stream.EXPCT = Config.NUM.div (Config.NUM.mul Config.NUM.twoPi (Config.NUM.num s.stream.S)) (Config.NUM.num s.stream.F)

/-- What holds of a stream in RUN mode with the sequencer at code `c` (the next micro-operation). -/
structure RunInv (N : NumOps Num) (c : MicroCode) (st : Stream Num) : Prop extends Running st where
  /-- The scratch arrays are in their form. -/
  scratch : ScratchForm st
  /-- Past `U.ANALYZE` the analysis arrays are there. -/
  analysis : 0x3 < c.toNat → AnalysisPresent st
  /-- Past `U.REMAP` the synthesis arrays are there. -/
  synthesis : 0x4 < c.toNat → SynthesisPresent st
  /-- The upper half of the accumulator is zero (45 R215). -/
  upper_zero : ZeroBetween N st.outputAccumulator st.F (2 * st.F)
  /-- Outside `U.OLA_ADD … U.ACC_SHIFT` the accumulator is zero from `L` on (45 R214). -/
  tail_zero : c ≠ 0x9 → c ≠ 0xA → ZeroBetween N st.outputAccumulator st.L st.F
  /-- Elements `S … F−1` of the output FIFO keep their `START` value (10_state.md R21). -/
  output_zero : ZeroBetween N st.outputFIFO st.S st.F

/-- The invariant of the machine. -/
structure Invariant (s : State) : Prop where
  /-- The sequencer's code is one of 0x0 to 0xB (30_encoding.md R105). -/
  code_legal : s.uop.toNat ≤ 0xB
  /-- With no error recorded `ERRCODE` is 0 (10_state.md R29). -/
  no_error : s.err = false → s.errcode = 0
  /-- A recorded code is one of the ten refusal codes (30_encoding.md R100). -/
  error_code : s.err = true → ∃ c, c ≠ Status.ok ∧ s.errcode = statusCode c
  /-- In CONFIG mode there is no stream and no frame (10_state.md R44, R41). -/
  config_mode : s.mode = .config → s.stream = State.reset.stream ∧ s.uop = 0x0
  /-- In RUN mode the stream is a running one of the configuration in the registers. -/
  run_mode : s.mode = .run → RunInv Config.NUM.toNumOps s.uop s.stream ∧ LatchedFrom s

end Sys2Proof.Machine
end

