-- ==== Sys2Proof/Certificates/Slice0/Obligations.lean ====
section
/-!
DEFINITION. The statements for the provers. A statement about a command gives the whole next state, so that everything it does
not name is unchanged; elements of an array are named by `A[k]?`, which is `some` exactly inside the array. `refused op code s` is
the state after a refusal (Safety.lean). Where a clause is the model's own choice its docstring names the log entry.
-/

open Sys2Proof Sys2Proof.Machine

/-! ## Commands -/

/-- 46_host_commands.md R226: `NOP` answers `0x00000000` and does nothing else, in either mode. -/
def Obligations.NopOnlyAnswersOk : Prop :=
  ∀ s : State, exec .nop s = .next { s with rsp := s.rsp ++ [0x00000000] }

/-- 46 R227: after `RESET` the mode, the error record, the four registers and the cursor are as the rule sets them, the whole state
is that of hardware reset, and the answer is `0x01000000`. (What that state holds where the rule says "unspecified" is log entries
4 and 5, and no clause names it; that the two streams are untouched but for the answer is log entry 10.) -/
def Obligations.ResetCommandTakesResetState : Prop :=
  ∀ s : State, ∃ t, exec .reset s = .next t ∧
    t.mode = .config ∧ t.err = false ∧ t.errcode = 0 ∧
    t.frame = 0 ∧ t.osamp = 0 ∧ t.pitch = 0x00000000 ∧ t.rate = 0x00000000 ∧ t.stream.rover = 0 ∧
    { t with cmd := [], rsp := [] } = State.reset ∧
    t.cmd = s.cmd ∧ t.rsp = s.rsp ++ [0x01000000]

/-- 10_state.md R44, the column of hardware reset: the registers, what each reads as, and that no array holds a value
(R47; that "no value" is the empty array is log entry 5). -/
def Obligations.ResetStateValues : Prop :=
  State.reset.mode = .config ∧ State.reset.err = false ∧ State.reset.errcode = 0 ∧
  State.reset.frame = 0x00000000 ∧ State.reset.osamp = 0x00000000 ∧
  State.reset.pitch = 0x00000000 ∧ State.reset.rate = 0x00000000 ∧
  State.reset.stream.rover = 0 ∧ State.reset.uop = 0 ∧
  regval State.reset .status = 0x00000000 ∧ regval State.reset .maxframe = 0x00001000 ∧
  regval State.reset .step = 0 ∧ regval State.reset .latency = 0 ∧ regval State.reset .rover = 0 ∧
  ∀ k : Nat, State.reset.stream.inputFIFO[k]? = none ∧ State.reset.stream.outputFIFO[k]? = none ∧
    State.reset.stream.outputAccumulator[k]? = none ∧ State.reset.stream.spectrum[k]? = none ∧
    State.reset.stream.lastPhase[k]? = none ∧ State.reset.stream.sumPhase[k]? = none ∧
    State.reset.stream.anaMagn[k]? = none ∧ State.reset.stream.anaFreq[k]? = none ∧
    State.reset.stream.synMagn[k]? = none ∧ State.reset.stream.synFreq[k]? = none

/-- 46 R228: `WRCFG` stores the word in the configuration register; an undefined or read-only register is `BAD_REG` in either
mode, a configuration register in RUN mode is `LOCKED`. -/
def Obligations.WrcfgStoresOrRefuses : Prop :=
  ∀ (s : State) (v : Word),
    (s.mode = .config →
      exec (.wrcfg 0x0001 v) s = .next { s with frame := v, rsp := s.rsp ++ [0x02000000] } ∧
      exec (.wrcfg 0x0002 v) s = .next { s with osamp := v, rsp := s.rsp ++ [0x02000000] } ∧
      exec (.wrcfg 0x0003 v) s = .next { s with pitch := v, rsp := s.rsp ++ [0x02000000] } ∧
      exec (.wrcfg 0x0004 v) s = .next { s with rate := v, rsp := s.rsp ++ [0x02000000] }) ∧
    (s.mode = .run → ∀ reg : RegNum, 1 ≤ reg.toNat → reg.toNat ≤ 4 →
      exec (.wrcfg reg v) s = .next (refused 0x02 0x03 s)) ∧
    (∀ reg : RegNum, reg.toNat = 0 ∨ 5 ≤ reg.toNat →
      exec (.wrcfg reg v) s = .next (refused 0x02 0x02 s))

/-- 46 R229 and R230: `RDCFG` answers the word the register reads as, in either mode, and changes nothing; a number that names
no register is `BAD_REG`. -/
def Obligations.RdcfgReadsOrRefuses : Prop :=
  ∀ s : State,
    (∀ reg : RegNum, reg.toNat ≤ 8 →
      exec (.rdcfg reg) s = .next { s with
        rsp := s.rsp ++ [0x03000001,
          match reg.toNat with
          | 0 => BitVec.ofNat 32
              (256 * s.errcode.toNat + (if s.err then 2 else 0) + (if s.mode = .run then 1 else 0))
          | 1 => s.frame
          | 2 => s.osamp
          | 3 => s.pitch
          | 4 => s.rate
          | 5 => 0x00001000
          | 6 => if s.mode = .run then BitVec.ofNat 32 s.stream.S else 0
          | 7 => if s.mode = .run then BitVec.ofNat 32 s.stream.L else 0
          | _ => if s.mode = .run then s.stream.rover.setWidth 32 else 0] }) ∧
    (∀ reg : RegNum, 8 < reg.toNat → exec (.rdcfg reg) s = .next (refused 0x03 0x02 s))

/-- 46 R233: `CLRERR` clears the error record and changes nothing else. -/
def Obligations.ClrerrClearsErrorRecord : Prop :=
  ∀ s : State, exec .clrerr s = .next { s with err := false, errcode := 0, rsp := s.rsp ++ [0x07000000] }

/-- 46 R231, with the order of the checks: in RUN mode `LOCKED`; in CONFIG mode the first check that fails decides; when none
fails the configuration is latched, the six arrays are zero, the cursor is `L` and the mode is RUN. A power of two is a number
that is 2 to its own binary logarithm. Of the scratch arrays the rule says nothing, and neither does this. -/
def Obligations.StartValidatesThenCreatesStream : Prop :=
  ∀ s : State,
    (s.mode = .run → exec .start s = .next (refused 0x04 0x03 s)) ∧
    (s.mode = .config →
      let f := s.frame.toNat
      let o := s.osamp.toNat
      let p := Config.NUM.decode s.pitch
      let sr := Config.NUM.decode s.rate
      if f ≠ 2 ^ Nat.log2 f then exec .start s = .next (refused 0x04 0x10 s)
      else if f < 2 ∨ 4096 < f then exec .start s = .next (refused 0x04 0x11 s)
      else if o < 1 ∨ f < o then exec .start s = .next (refused 0x04 0x12 s)
      else if f % o ≠ 0 then exec .start s = .next (refused 0x04 0x13 s)
      else if Config.NUM.isFinite p = false ∨ Config.NUM.lt p Config.NUM.half = true ∨
          Config.NUM.lt Config.NUM.two p = true then exec .start s = .next (refused 0x04 0x14 s)
      else if Config.NUM.isFinite sr = false ∨ Config.NUM.le sr Config.NUM.zero = true then
        exec .start s = .next (refused 0x04 0x15 s)
      else ∃ st : Stream Sys2Proof.Num,
        exec .start s = .next { s with mode := .run, stream := st, rsp := s.rsp ++ [0x04000000] } ∧
        st.F = f ∧ st.O = o ∧ st.S = f / o ∧ st.L = f - f / o ∧ st.H = f / 2 ∧ st.n = Nat.log2 f ∧
        st.P = p ∧ st.SR = sr ∧ st.FPB = Config.NUM.div sr (Config.NUM.num f) ∧
        st.EXPCT = Config.NUM.div (Config.NUM.mul Config.NUM.twoPi (Config.NUM.num (f / o : Nat))) (Config.NUM.num f) ∧
        st.rover.toNat = f - f / o ∧
        st.inputFIFO = List.replicate f Config.NUM.zero ∧ st.outputFIFO = List.replicate f Config.NUM.zero ∧
        st.outputAccumulator = List.replicate (2 * f) Config.NUM.zero ∧
        st.spectrum = List.replicate (2 * f) Config.NUM.zero ∧
        st.lastPhase = List.replicate (f / 2 + 1) Config.NUM.zero ∧
        st.sumPhase = List.replicate (f / 2 + 1) Config.NUM.zero)

/-- 00_scope.md R11: from a valid configuration (`FRAME = 2^n`, `OSAMP` a divisor of it, `PITCH` and `RATE` in range) `START`
executes and establishes the invariants of a running stream, every element of whose six arrays is `ZERO`. -/
def Obligations.StartEstablishesRunningStream : Prop :=
  ∀ (s : State) (n : Nat), s.mode = .config → 1 ≤ n → n ≤ 12 → s.frame.toNat = 2 ^ n → s.osamp.toNat ∣ 2 ^ n →
    Config.NUM.isFinite (Config.NUM.decode s.pitch) = true →
    Config.NUM.lt (Config.NUM.decode s.pitch) Config.NUM.half = false →
    Config.NUM.lt Config.NUM.two (Config.NUM.decode s.pitch) = false →
    Config.NUM.isFinite (Config.NUM.decode s.rate) = true →
    Config.NUM.le (Config.NUM.decode s.rate) Config.NUM.zero = false →
    ∃ st : Stream Sys2Proof.Num,
      exec .start s = .next { s with mode := .run, stream := st, rsp := s.rsp ++ [0x04000000] } ∧
      Running st ∧ st.n = n ∧ st.O = s.osamp.toNat ∧ 1 ≤ st.S ∧ (∃ m, m ≤ n ∧ st.O = 2 ^ m) ∧
      (∀ x ∈ st.inputFIFO, x = Config.NUM.zero) ∧ (∀ x ∈ st.outputFIFO, x = Config.NUM.zero) ∧
      (∀ x ∈ st.outputAccumulator, x = Config.NUM.zero) ∧ (∀ x ∈ st.spectrum, x = Config.NUM.zero) ∧
      (∀ x ∈ st.lastPhase, x = Config.NUM.zero) ∧ (∀ x ∈ st.sumPhase, x = Config.NUM.zero)

/-- 40_sliding_window_fifo.md R120: `PUSH` is refused in CONFIG mode; in RUN mode it writes the sample at the cursor, answers the
element of the output FIFO at `rover − L` as it was before, and advances the cursor; a cursor that reaches `F` goes back to
`L` and the eleven micro-operations of R126 run before the answer. -/
def Obligations.PushStoresReturnsAdvances : Prop :=
  ∀ (s : State) (x : Word),
    (s.mode = .config → exec (.push x) s = .next (refused 0x05 0x04 s)) ∧
    (s.mode = .run → Running s.stream → ∃ y,
      s.stream.outputFIFO[s.stream.rover.toNat - s.stream.L]? = some y ∧
      (s.stream.rover.toNat + 1 < s.stream.F →
        exec (.push x) s = .next { s with
          stream := { s.stream with
            inputFIFO := s.stream.inputFIFO.set s.stream.rover.toNat (Config.NUM.decode x)
            rover := s.stream.rover + 1 }
          rsp := s.rsp ++ [0x05000001, Config.NUM.encode y] }) ∧
      (s.stream.rover.toNat + 1 = s.stream.F → ∃ t,
        runAll frameInstrs { s with
          stream := { s.stream with
            inputFIFO := s.stream.inputFIFO.set s.stream.rover.toNat (Config.NUM.decode x)
            rover := BitVec.ofNat 14 s.stream.L } } = .next t ∧
        exec (.push x) s = .next { t with rsp := s.rsp ++ [0x05000001, Config.NUM.encode y] }))

/-- 40 R125: `BLOCK` is refused in CONFIG mode; in RUN mode it does what its samples pushed one by one do, and answers one
header and their output words in order; cutting an input into two blocks changes no output word and no state. -/
def Obligations.BlockIsSuccessivePushes : Prop :=
  ∀ (s : State) (xs : List Word),
    (s.mode = .config → exec (.block xs) s = .next (refused 0x06 0x04 s)) ∧
    (s.mode = .run → Running s.stream → ∃ (t : State) (ys : List Word), ys.length = xs.length ∧
      runAll (xs.map Instr.push) s = .next { t with rsp := s.rsp ++ ys.flatMap fun y => [0x05000001, y] } ∧
      exec (.block xs) s = .next { t with
        rsp := s.rsp ++ ((0x0600 : BitVec 16) ++ BitVec.ofNat 16 xs.length) :: ys }) ∧
    (s.mode = .run → Running s.stream → ∀ xs' : List Word, ∃ (t u : State) (ys ys' : List Word),
      ys.length = xs.length ∧ ys'.length = xs'.length ∧
      exec (.block xs) s = .next t ∧
      t.rsp = s.rsp ++ ((0x0600 : BitVec 16) ++ BitVec.ofNat 16 xs.length) :: ys ∧
      exec (.block xs') t = .next u ∧
      u.rsp = t.rsp ++ ((0x0600 : BitVec 16) ++ BitVec.ofNat 16 xs'.length) :: ys' ∧
      exec (.block (xs ++ xs')) s = .next { u with
        rsp := s.rsp ++ ((0x0600 : BitVec 16) ++ BitVec.ofNat 16 (xs.length + xs'.length)) :: (ys ++ ys') })

/-! ## Micro-operations -/

/-- 30_encoding.md R105: `U.IDLE` is "no frame in progress"; that it runs as an instruction is the model's choice (log entry 7). -/
def Obligations.IdleChangesNothing : Prop :=
  ∀ s : State, exec .uIdle s = .next s

/-- 42_stft_analysis.md R162 with the window of R161: `U.WINDOW` writes all `2F` elements of `spectrum` and nothing else. -/
def Obligations.WindowLoadsSpectrum : Prop :=
  ∀ s : State, s.stream.inputFIFO.length = s.stream.F → ∃ X : List Sys2Proof.Num,
    exec .uWindow s = .next { s with stream := { s.stream with spectrum := X } } ∧
    X.length = 2 * s.stream.F ∧
    ∀ (k : Nat) (x : Sys2Proof.Num), s.stream.inputFIFO[k]? = some x →
      X[2 * k]? = some (Config.NUM.mul x
        (Config.NUM.sub Config.NUM.half (Config.NUM.mul Config.NUM.half (Config.NUM.cos
          (Config.NUM.div (Config.NUM.mul Config.NUM.twoPi (Config.NUM.num k)) (Config.NUM.num s.stream.F)))))) ∧
      X[2 * k + 1]? = some Config.NUM.zero

/-- 41_radix2_fft_ifft.md R141: `U.FFT.FWD` and `U.FFT.INV` replace the `F = 2^n` elements of `spectrum` by what the bit-reversal
pass and the `n` stages make of them, element by element (`stagesForm`), and change nothing else. -/
def Obligations.FftUnitRunsItsStages : Prop :=
  ∀ s : State, s.stream.spectrum.length = 2 * s.stream.F → s.stream.F = 2 ^ s.stream.n →
    (∃ X : List Sys2Proof.Num,
      exec .uFftFwd s = .next { s with stream := { s.stream with spectrum := X } } ∧
      X.length = 2 * s.stream.F ∧
      ∀ i < s.stream.F, complexRead Config.NUM.toNumOps X i =
        stagesForm Config.NUM.toNumOps .fwd s.stream.n (complexRead Config.NUM.toNumOps s.stream.spectrum) s.stream.n i) ∧
    (∃ X : List Sys2Proof.Num,
      exec .uFftInv s = .next { s with stream := { s.stream with spectrum := X } } ∧
      X.length = 2 * s.stream.F ∧
      ∀ i < s.stream.F, complexRead Config.NUM.toNumOps X i =
        stagesForm Config.NUM.toNumOps .inv s.stream.n (complexRead Config.NUM.toNumOps s.stream.spectrum) s.stream.n i)

/-- 42 R164 (R165, R166): `U.ANALYZE` writes the magnitude, the frequency and the phase of every bin `0 … H`, the frequency
from the phase the tracker held before, and nothing else. -/
def Obligations.AnalyzeMeasuresEveryBin : Prop :=
  ∀ s : State, s.stream.spectrum.length = 2 * s.stream.F → s.stream.lastPhase.length = s.stream.H + 1 →
    s.stream.H < s.stream.F → ∃ M Q R : List Sys2Proof.Num,
    exec .uAnalyze s = .next { s with stream := { s.stream with anaMagn := M, anaFreq := Q, lastPhase := R } } ∧
    M.length = s.stream.H + 1 ∧ Q.length = s.stream.H + 1 ∧ R.length = s.stream.H + 1 ∧
    ∀ (k : Nat) (re im last : Sys2Proof.Num), s.stream.spectrum[2 * k]? = some re → s.stream.spectrum[2 * k + 1]? = some im →
      s.stream.lastPhase[k]? = some last →
      let ph := Config.NUM.atan2 im re
      let t := Config.NUM.sub (Config.NUM.sub ph last) (Config.NUM.mul (Config.NUM.num k) s.stream.EXPCT)
      let t' := Config.NUM.sub t (Config.NUM.mul Config.NUM.pi (Config.NUM.num (Config.NUM.evenq (Config.NUM.div t Config.NUM.pi))))
      let dev := Config.NUM.div (Config.NUM.mul (Config.NUM.num s.stream.O) t') Config.NUM.twoPi
      M[k]? = some (Config.NUM.mul Config.NUM.two
        (Config.NUM.sqrt (Config.NUM.add (Config.NUM.mul re re) (Config.NUM.mul im im)))) ∧
      Q[k]? = some (Config.NUM.add (Config.NUM.mul (Config.NUM.num k) s.stream.FPB) (Config.NUM.mul dev s.stream.FPB)) ∧
      R[k]? = some ph

/-- 43_bin_remapper.md R181 (R182, R185): after `U.REMAP` target `t ≤ H` holds the sum, in ascending order from `ZERO`, of the
magnitudes of its sources, and the scaled frequency of its last source; a target without a source and every element above `H`
hold `ZERO`. Nothing else changes. -/
def Obligations.RemapScattersBins : Prop :=
  ∀ s : State, s.stream.anaMagn.length = s.stream.H + 1 → s.stream.anaFreq.length = s.stream.H + 1 →
    s.stream.H < s.stream.F → ∃ M Q : List Sys2Proof.Num,
    exec .uRemap s = .next { s with stream := { s.stream with synMagn := M, synFreq := Q } } ∧
    M.length = s.stream.F ∧ Q.length = s.stream.F ∧
    (∀ t : Nat, t ≤ s.stream.H →
      let sources := (List.range (s.stream.H + 1)).filter fun k : Nat =>
        Config.NUM.floor (Config.NUM.mul (Config.NUM.num k) s.stream.P) = (t : Int)
      M[t]? = some (sources.foldl
        (fun m k => Config.NUM.add m (s.stream.anaMagn.getD k Config.NUM.zero)) Config.NUM.zero) ∧
      Q[t]? = some (match sources.getLast? with
        | some k => Config.NUM.mul (s.stream.anaFreq.getD k Config.NUM.zero) s.stream.P
        | none => Config.NUM.zero)) ∧
    (∀ t : Nat, s.stream.H < t → t < s.stream.F → M[t]? = some Config.NUM.zero ∧ Q[t]? = some Config.NUM.zero)

/-- 44_phase_synthesis.md R191 (R193, R194): `U.SYNTH` adds the increment of every bin `0 … H` to its `sumPhase` and writes the
pair of the new phase; `spectrum` above bin `H` and everything else is unchanged. -/
def Obligations.SynthAccumulatesPhase : Prop :=
  ∀ s : State, s.stream.synMagn.length = s.stream.F → s.stream.synFreq.length = s.stream.F →
    s.stream.sumPhase.length = s.stream.H + 1 → s.stream.spectrum.length = 2 * s.stream.F →
    s.stream.H < s.stream.F → ∃ A X : List Sys2Proof.Num,
    exec .uSynth s = .next { s with stream := { s.stream with sumPhase := A, spectrum := X } } ∧
    A.length = s.stream.H + 1 ∧ X.length = 2 * s.stream.F ∧
    (∀ (k : Nat) (magn freq p : Sys2Proof.Num), k ≤ s.stream.H → s.stream.synMagn[k]? = some magn →
      s.stream.synFreq[k]? = some freq → s.stream.sumPhase[k]? = some p →
      let dev := Config.NUM.div (Config.NUM.sub freq (Config.NUM.mul (Config.NUM.num k) s.stream.FPB)) s.stream.FPB
      let ph := Config.NUM.add p (Config.NUM.add
        (Config.NUM.div (Config.NUM.mul Config.NUM.twoPi dev) (Config.NUM.num s.stream.O))
        (Config.NUM.mul (Config.NUM.num k) s.stream.EXPCT))
      A[k]? = some ph ∧ X[2 * k]? = some (Config.NUM.mul magn (Config.NUM.cos ph)) ∧
      X[2 * k + 1]? = some (Config.NUM.mul magn (Config.NUM.sin ph))) ∧
    (∀ j : Nat, 2 * (s.stream.H + 1) ≤ j → X[j]? = s.stream.spectrum[j]?)

/-- 44 R196: `U.ZERONEG` sets bins `H+1 … F−1` to zero and changes nothing else. -/
def Obligations.ZeronegClearsUpperBins : Prop :=
  ∀ s : State, s.stream.spectrum.length = 2 * s.stream.F → ∃ X : List Sys2Proof.Num,
    exec .uZeroneg s = .next { s with stream := { s.stream with spectrum := X } } ∧
    X.length = 2 * s.stream.F ∧
    (∀ j : Nat, j < 2 * (s.stream.H + 1) → X[j]? = s.stream.spectrum[j]?) ∧
    (∀ j : Nat, 2 * (s.stream.H + 1) ≤ j → j < 2 * s.stream.F → X[j]? = some Config.NUM.zero)

/-- 45_overlap_add.md R211: `U.OLA_ADD` adds the windowed, scaled real part to elements `0 … F−1` of the accumulator and changes
nothing else. -/
def Obligations.OlaAddAccumulates : Prop :=
  ∀ s : State, s.stream.outputAccumulator.length = 2 * s.stream.F → s.stream.spectrum.length = 2 * s.stream.F →
    ∃ A : List Sys2Proof.Num,
    exec .uOlaAdd s = .next { s with stream := { s.stream with outputAccumulator := A } } ∧
    A.length = 2 * s.stream.F ∧
    (∀ (k : Nat) (a re : Sys2Proof.Num), k < s.stream.F → s.stream.outputAccumulator[k]? = some a →
      s.stream.spectrum[2 * k]? = some re →
      let w := Config.NUM.sub Config.NUM.half (Config.NUM.mul Config.NUM.half (Config.NUM.cos
        (Config.NUM.div (Config.NUM.mul Config.NUM.twoPi (Config.NUM.num k)) (Config.NUM.num s.stream.F))))
      A[k]? = some (Config.NUM.add a (Config.NUM.div
        (Config.NUM.mul (Config.NUM.mul Config.NUM.two w) re) (Config.NUM.num (s.stream.H * s.stream.O : Nat))))) ∧
    (∀ k : Nat, s.stream.F ≤ k → A[k]? = s.stream.outputAccumulator[k]?)

/-- 45 R212: `U.DRAIN` copies elements `0 … S−1` of the accumulator to the output FIFO and changes nothing else. -/
def Obligations.DrainCopiesFinishedSamples : Prop :=
  ∀ s : State, s.stream.outputAccumulator.length = 2 * s.stream.F → s.stream.outputFIFO.length = s.stream.F →
    s.stream.S ≤ s.stream.F → ∃ B : List Sys2Proof.Num,
    exec .uDrain s = .next { s with stream := { s.stream with outputFIFO := B } } ∧
    B.length = s.stream.F ∧
    (∀ k < s.stream.S, B[k]? = s.stream.outputAccumulator[k]?) ∧
    (∀ k : Nat, s.stream.S ≤ k → B[k]? = s.stream.outputFIFO[k]?)

/-- 45 R213: `U.ACC_SHIFT` moves all `2F` elements of the accumulator down by `S`, fills with `ZERO` and changes nothing else. -/
def Obligations.AccShiftMovesAndFills : Prop :=
  ∀ s : State, s.stream.outputAccumulator.length = 2 * s.stream.F → s.stream.S ≤ s.stream.F → ∃ A : List Sys2Proof.Num,
    exec .uAccShift s = .next { s with stream := { s.stream with outputAccumulator := A } } ∧
    A.length = 2 * s.stream.F ∧
    (∀ k : Nat, k + s.stream.S < 2 * s.stream.F → A[k]? = s.stream.outputAccumulator[k + s.stream.S]?) ∧
    (∀ k : Nat, 2 * s.stream.F ≤ k + s.stream.S → k < 2 * s.stream.F → A[k]? = some Config.NUM.zero)

/-- 40 R130: `U.IN_SHIFT` moves elements `S … F−1` of the input FIFO down by `S`; elements `L … F−1` keep their values, and
nothing else changes. -/
def Obligations.InShiftMovesWindow : Prop :=
  ∀ s : State, s.stream.inputFIFO.length = s.stream.F → s.stream.L + s.stream.S ≤ s.stream.F → ∃ A : List Sys2Proof.Num,
    exec .uInShift s = .next { s with stream := { s.stream with inputFIFO := A } } ∧
    A.length = s.stream.F ∧
    (∀ k < s.stream.L, A[k]? = s.stream.inputFIFO[k + s.stream.S]?) ∧
    (∀ k : Nat, s.stream.L ≤ k → A[k]? = s.stream.inputFIFO[k]?)

/-- The model's choice (log entries 5, 8, 15, 16): a micro-operation, or a `PUSH` in RUN mode, faults exactly when an array
element it accesses does not exist or holds no value; a running stream never does (20_memory.md R65). -/
def Obligations.MissingElementFaults : Prop :=
  ∀ s : State,
    (exec .uWindow s = .fault .noElement ↔ s.stream.inputFIFO.length ≠ s.stream.F) ∧
    (exec .uFftFwd s = .fault .noElement ↔
      ¬ (s.stream.spectrum.length = 2 * s.stream.F ∧ (s.stream.F = 2 ^ s.stream.n ∨ s.stream.F = 0))) ∧
    (exec .uFftInv s = .fault .noElement ↔
      ¬ (s.stream.spectrum.length = 2 * s.stream.F ∧ (s.stream.F = 2 ^ s.stream.n ∨ s.stream.F = 0))) ∧
    (exec .uAnalyze s = .fault .noElement ↔
      ¬ (s.stream.spectrum.length = 2 * s.stream.F ∧ s.stream.lastPhase.length = s.stream.H + 1 ∧ s.stream.H < s.stream.F)) ∧
    (exec .uRemap s = .fault .noElement ↔
      ¬ (s.stream.anaMagn.length = s.stream.H + 1 ∧ s.stream.anaFreq.length = s.stream.H + 1 ∧ s.stream.H < s.stream.F)) ∧
    (exec .uSynth s = .fault .noElement ↔
      ¬ (s.stream.synMagn.length = s.stream.F ∧ s.stream.synFreq.length = s.stream.F ∧
        s.stream.sumPhase.length = s.stream.H + 1 ∧ s.stream.spectrum.length = 2 * s.stream.F ∧ s.stream.H < s.stream.F)) ∧
    (exec .uZeroneg s = .fault .noElement ↔ s.stream.spectrum.length ≠ 2 * s.stream.F) ∧
    (exec .uOlaAdd s = .fault .noElement ↔
      ¬ (s.stream.outputAccumulator.length = 2 * s.stream.F ∧ s.stream.spectrum.length = 2 * s.stream.F)) ∧
    (exec .uDrain s = .fault .noElement ↔
      ¬ (s.stream.outputAccumulator.length = 2 * s.stream.F ∧ s.stream.outputFIFO.length = s.stream.F ∧
        s.stream.S ≤ s.stream.F)) ∧
    (exec .uAccShift s = .fault .noElement ↔
      ¬ (s.stream.outputAccumulator.length = 2 * s.stream.F ∧ s.stream.S ≤ s.stream.F)) ∧
    (exec .uInShift s = .fault .noElement ↔
      ¬ (s.stream.inputFIFO.length = s.stream.F ∧ s.stream.L + s.stream.S ≤ s.stream.F)) ∧
    (∀ x : Word, s.mode = .run →
      ¬ (s.stream.L ≤ s.stream.rover.toNat ∧ s.stream.rover.toNat < s.stream.inputFIFO.length ∧
        s.stream.rover.toNat - s.stream.L < s.stream.outputFIFO.length) →
      exec (.push x) s = .fault .noElement)

/-! ## The transform -/

/-- 41 R144: `bitrev(i, n)` is the sum of bit `b` of `i` times `2^(n−1−b)`, and an involution on `0 … 2^n − 1`. -/
def Obligations.BitrevReversesBits : Prop :=
  (∀ n i : Nat, bitrev i n = ∑ b ∈ Finset.range n, (i / 2 ^ b % 2) * 2 ^ (n - 1 - b)) ∧
  (∀ n i : Nat, i < 2 ^ n → bitrev i n < 2 ^ n ∧ bitrev (bitrev i n) n = i) ∧
  (List.range 2).map (bitrev · 1) = [0, 1] ∧ (List.range 4).map (bitrev · 2) = [0, 2, 1, 3] ∧
  (List.range 8).map (bitrev · 3) = [0, 4, 2, 6, 1, 5, 3, 7] ∧
  (List.range 16).map (bitrev · 4) = [0, 8, 4, 12, 2, 10, 6, 14, 1, 9, 5, 13, 3, 11, 7, 15]

/-- 41 R143: after pass 1, `X'[i] = X[bitrev(i, n)]` for every `i`, in every scalar type. -/
def Obligations.BitReversalPassPermutes : Prop :=
  ∀ (α : Type) (N : NumOps α) (n : Nat) (X : List α), X.length = 2 * 2 ^ n →
    (bitrevPass N (2 ^ n) n X).length = X.length ∧
    ∀ i < 2 ^ n, complexRead N (bitrevPass N (2 ^ n) n X) i = complexRead N X (bitrev i n)

/-- 41 R148: over the real numbers the unit computes the unnormalised discrete Fourier transform and its inverse. -/
def Obligations.TransformIsTheDft : Prop :=
  ∀ (dir : Dir) (n : Nat) (X : List ℝ), X.length = 2 * 2 ^ n → ∀ m < 2 ^ n,
    (⟨(complexRead numReal (fftArray numReal dir (2 ^ n) n X) m).1,
      (complexRead numReal (fftArray numReal dir (2 ^ n) n X) m).2⟩ : ℂ) =
      ∑ k ∈ Finset.range (2 ^ n),
        (⟨(complexRead numReal X k).1, (complexRead numReal X k).2⟩ : ℂ) *
          Complex.exp (((dir.sgn : ℤ) : ℂ) * (2 * Real.pi * Complex.I) * k * m / (2 ^ n : ℕ))

/-- 41 R149: over the real numbers the inverse after the forward transform returns `F` times the original buffer. -/
def Obligations.InverseAfterForwardScales : Prop :=
  ∀ (n : Nat) (X : List ℝ), X.length = 2 * 2 ^ n →
    fftArray numReal .inv (2 ^ n) n (fftArray numReal .fwd (2 ^ n) n X) = X.map fun x => ((2 ^ n : ℕ) : ℝ) * x

/-! ## The stages over the real numbers -/

/-- 42 R161: the window, its symmetry, its range, its two ends, and its tables for `F = 2, 4, 8`. -/
def Obligations.RealWindowIsHann : Prop :=
  (∀ F k : Nat, hann numReal F k = 1 / 2 - 1 / 2 * Real.cos (2 * Real.pi * k / F)) ∧
  (∀ F k : Nat, 0 ≤ hann numReal F k ∧ hann numReal F k ≤ 1) ∧
  (∀ F : Nat, hann numReal F 0 = 0) ∧
  (∀ H : Nat, 0 < H → hann numReal (2 * H) H = 1) ∧
  (∀ F k : Nat, 0 < F → k ≤ F → hann numReal F (F - k) = hann numReal F k) ∧
  (List.range 2).map (hann numReal 2) = [0, 1] ∧
  (List.range 4).map (hann numReal 4) = [0, 1 / 2, 1, 1 / 2] ∧
  (List.range 8).map (hann numReal 8) =
    [0, (2 - Real.sqrt 2) / 4, 1 / 2, (2 + Real.sqrt 2) / 4, 1, (2 + Real.sqrt 2) / 4, 1 / 2, (2 - Real.sqrt 2) / 4]

/-- 42 R167: the wrap subtracts `π` times the even integer `e` with `t/π − e ∈ (−1, 1]`; that integer is the only one, it is a
nearest even integer, the result lies in `(−π, π]`, and an odd quotient gives `+π`. -/
def Obligations.RealWrapLandsInInterval : Prop :=
  ∀ t : ℝ,
    let q := t / Real.pi
    let e := numReal.evenq q
    Even e ∧ -1 < q - e ∧ q - e ≤ 1 ∧
    (∀ e' : ℤ, Even e' → -1 < q - e' → q - e' ≤ 1 → e' = e) ∧
    (∀ e' : ℤ, Even e' → |q - e| ≤ |q - e'|) ∧
    wrapPhase numReal t = t - Real.pi * e ∧
    -Real.pi < wrapPhase numReal t ∧ wrapPhase numReal t ≤ Real.pi ∧
    (∀ z : ℤ, Odd z → q = z → e = z - 1 ∧ wrapPhase numReal t = Real.pi)

/-- 42 R168: over the real numbers `EXPCT = 2π/O`, and the frequency of bin `k` is `(k + dev)·FPB` with `dev ∈ (−O/2, O/2]`
the wrapped residual in bins. -/
def Obligations.RealFrequencyWithinHalfOversampling : Prop :=
  ∀ (st : Stream ℝ) (k : Nat) (ph last : ℝ), 0 < st.F → st.S * st.O = st.F →
    st.EXPCT = numReal.div (numReal.mul numReal.twoPi (numReal.num st.S)) (numReal.num st.F) →
    st.EXPCT = 2 * Real.pi / st.O ∧
    ∃ dev : ℝ, dev = st.O * wrapPhase numReal (ph - last - k * st.EXPCT) / (2 * Real.pi) ∧
      -(st.O / 2 : ℝ) < dev ∧ dev ≤ st.O / 2 ∧
      trueFrequency numReal st k ph last = k * st.FPB + dev * st.FPB ∧
      (0 < st.FPB → (k - (st.O / 2 : ℝ)) * st.FPB < trueFrequency numReal st k ph last ∧
        trueFrequency numReal st k ph last ≤ (k + (st.O / 2 : ℝ)) * st.FPB)

/-- 43 R187, read by the pseudocode of R181 (log entry 24): over the real numbers the targets do not decrease; bin `k` is kept
exactly when `k·P < H + 1`, so for `P ≥ 1`, where the targets strictly increase, every bin `k ≥ H/P + 1` is dropped, and
for `P < 1` none is; at most `⌈1/P⌉` sources share one; `P = 2` doubles the bin and `P = 0.5` halves it. -/
def Obligations.RealTargetsAreMonotone : Prop :=
  (∀ (P : ℝ) (j k : Nat), 0 < P → j ≤ k → 0 ≤ remapTarget numReal P j ∧ remapTarget numReal P j ≤ remapTarget numReal P k) ∧
  (∀ (P : ℝ) (H k : Nat), 0 < P → (targetKept H (remapTarget numReal P k) = true ↔ (k : ℝ) * P < H + 1)) ∧
  (∀ (P : ℝ) (k : Nat), 1 ≤ P → remapTarget numReal P k + 1 ≤ remapTarget numReal P (k + 1)) ∧
  (∀ (P : ℝ) (H k : Nat), 1 ≤ P → (H : ℝ) / P + 1 ≤ k → targetKept H (remapTarget numReal P k) = false) ∧
  (∀ (P : ℝ) (H k : Nat), 0 < P → P < 1 → k ≤ H → targetKept H (remapTarget numReal P k) = true) ∧
  (∀ (P : ℝ) (K : Nat) (t : Int), 0 < P →
    (((Finset.range K).filter fun k => remapTarget numReal P k = t).card : Int) ≤ ⌈1 / P⌉) ∧
  (∀ k : Nat, remapTarget numReal 2 k = 2 * (k : Int)) ∧
  (∀ k : Nat, remapTarget numReal (1 / 2) k = (k / 2 : Nat))

/-- 43 R186: with `P = ONE` the machine's `U.REMAP` sends every bin to itself; law NUM-INT is all it takes (00_scope.md R13).
(That `ZERO ⊕ a` is `a` is no law of R13, so the sum stands as the operation sequence gives it.) -/
def Obligations.UnitPitchRemapsEachBinToItself : Prop :=
  ∀ s : State, s.stream.P = Config.NUM.one → Geometry s.stream → AnalysisPresent s.stream → ∃ M Q : List Sys2Proof.Num,
    exec .uRemap s = .next { s with stream := { s.stream with synMagn := M, synFreq := Q } } ∧
    (∀ (k : Nat) (m f : Sys2Proof.Num), s.stream.anaMagn[k]? = some m → s.stream.anaFreq[k]? = some f →
      M[k]? = some (Config.NUM.add Config.NUM.zero m) ∧ Q[k]? = some (Config.NUM.mul f Config.NUM.one)) ∧
    (∀ k : Nat, s.stream.H < k → k < s.stream.F → M[k]? = some Config.NUM.zero ∧ Q[k]? = some Config.NUM.zero)

/-- 44 R192: over the real numbers the phase increment of a bin is the phase a sinusoid of its frequency advances in one hop. -/
def Obligations.RealPhaseIncrementIsOneHop : Prop :=
  ∀ (st : Stream ℝ) (k : Nat) (f : ℝ), 0 < st.F → st.S * st.O = st.F → 0 < st.SR →
    st.FPB = numReal.div st.SR (numReal.num st.F) →
    st.EXPCT = numReal.div (numReal.mul numReal.twoPi (numReal.num st.S)) (numReal.num st.F) →
    phaseIncrement numReal st k f = 2 * Real.pi * (f / st.FPB - k) / st.O + 2 * Real.pi * k / st.O ∧
    phaseIncrement numReal st k f = 2 * Real.pi * f / (st.O * st.FPB) ∧
    phaseIncrement numReal st k f = 2 * Real.pi * f * st.S / st.SR

/-- 44 R199: over the real numbers, with `P = 1`, if `sumPhase ≡ lastPhase (mod 2π)` before a frame then it is so after it, and
the regenerated pair of every bin `0 … H` is twice the analysed pair. -/
def Obligations.UnitPitchKeepsPhaseIdentity : Prop :=
  ∀ st : Stream ℝ, Running st → st.FPB ≠ 0 → st.P = 1 →
    (∀ k ≤ st.H, ∃ z : ℤ, memRead numReal st.sumPhase k - memRead numReal st.lastPhase k = 2 * Real.pi * z) →
    ∃ st1 st2 st3, analyzeStream numReal st = .ok st1 ∧ remapStream numReal st1 = .ok st2 ∧
      synthStream numReal st2 = .ok st3 ∧
      ∀ k ≤ st.H,
        (∃ z : ℤ, memRead numReal st3.sumPhase k - memRead numReal st3.lastPhase k = 2 * Real.pi * z) ∧
        complexRead numReal st3.spectrum k =
          (2 * (complexRead numReal st.spectrum k).1, 2 * (complexRead numReal st.spectrum k).2)

/-- 45 R217: over the real numbers, with `P = 1`, what one whole frame adds to the accumulator at position `p` is
`(2·w(p)/(H·O))·(F·w(p)·u[p] + X0 + (−1)^p·XH)`; the first `S` sums are drained, the others move down by `S`. -/
def Obligations.UnitPitchFrameClosedForm : Prop :=
  ∀ st : Stream ℝ, Running st → st.FPB ≠ 0 → st.P = 1 →
    (∀ k ≤ st.H, ∃ z : ℤ, memRead numReal st.sumPhase k - memRead numReal st.lastPhase k = 2 * Real.pi * z) →
    let w := hann numReal st.F
    let u := memRead numReal st.inputFIFO
    let X0 := ∑ q ∈ Finset.range st.F, w q * u q
    let XH := ∑ q ∈ Finset.range st.F, (-1) ^ q * (w q * u q)
    let acc := fun p => memRead numReal st.outputAccumulator p +
      2 * w p / ((st.H * st.O : ℕ) : ℝ) * (st.F * w p * u p + X0 + (-1) ^ p * XH)
    ∃ st', frameStream numReal st = .ok st' ∧
      (∀ k < st.S, memRead numReal st'.outputFIFO k = acc k) ∧
      (∀ k : Nat, k + st.S < st.F → memRead numReal st'.outputAccumulator k = acc (k + st.S)) ∧
      (∀ k ≤ st.H, ∃ z : ℤ, memRead numReal st'.sumPhase k - memRead numReal st'.lastPhase k = 2 * Real.pi * z)

/-! ## Streams -/

/-- 95_test_vectors.md T1 for every length and every configuration, in every instance that keeps zero exactly: a silent input
gives a silent output, and the FIFOs, the accumulator and the phase trackers of the analysis stay zero. -/
def Obligations.SilenceStaysSilent : Prop :=
  ∀ (α : Type) (N : NumInst α) (n m c : Nat) (p sr : α) (old : Stream α),
    ExactZero N.toNumOps → N.decode 0x00000000 = N.zero → 1 ≤ n → n ≤ 12 → m ≤ n →
    ∃ st, blockStream N (List.replicate c 0x00000000) (startStream N.toNumOps (2 ^ n) (2 ^ m) p sr old) =
        .ok (st, List.replicate c (N.encode N.zero)) ∧
      (∀ x ∈ st.inputFIFO, x = N.zero) ∧ (∀ x ∈ st.outputFIFO, x = N.zero) ∧
      (∀ x ∈ st.outputAccumulator, x = N.zero) ∧ (∀ x ∈ st.lastPhase, x = N.zero)

/-- 40 R132, first clause: the first `S` output samples of a stream are `ZERO` whatever the input. -/
def Obligations.FirstHopIsZero : Prop :=
  ∀ (s t : State) (xs : List Word), s.mode = .config → exec .start s = .next t → t.mode = .run →
    ∃ (u : State) (ys : List Word), exec (.block xs) t = .next u ∧
      u.rsp = t.rsp ++ ((0x0600 : BitVec 16) ++ BitVec.ofNat 16 xs.length) :: ys ∧ ys.length = xs.length ∧
      ∀ i < xs.length, i < t.stream.S → ys[i]? = some (Config.NUM.encode Config.NUM.zero)

/-- 40 R127: after `i` samples `rover = L + (i mod S)`, and below the cursor the input FIFO holds the latest samples in order,
`ZERO` for those before the first: element `p` is sample `⌊i/S⌋·S − L + p`. -/
def Obligations.CursorAndWindowSchedule : Prop :=
  ∀ (s t : State) (xs : List Word), s.mode = .config → exec .start s = .next t → t.mode = .run →
    ∃ u : State, exec (.block xs) t = .next u ∧
      u.stream.rover.toNat = t.stream.L + xs.length % t.stream.S ∧
      ∀ p < t.stream.L + xs.length % t.stream.S,
        u.stream.inputFIFO[p]? = some
          (if xs.length / t.stream.S * t.stream.S + p < t.stream.L then Config.NUM.zero
           else Config.NUM.decode (xs.getD (xs.length / t.stream.S * t.stream.S + p - t.stream.L) 0))

/-- 40 R131: output `y[i]` of a stream is a function of `x[0 … ⌊i/S⌋·S − 1]` only. -/
def Obligations.OutputDependsOnEarlierHops : Prop :=
  ∀ (s t : State) (xs xs' : List Word) (i : Nat), s.mode = .config → exec .start s = .next t → t.mode = .run →
    i < xs.length → i < xs'.length →
    xs.take (i / t.stream.S * t.stream.S) = xs'.take (i / t.stream.S * t.stream.S) →
    ∃ (u u' : State) (ys ys' : List Word) (y : Word), exec (.block xs) t = .next u ∧ exec (.block xs') t = .next u' ∧
      u.rsp = t.rsp ++ ((0x0600 : BitVec 16) ++ BitVec.ofNat 16 xs.length) :: ys ∧
      u'.rsp = t.rsp ++ ((0x0600 : BitVec 16) ++ BitVec.ofNat 16 xs'.length) :: ys' ∧
      ys[i]? = some y ∧ ys'[i]? = some y

/-! ## Encoding -/

/-- 30_encoding.md R91 to R95, R105: decoding the encoding of a well-formed instruction gives it back, and a command's
words are taken from the head of the stream and no word more. -/
def Obligations.DecodeInvertsEncode : Prop :=
  ∀ i : Instr, WellFormed i = true →
    decodeEncoding (encode i) = some i ∧
    ∀ ws rest : List Word, encode i = .words ws → decodeCommand (ws ++ rest) = .instr i rest

/-- 30 R93: every row of the opcode map, by its match and its mask; the immediate is the register number or the count. -/
def Obligations.OpcodeMapByMatchAndMask : Prop :=
  ∀ w : Word,
    (decodeHeader w = some .nop ↔ w &&& 0xFFFFFFFF = 0x00000000) ∧
    (decodeHeader w = some .reset ↔ w &&& 0xFFFFFFFF = 0x01000000) ∧
    (∀ r : RegNum, decodeHeader w = some (.wrcfg r) ↔ w &&& 0xFFFF0000 = 0x02000000 ∧ w &&& 0x0000FFFF = r.setWidth 32) ∧
    (∀ r : RegNum, decodeHeader w = some (.rdcfg r) ↔ w &&& 0xFFFF0000 = 0x03000000 ∧ w &&& 0x0000FFFF = r.setWidth 32) ∧
    (decodeHeader w = some .start ↔ w &&& 0xFFFFFFFF = 0x04000000) ∧
    (decodeHeader w = some .push ↔ w &&& 0xFFFFFFFF = 0x05000000) ∧
    (∀ c : BitVec 16, decodeHeader w = some (.block c) ↔ w &&& 0xFFFF0000 = 0x06000000 ∧ w &&& 0x0000FFFF = c.setWidth 32) ∧
    (decodeHeader w = some .clrerr ↔ w &&& 0xFFFFFFFF = 0x07000000)

/-- 30 R102 and 60_exceptions.md R251: the legal words are exactly the listed ones; every other word is answered with
`ILLEGAL_CMD`, in either mode, takes no operand word and has no other effect. -/
def Obligations.IllegalWordsAreRefused : Prop :=
  (∀ w : Word, (decodeHeader w).isSome = true ↔
    w = 0x00000000 ∨ w = 0x01000000 ∨ w = 0x04000000 ∨ w = 0x05000000 ∨ w = 0x07000000 ∨
    ∃ r : BitVec 16, w = (0x0200 : BitVec 16) ++ r ∨ w = (0x0300 : BitVec 16) ++ r ∨ w = (0x0600 : BitVec 16) ++ r) ∧
  (∀ (s : State) (w : Word) (rest : List HostInput), s.uop = 0 → s.cmd = .word w :: rest → decodeHeader w = none →
    step s = .next (refused (w.extractLsb' 24 8) 0x01 { s with cmd := rest }))

/-- 30 R94: the number of operand words is a function of the command word alone, and a whole command is `1 + nops(w)` words. -/
def Obligations.OperandCountByWordAlone : Prop :=
  ∀ (w : Word) (ws : List Word),
    nops w = (match decodeHeader w with
      | none => 0
      | some (.wrcfg _) => 1
      | some .push => 1
      | some (.block _) => (w.extractLsb' 0 16).toNat
      | some _ => 0) ∧
    (decodeHeader w = none → decodeCommand (w :: ws) = .illegal w ws) ∧
    (decodeHeader w ≠ none → ws.length < nops w → decodeCommand (w :: ws) = .incomplete) ∧
    (decodeHeader w ≠ none → nops w ≤ ws.length → ∃ i, decodeCommand (w :: ws) = .instr i (ws.drop (nops w)))

/-- Words written out from the encoding tables (30 R93, R105; the examples of 46 and 60) decode to the instruction they stand for. -/
def Obligations.WrittenWordsDecode : Prop :=
  decodeEncoding (.words [0x00000000]) = some .nop ∧
  decodeEncoding (.words [0x01000000]) = some .reset ∧
  decodeEncoding (.words [0x02000001, 0x00000400]) = some (.wrcfg 0x0001 1024) ∧
  decodeEncoding (.words [0x02000004, 0x472C4400]) = some (.wrcfg 0x0004 0x472C4400) ∧
  decodeEncoding (.words [0x03000005]) = some (.rdcfg 0x0005) ∧
  decodeEncoding (.words [0x04000000]) = some .start ∧
  decodeEncoding (.words [0x05000000, 0x3F000000]) = some (.push 0x3F000000) ∧
  decodeEncoding (.words [0x06000002, 0x3F000000, 0xBE800000]) = some (.block [0x3F000000, 0xBE800000]) ∧
  decodeEncoding (.words [0x07000000]) = some .clrerr ∧
  decodeEncoding (.code 0x2) = some .uFftFwd ∧ decodeEncoding (.code 0x7) = some .uFftInv ∧
  decodeEncoding (.code 0xB) = some .uInShift ∧ decodeEncoding (.code 0xC) = none

/-! ## The step -/

/-- 30 R90, R94: with the sequencer idle and the words of a well-formed command at the head of the command stream, a step takes
exactly those words and runs the command. -/
def Obligations.StepRunsDecodedCommand : Prop :=
  ∀ (s : State) (i : Instr) (ws : List Word) (rest : List HostInput), s.uop = 0 → WellFormed i = true →
    encode i = .words ws → s.cmd = ws.map HostInput.word ++ rest → step s = exec i { s with cmd := rest }

/-- 30 R105 with 40 R126: while the sequencer's code names a micro-operation a step runs it, the code moving on to the next of the
list and to `U.IDLE` after the last; codes 0xC to 0xF fault. That a step can run one micro-operation is the model's choice (log
entries 7, 9). -/
def Obligations.StepRunsMicroOperation : Prop :=
  ∀ s : State,
    (∀ i : Instr, s.uop ≠ 0 → decodeMicro s.uop = some i →
      step s = exec i { s with uop := if s.uop = 0xB then 0 else s.uop + 1 }) ∧
    (0xC ≤ s.uop.toNat → step s = .fault .undefinedMicroOp)

/-- The model's choice (log entry 10) for 70_reset_and_hazards.md R297: with nothing sent, or with a command whose operand words
are not all there, a step leaves the state as it is. -/
def Obligations.StepWaitsForWords : Prop :=
  (∀ s : State, s.uop = 0 → s.cmd = [] → step s = .next s) ∧
  (∀ (s : State) (w : Word) (ws : List Word), s.uop = 0 → s.cmd = (w :: ws).map HostInput.word → ws.length < nops w →
    step s = .next s)

/-- 70 R280 and R282: an assertion of `rst`, between commands or after only some of a command's words, takes the reset state with
no answer; the words of the cut command are gone. (That `rst` is an input in the stream's order is the model's choice, log entry 11.) -/
def Obligations.StepTakesHardwareReset : Prop :=
  (∀ (s : State) (rest : List HostInput), s.uop = 0 → s.cmd = .rst :: rest →
    step s = .next { State.reset with cmd := rest, rsp := s.rsp }) ∧
  (∀ (s : State) (w : Word) (ws : List Word) (rest : List HostInput), s.uop = 0 → ws.length < nops w →
    s.cmd = (w :: ws).map HostInput.word ++ .rst :: rest →
    step s = .next { State.reset with cmd := rest, rsp := s.rsp })

/-- 40 R126: stepping the eleven micro-operations one by one does what a frame does at once (log entry 7). -/
def Obligations.MicroSteppedFrameIsTheFrame : Prop :=
  ∀ s : State, s.uop = 1 → Running s.stream →
    ∃ st, frameStream Config.NUM.toNumOps s.stream = .ok st ∧
      Host.Core.run Sys2Proof.core 11 s = .next { s with uop := 0, stream := st } ∧
      runAll frameInstrs s = .next { s with stream := st }

/-! ## The whole machine -/

/-- The reset state has the invariant (10_state.md R44, R28, R29). -/
def Obligations.ResetHasInvariant : Prop := Invariant State.reset

/-- Every step keeps the invariant: legal micro-operation code, a legal error record, no stream in CONFIG mode, and in RUN mode
a running stream of the configuration in the registers (00_scope.md R11, 10_state.md R28, R29, R38, R21, 45_overlap_add.md R214, R215). -/
def Obligations.StepKeepsInvariant : Prop :=
  ∀ s t : State, Invariant s → step s = .next t → Invariant t

/-- From a state with the invariant every step completes: no access is out of range and nothing stops the block
(20_memory.md R65, 60_exceptions.md R263, 40 R136). -/
def Obligations.InvariantStepsComplete : Prop :=
  ∀ s : State, Invariant s → ∃ t, step s = .next t

/-- 10_state.md R28, 46 R235: only an accepted `START` enters RUN mode and only `RESET` leaves it. -/
def Obligations.ModeChangesOnlyByStartAndReset : Prop :=
  ∀ (i : Instr) (s t : State), exec i s = .next t →
    (s.mode = .config → t.mode = .run → i = .start) ∧ (s.mode = .run → t.mode = .config → i = .reset)

/-- 30 R99: every command, legal or not, appends exactly one response, whose header echoes the top byte of the command word,
carries the status, and counts the data words; a refusal has none, a success as many as its class says. -/
def Obligations.OneResponsePerCommand : Prop :=
  (∀ (i : Instr) (s t : State) (w : Word) (ops : List Word), WellFormed i = true → encode i = .words (w :: ops) →
    exec i s = .next t → ∃ (status : BitVec 8) (data : List Word),
      t.rsp = s.rsp ++ (w.extractLsb' 24 8 ++ status ++ BitVec.ofNat 16 data.length) :: data ∧
      data.length < 2 ^ 16 ∧
      (status ≠ 0 → data = []) ∧
      (status = 0 → data.length = match i with
        | .rdcfg _ => 1
        | .push _ => 1
        | .block xs => xs.length
        | _ => 0)) ∧
  (∀ (s : State) (w : Word) (rest : List HostInput), s.uop = 0 → s.cmd = .word w :: rest → decodeHeader w = none →
    ∃ t, step s = .next t ∧ t.rsp = s.rsp ++ [w.extractLsb' 24 8 ++ (0x01 : BitVec 8) ++ (0x0000 : BitVec 16)])

/-- 10_state.md R29, R38, R42: a micro-operation writes no flag, no register, no latched value and not the cursor; it answers nothing. -/
def Obligations.MicroOperationsTouchOnlyArrays : Prop :=
  ∀ (i : Instr) (c : MicroCode) (s t : State), encode i = .code c → exec i s = .next t →
    t = { s with stream := t.stream } ∧
    t.stream = { s.stream with
      inputFIFO := t.stream.inputFIFO
      outputFIFO := t.stream.outputFIFO
      outputAccumulator := t.stream.outputAccumulator
      spectrum := t.stream.spectrum
      lastPhase := t.stream.lastPhase
      sumPhase := t.stream.sumPhase
      anaMagn := t.stream.anaMagn
      anaFreq := t.stream.anaFreq
      synMagn := t.stream.synMagn
      synFreq := t.stream.synFreq }

/-- 10_state.md R28, R38: while the block stays in RUN mode the registers and the latched configuration do not change. -/
def Obligations.ConfigurationLockedInRun : Prop :=
  ∀ s t : State, s.mode = .run → step s = .next t → t.mode = .run →
    t.frame = s.frame ∧ t.osamp = s.osamp ∧ t.pitch = s.pitch ∧ t.rate = s.rate ∧
    t.stream.F = s.stream.F ∧ t.stream.O = s.stream.O ∧ t.stream.S = s.stream.S ∧ t.stream.L = s.stream.L ∧
    t.stream.H = s.stream.H ∧ t.stream.n = s.stream.n ∧ t.stream.P = s.stream.P ∧ t.stream.SR = s.stream.SR ∧
    t.stream.FPB = s.stream.FPB ∧ t.stream.EXPCT = s.stream.EXPCT

/-- 10_state.md R29: the error record never changes what a command does; only `RDCFG STATUS` shows it. -/
def Obligations.ErrorRecordChangesNoCommand : Prop :=
  ∀ (i : Instr) (s : State) (err : Bool) (errcode : BitVec 8), i ≠ .rdcfg 0x0000 →
    match exec i s with
    | .next t => ∃ (err' : Bool) (errcode' : BitVec 8),
        exec i { s with err := err, errcode := errcode } = .next { t with err := err', errcode := errcode' }
    | .fault e => exec i { s with err := err, errcode := errcode } = .fault e
    | .refused r => exec i { s with err := err, errcode := errcode } = .refused r

/-- 60 R256: an instruction other than `RESET` and `CLRERR` either answers nothing or a response with status 0 and leaves the error
record as it is, or answers a refusal, whose code is then recorded if the record was free and not if it was set. -/
def Obligations.FirstErrorWins : Prop :=
  ∀ (i : Instr) (s t : State), i ≠ .reset → i ≠ .clrerr → exec i s = .next t →
    ((t.rsp = s.rsp ∨ ∃ (op : BitVec 8) (data : List Word),
        t.rsp = s.rsp ++ (op ++ (0x00 : BitVec 8) ++ BitVec.ofNat 16 data.length) :: data) ∧
      t.err = s.err ∧ t.errcode = s.errcode) ∨
    (∃ op code : BitVec 8, code ≠ 0 ∧ t.rsp = s.rsp ++ [op ++ code ++ (0x0000 : BitVec 16)] ∧
      t.err = true ∧ t.errcode = if s.err then s.errcode else code)

/-- 30 R107: the `BLOCK`s of `PROCESS` carry the input in order, at most 65535 samples each, and there is none for an empty input.
R107 leaves open where the samples are cut: that no `BLOCK` of the expansion is empty (`ys ≠ []`) is the model's choice (log entry 26,
DESIGN CHOICE). -/
def Obligations.ProcessBlocksCarryTheInput : Prop :=
  (∀ xs : List Word, (∀ i ∈ blocks xs.length xs, WellFormed i = true ∧ ∃ ys, i = .block ys ∧ ys ≠ []) ∧
    (blocks xs.length xs).flatMap (fun i => match i with
      | .block ys => ys
      | _ => []) = xs) ∧
  blocks 0 [] = []

/-- 70 R284, 46 R236: from reset, `CONFIGURE` with a valid configuration is answered `OK` five times and leaves a running
stream of exactly that configuration. -/
def Obligations.ConfigureFromResetStartsStream : Prop :=
  ∀ (p f o sr : Word) (n : Nat), 1 ≤ n → n ≤ 12 → f.toNat = 2 ^ n → o.toNat ∣ 2 ^ n →
    Config.NUM.isFinite (Config.NUM.decode p) = true → Config.NUM.lt (Config.NUM.decode p) Config.NUM.half = false →
    Config.NUM.lt Config.NUM.two (Config.NUM.decode p) = false →
    Config.NUM.isFinite (Config.NUM.decode sr) = true → Config.NUM.le (Config.NUM.decode sr) Config.NUM.zero = false →
    ∃ t, runAll (configure p f o sr) State.reset = .next t ∧ t.mode = .run ∧ t.err = false ∧
      t.frame = f ∧ t.osamp = o ∧ t.pitch = p ∧ t.rate = sr ∧
      t.rsp = [0x02000000, 0x02000000, 0x02000000, 0x02000000, 0x04000000] ∧
      Running t.stream ∧ LatchedFrom t

/-! ## The reference arithmetic -/

/-- 00_scope.md R12 to R14: the reference instance `NUM_REAL`, on which nothing overflows, obeys the four laws, the floor
guard of 93_implementation_defined.md U2 and the default binding of bus words, decoding and encoding. (What it makes of the words that are no numbers is open,
log entry 22, and no clause names it.) -/
def Obligations.ReferenceInstanceMeetsLaws : Prop :=
  NumLaws numRealWords (fun _ _ _ => false) ∧ FloorGuard numRealWords.toNumOps ∧ DefaultBinding numRealWords
end

