-- ==== Sys2Proof/Laws/State.lean ====
section
/-!
SUPPORT. One lemma per field of `State` for each named update (true by unfolding the update once), tagged for simp, so that
no later proof unfolds a record update.
-/

namespace Sys2Proof.Machine

@[simp] theorem respond_mode (op : BitVec 8) (data : List Word) (s : State) : (respond op data s).mode = s.mode := rfl
@[simp] theorem respond_err (op : BitVec 8) (data : List Word) (s : State) : (respond op data s).err = s.err := rfl
@[simp] theorem respond_errcode (op : BitVec 8) (data : List Word) (s : State) : (respond op data s).errcode = s.errcode := rfl
@[simp] theorem respond_frame (op : BitVec 8) (data : List Word) (s : State) : (respond op data s).frame = s.frame := rfl
@[simp] theorem respond_osamp (op : BitVec 8) (data : List Word) (s : State) : (respond op data s).osamp = s.osamp := rfl
@[simp] theorem respond_pitch (op : BitVec 8) (data : List Word) (s : State) : (respond op data s).pitch = s.pitch := rfl
@[simp] theorem respond_rate (op : BitVec 8) (data : List Word) (s : State) : (respond op data s).rate = s.rate := rfl
@[simp] theorem respond_stream (op : BitVec 8) (data : List Word) (s : State) : (respond op data s).stream = s.stream := rfl
@[simp] theorem respond_uop (op : BitVec 8) (data : List Word) (s : State) : (respond op data s).uop = s.uop := rfl
@[simp] theorem respond_cmd (op : BitVec 8) (data : List Word) (s : State) : (respond op data s).cmd = s.cmd := rfl
@[simp] theorem respond_rsp (op : BitVec 8) (data : List Word) (s : State) :
    (respond op data s).rsp = s.rsp ++ responseHeader op 0x00 data.length :: data := rfl

@[simp] theorem recordError_mode (c : Status) (s : State) : (recordError c s).mode = s.mode := by
  unfold recordError; split <;> rfl
@[simp] theorem recordError_frame (c : Status) (s : State) : (recordError c s).frame = s.frame := by
  unfold recordError; split <;> rfl
@[simp] theorem recordError_osamp (c : Status) (s : State) : (recordError c s).osamp = s.osamp := by
  unfold recordError; split <;> rfl
@[simp] theorem recordError_pitch (c : Status) (s : State) : (recordError c s).pitch = s.pitch := by
  unfold recordError; split <;> rfl
@[simp] theorem recordError_rate (c : Status) (s : State) : (recordError c s).rate = s.rate := by
  unfold recordError; split <;> rfl
@[simp] theorem recordError_stream (c : Status) (s : State) : (recordError c s).stream = s.stream := by
  unfold recordError; split <;> rfl
@[simp] theorem recordError_uop (c : Status) (s : State) : (recordError c s).uop = s.uop := by
  unfold recordError; split <;> rfl
@[simp] theorem recordError_cmd (c : Status) (s : State) : (recordError c s).cmd = s.cmd := by
  unfold recordError; split <;> rfl
@[simp] theorem recordError_rsp (c : Status) (s : State) : (recordError c s).rsp = s.rsp := by
  unfold recordError; split <;> rfl
@[simp] theorem recordError_err (c : Status) (s : State) : (recordError c s).err = true := by
  unfold recordError; split <;> simp_all
@[simp] theorem recordError_errcode (c : Status) (s : State) :
    (recordError c s).errcode = if s.err then s.errcode else statusCode c := by
  unfold recordError; split <;> simp_all

@[simp] theorem refuse_mode (op : BitVec 8) (c : Status) (s : State) : (refuse op c s).mode = s.mode := by
  simp [refuse]
@[simp] theorem refuse_frame (op : BitVec 8) (c : Status) (s : State) : (refuse op c s).frame = s.frame := by
  simp [refuse]
@[simp] theorem refuse_osamp (op : BitVec 8) (c : Status) (s : State) : (refuse op c s).osamp = s.osamp := by
  simp [refuse]
@[simp] theorem refuse_pitch (op : BitVec 8) (c : Status) (s : State) : (refuse op c s).pitch = s.pitch := by
  simp [refuse]
@[simp] theorem refuse_rate (op : BitVec 8) (c : Status) (s : State) : (refuse op c s).rate = s.rate := by
  simp [refuse]
@[simp] theorem refuse_stream (op : BitVec 8) (c : Status) (s : State) : (refuse op c s).stream = s.stream := by
  simp [refuse]
@[simp] theorem refuse_uop (op : BitVec 8) (c : Status) (s : State) : (refuse op c s).uop = s.uop := by
  simp [refuse]
@[simp] theorem refuse_cmd (op : BitVec 8) (c : Status) (s : State) : (refuse op c s).cmd = s.cmd := by
  simp [refuse]
@[simp] theorem refuse_err (op : BitVec 8) (c : Status) (s : State) : (refuse op c s).err = true := by
  simp [refuse]
@[simp] theorem refuse_errcode (op : BitVec 8) (c : Status) (s : State) :
    (refuse op c s).errcode = if s.err then s.errcode else statusCode c := by
  simp [refuse]
@[simp] theorem refuse_rsp (op : BitVec 8) (c : Status) (s : State) :
    (refuse op c s).rsp = s.rsp ++ [responseHeader op (statusCode c) 0] := rfl

@[simp] theorem clearError_mode (s : State) : (clearError s).mode = s.mode := rfl
@[simp] theorem clearError_frame (s : State) : (clearError s).frame = s.frame := rfl
@[simp] theorem clearError_osamp (s : State) : (clearError s).osamp = s.osamp := rfl
@[simp] theorem clearError_pitch (s : State) : (clearError s).pitch = s.pitch := rfl
@[simp] theorem clearError_rate (s : State) : (clearError s).rate = s.rate := rfl
@[simp] theorem clearError_stream (s : State) : (clearError s).stream = s.stream := rfl
@[simp] theorem clearError_uop (s : State) : (clearError s).uop = s.uop := rfl
@[simp] theorem clearError_cmd (s : State) : (clearError s).cmd = s.cmd := rfl
@[simp] theorem clearError_rsp (s : State) : (clearError s).rsp = s.rsp := rfl
@[simp] theorem clearError_err (s : State) : (clearError s).err = false := rfl
@[simp] theorem clearError_errcode (s : State) : (clearError s).errcode = 0 := rfl

@[simp] theorem resetTransition_mode (s : State) : (resetTransition s).mode = State.reset.mode := rfl
@[simp] theorem resetTransition_err (s : State) : (resetTransition s).err = State.reset.err := rfl
@[simp] theorem resetTransition_errcode (s : State) : (resetTransition s).errcode = State.reset.errcode := rfl
@[simp] theorem resetTransition_frame (s : State) : (resetTransition s).frame = State.reset.frame := rfl
@[simp] theorem resetTransition_osamp (s : State) : (resetTransition s).osamp = State.reset.osamp := rfl
@[simp] theorem resetTransition_pitch (s : State) : (resetTransition s).pitch = State.reset.pitch := rfl
@[simp] theorem resetTransition_rate (s : State) : (resetTransition s).rate = State.reset.rate := rfl
@[simp] theorem resetTransition_stream (s : State) : (resetTransition s).stream = State.reset.stream := rfl
@[simp] theorem resetTransition_uop (s : State) : (resetTransition s).uop = State.reset.uop := rfl
@[simp] theorem resetTransition_cmd (s : State) : (resetTransition s).cmd = s.cmd := rfl
@[simp] theorem resetTransition_rsp (s : State) : (resetTransition s).rsp = s.rsp := rfl

end Sys2Proof.Machine
end

