-- ==== Sys2Proof/Laws/Ops.lean ====
section
/-!
SUPPORT. What each shared operation can do: the loop, the array memories, the refusal, and the two wrappers. Later proofs
cite these instead of unfolding the operations.
-/

namespace Sys2Proof.Machine

variable {α β : Type}

/-! The loop. -/

@[simp] theorem loop_zero (body : Nat → β → β) (b : β) : loop 0 body b = b := rfl

@[simp] theorem loop_succ (n : Nat) (body : Nat → β → β) (b : β) :
    loop (n + 1) body b = body n (loop n body b) := rfl

/-- A property each round keeps is kept by the loop; `k` is the number of rounds done. -/
theorem loop_induct (P : Nat → β → Prop) {n : Nat} {body : Nat → β → β} {b : β} (h0 : P 0 b)
    (hs : ∀ k b, k < n → P k b → P (k + 1) (body k b)) : P n (loop n body b) := by
  induction n with
  | zero => exact h0
  | succ n ih => exact hs n _ (Nat.lt_succ_self n) (ih fun k b hk => hs k b (Nat.lt_succ_of_lt hk))

/-- Rounds that agree on their indices make the same loop. -/
theorem loop_congr {n : Nat} {f g : Nat → β → β} (h : ∀ k b, k < n → f k b = g k b) (b : β) :
    loop n f b = loop n g b := by
  induction n with
  | zero => rfl
  | succ n ih =>
    rw [loop_succ, loop_succ, ih fun k b hk => h k b (Nat.lt_succ_of_lt hk), h n _ (Nat.lt_succ_self n)]

/-- A loop whose rounds keep the length of an array keeps it. -/
theorem loop_length {n : Nat} {body : Nat → List α → List α} (A : List α)
    (h : ∀ k B, (body k B).length = B.length) : (loop n body A).length = A.length :=
  loop_induct (fun _ B => B.length = A.length) rfl fun k B _ hB => (h k B).trans hB

/-! The array memories. -/

@[simp] theorem memWrite_length (A : List α) (i : Nat) (v : α) : (memWrite A i v).length = A.length :=
  List.length_set

/-- A read after a write to the same element gives the value written. -/
@[simp] theorem memRead_memWrite_same (N : NumOps α) (A : List α) (i : Nat) (v : α) (h : i < A.length) :
    memRead N (memWrite A i v) i = v := by
  simp [memRead, memWrite, h]

/-- A write leaves every other element alone. -/
theorem memRead_memWrite_other (N : NumOps α) (A : List α) {i j : Nat} (v : α) (h : i ≠ j) :
    memRead N (memWrite A i v) j = memRead N A j := by
  simp [memRead, memWrite, h]

/-- What a write changes, in one formula. -/
theorem memRead_memWrite (N : NumOps α) (A : List α) (i j : Nat) (v : α) (h : i < A.length) :
    memRead N (memWrite A i v) j = if i = j then v else memRead N A j := by
  split
  · next e => subst e; exact memRead_memWrite_same N A i v h
  · next e => exact memRead_memWrite_other N A v e

/-- Two arrays of one length that read alike at every element are equal. -/
theorem eq_of_memRead (N : NumOps α) {A B : List α} (hl : A.length = B.length)
    (h : ∀ k < A.length, memRead N A k = memRead N B k) : A = B := by
  apply List.ext_getElem hl
  intro k h1 h2
  simpa [memRead, List.getElem?_eq_getElem h1, List.getElem?_eq_getElem h2] using h k h1

/-- An element inside the array, read through the memory operation. -/
theorem getElem?_eq_memRead (N : NumOps α) (A : List α) {k : Nat} (h : k < A.length) :
    A[k]? = some (memRead N A k) := by
  simp [memRead, List.getElem?_eq_getElem h]

/-- Every write keeps an array memory's form. -/
theorem memWrite_wf (len : Nat) (A : List α) (i : Nat) (v : α) (h : Memory.wf len A = true) :
    Memory.wf len (memWrite A i v) = true := by
  cases A with
  | nil => simp [memWrite, Memory.wf]
  | cons a A =>
    have hl : (a :: A).length = len := by simpa [Memory.wf] using h
    simp [Memory.wf, hl]

/-- An array of its logical length is in form. -/
theorem wf_of_length {len : Nat} {A : List α} (h : A.length = len) : Memory.wf len A = true := by
  simp [Memory.wf, h]

/-- Every array memory after reset is in form: it holds no value. -/
theorem reset_memory_wf (len : Nat) :
    Memory.wf len State.reset.stream.inputFIFO = true ∧ Memory.wf len State.reset.stream.outputFIFO = true ∧
    Memory.wf len State.reset.stream.outputAccumulator = true ∧ Memory.wf len State.reset.stream.spectrum = true ∧
    Memory.wf len State.reset.stream.lastPhase = true ∧ Memory.wf len State.reset.stream.sumPhase = true ∧
    Memory.wf len State.reset.stream.anaMagn = true ∧ Memory.wf len State.reset.stream.anaFreq = true ∧
    Memory.wf len State.reset.stream.synMagn = true ∧ Memory.wf len State.reset.stream.synFreq = true :=
  ⟨rfl, rfl, rfl, rfl, rfl, rfl, rfl, rfl, rfl, rfl⟩

@[simp] theorem complexWrite_length (X : List α) (k : Nat) (v : α × α) :
    (complexWrite X k v).length = X.length := by
  simp [complexWrite]

/-- A complex read after a complex write to the same element. -/
theorem complexRead_complexWrite_same (N : NumOps α) (X : List α) (k : Nat) (v : α × α)
    (h : 2 * k + 1 < X.length) : complexRead N (complexWrite X k v) k = v := by
  have h1 : 2 * k < (memWrite X (2 * k) v.1).length := by simp; omega
  unfold complexRead complexWrite
  rw [memRead_memWrite_other N _ _ (by omega), memRead_memWrite_same _ _ _ _ (by omega),
    memRead_memWrite_same _ _ _ _ (by simpa using h)]

/-- A complex write leaves every other complex element alone. -/
theorem complexRead_complexWrite_other (N : NumOps α) (X : List α) {i j : Nat} (v : α × α) (h : i ≠ j) :
    complexRead N (complexWrite X i v) j = complexRead N X j := by
  unfold complexRead complexWrite
  rw [memRead_memWrite_other N _ _ (by omega), memRead_memWrite_other N _ _ (by omega),
    memRead_memWrite_other N _ _ (by omega), memRead_memWrite_other N _ _ (by omega)]

/-- What a loop that writes element `base + k` in round `k` leaves, when a round reads nothing an earlier one wrote. -/
theorem memRead_loop_write (N : NumOps α) (A : List α) (base n : Nat) (v : Nat → α) (h : base + n ≤ A.length) (j : Nat) :
    memRead N (loop n (fun k B => memWrite B (base + k) (v k)) A) j =
      if base ≤ j ∧ j < base + n then v (j - base) else memRead N A j := by
  induction n with
  | zero => simp
  | succ n ih =>
    have hl : (loop n (fun k B => memWrite B (base + k) (v k)) A).length = A.length := loop_length A fun _ _ => by simp
    rw [loop_succ, memRead_memWrite _ _ _ _ _ (by omega), ih (by omega)]
    by_cases e : base + n = j
    · subst e; simp
    · rw [if_neg e]
      by_cases c : base ≤ j ∧ j < base + n
      · rw [if_pos c, if_pos (by omega)]
      · rw [if_neg c, if_neg (by omega)]

@[simp] theorem shiftDown_length (N : NumOps α) (cnt hop : Nat) (A : List α) :
    (shiftDown N cnt hop A).length = A.length := loop_length A fun _ _ => by simp

/-- The block move of a shift: the elements below `cnt` come from `hop` higher up, the others stay (70 R294). -/
theorem memRead_shiftDown (N : NumOps α) (cnt hop : Nat) (A : List α) (h : cnt ≤ A.length) (j : Nat) :
    memRead N (shiftDown N cnt hop A) j = if j < cnt then memRead N A (j + hop) else memRead N A j := by
  unfold shiftDown
  induction cnt generalizing j with
  | zero => simp
  | succ n ih =>
    have hl : (loop n (fun k A => memWrite A k (memRead N A (k + hop))) A).length = A.length :=
      loop_length A fun _ _ => by simp
    rw [loop_succ, memRead_memWrite _ _ _ _ _ (by omega), ih (by omega), ih (by omega)]
    by_cases e : n = j
    · subst e; simp
    · rw [if_neg e]
      by_cases c : j < n
      · rw [if_pos c, if_pos (by omega)]
      · rw [if_neg c, if_neg (by omega)]

/-! The wrappers. -/

theorem ifElements_eq_ok {present : Bool} {x y : β} : ifElements present x = .ok y ↔ present = true ∧ x = y := by
  cases present <;> simp [ifElements]

@[simp] theorem ifElements_true (x : β) : ifElements true x = .ok x := rfl

/-- An operation on the Stream State answers a next state exactly when it succeeds, and changes nothing else. -/
theorem onStream_eq_next {f : Stream Num → Except Fault (Stream Num)} {s t : State} :
    onStream f s = .next t ↔ ∃ st, f s.stream = .ok st ∧ t = { s with stream := st } := by
  unfold onStream
  cases f s.stream with
  | ok st => simp [eq_comm]
  | error e => simp

theorem onStream_of_ok {f : Stream Num → Except Fault (Stream Num)} {s : State} {st : Stream Num}
    (h : f s.stream = .ok st) : onStream f s = .next { s with stream := st } := by
  simp [onStream, h]

/-- Everything a refusal does (60_exceptions.md R250, R256). -/
theorem refuse_spec (op : BitVec 8) (c : Status) (s : State) :
    refuse op c s = { s with
      err := true
      errcode := if s.err then s.errcode else statusCode c
      rsp := s.rsp ++ [responseHeader op (statusCode c) 0] } := by
  unfold refuse recordError
  cases s with
  | mk _ err => cases err <;> rfl

/-- Everything a response does (30_encoding.md R99). -/
theorem respond_spec (op : BitVec 8) (data : List Word) (s : State) :
    respond op data s = { s with rsp := s.rsp ++ responseHeader op 0x00 data.length :: data } := rfl

end Sys2Proof.Machine
end

