-- ==== Sys2Proof/Laws/Stream.lean ====
section
/-!
SUPPORT. What each micro-operation on the Stream State can do: when it succeeds and what it then answers; and that every array
operation keeps its array's length (20_memory.md R61).
-/

namespace Sys2Proof.Machine

variable {α : Type} (N : NumOps α)

/-! Lengths. -/

@[simp] theorem windowArray_length (F : Nat) (input : List α) : (windowArray N F input).length = 2 * F := by
  simp [windowArray, List.length_flatMap]; omega

@[simp] theorem swapComplex_length (X : List α) (i j : Nat) : (swapComplex N X i j).length = X.length := by
  simp [swapComplex]

@[simp] theorem bitrevPass_length (F n : Nat) (X : List α) : (bitrevPass N F n X).length = X.length :=
  loop_length X fun k B => by split <;> simp

@[simp] theorem butterfly_length (d : Nat) (u : α × α) (i : Nat) (X : List α) :
    (butterfly N d u i X).length = X.length := by
  simp [butterfly]

@[simp] theorem butterflies_length (F d j : Nat) (u : α × α) (X : List α) :
    (butterflies N F d j u X).length = X.length :=
  loop_length X fun k B => by simp

@[simp] theorem fftStage_length (dir : Dir) (F d : Nat) (X : List α) : (fftStage N dir F d X).length = X.length :=
  loop_induct (fun _ (Xu : List α × α × α) => Xu.1.length = X.length) rfl fun k b _ h => by simpa using h

@[simp] theorem fftArray_length (dir : Dir) (F n : Nat) (X : List α) : (fftArray N dir F n X).length = X.length := by
  unfold fftArray
  rw [loop_length _ fun k B => by simp, bitrevPass_length]

theorem scatter_length (H : Nat) (P : α) (am af : List α) (k : Nat) (syn : List α × List α) :
    (scatter N H P am af k syn).1.length = syn.1.length ∧ (scatter N H P am af k syn).2.length = syn.2.length := by
  unfold scatter
  by_cases h : targetKept H (remapTarget N P k) = true <;> simp [h]

theorem remapArrays_length (F H : Nat) (P : α) (am af : List α) :
    (remapArrays N F H P am af).1.length = F ∧ (remapArrays N F H P am af).2.length = F :=
  loop_induct (fun _ (syn : List α × List α) => syn.1.length = F ∧ syn.2.length = F) (by simp) fun k b _ h => by
    have := scatter_length N H P am af k b
    omega

@[simp] theorem zeroNegArray_length (F H : Nat) (X : List α) : (zeroNegArray N F H X).length = X.length :=
  loop_length X fun k B => by simp

@[simp] theorem accShiftArray_length (F S : Nat) (A : List α) : (accShiftArray N F S A).length = A.length := by
  unfold accShiftArray
  rw [loop_length _ fun k B => by simp, shiftDown_length]

/-! Inversion: a micro-operation that succeeds had its elements present and answers exactly this. -/

theorem windowStream_eq_ok {st st' : Stream α} :
    windowStream N st = .ok st' ↔
      st.inputFIFO.length = st.F ∧ { st with spectrum := windowArray N st.F st.inputFIFO } = st' := by
  simp [windowStream, ifElements_eq_ok]

theorem fftStream_eq_ok {dir : Dir} {st st' : Stream α} :
    fftStream N dir st = .ok st' ↔
      (st.spectrum.length = 2 * st.F ∧ (st.F = 2 ^ st.n ∨ st.F = 0)) ∧
        { st with spectrum := fftArray N dir st.F st.n st.spectrum } = st' := by
  simp [fftStream, ifElements_eq_ok]

theorem analyzeStream_eq_ok {st st' : Stream α} :
    analyzeStream N st = .ok st' ↔
      (st.spectrum.length = 2 * st.F ∧ st.lastPhase.length = st.H + 1 ∧ st.H < st.F) ∧
        { st with
          anaMagn := (List.range (st.H + 1)).map fun k => magnitude N (complexRead N st.spectrum k)
          anaFreq := (List.range (st.H + 1)).map fun k =>
            trueFrequency N st k (phase N (complexRead N st.spectrum k)) (memRead N st.lastPhase k)
          lastPhase := (List.range (st.H + 1)).map fun k => phase N (complexRead N st.spectrum k) } = st' := by
  simp [analyzeStream, ifElements_eq_ok]

theorem remapStream_eq_ok {st st' : Stream α} :
    remapStream N st = .ok st' ↔
      (st.anaMagn.length = st.H + 1 ∧ st.anaFreq.length = st.H + 1 ∧ st.H < st.F) ∧
        { st with
          synMagn := (remapArrays N st.F st.H st.P st.anaMagn st.anaFreq).1
          synFreq := (remapArrays N st.F st.H st.P st.anaMagn st.anaFreq).2 } = st' := by
  simp [remapStream, ifElements_eq_ok]

theorem synthStream_eq_ok {st st' : Stream α} :
    synthStream N st = .ok st' ↔
      (st.synMagn.length = st.F ∧ st.synFreq.length = st.F ∧ st.sumPhase.length = st.H + 1 ∧
        st.spectrum.length = 2 * st.F ∧ st.H < st.F) ∧
        { st with
          sumPhase := (List.range (st.H + 1)).map (newSumPhase N st)
          spectrum := loop (st.H + 1)
            (fun k X => complexWrite X k (polar N (memRead N st.synMagn k) (newSumPhase N st k))) st.spectrum } = st' := by
  simp [synthStream, ifElements_eq_ok]

theorem zeroNegStream_eq_ok {st st' : Stream α} :
    zeroNegStream N st = .ok st' ↔
      st.spectrum.length = 2 * st.F ∧ { st with spectrum := zeroNegArray N st.F st.H st.spectrum } = st' := by
  simp [zeroNegStream, ifElements_eq_ok]

theorem olaAddStream_eq_ok {st st' : Stream α} :
    olaAddStream N st = .ok st' ↔
      (st.outputAccumulator.length = 2 * st.F ∧ st.spectrum.length = 2 * st.F) ∧
        { st with
          outputAccumulator := loop st.F
            (fun k A => memWrite A k (N.add (memRead N A k) (olaIncrement N st.F st.H st.O st.spectrum k)))
            st.outputAccumulator } = st' := by
  simp [olaAddStream, ifElements_eq_ok]

theorem drainStream_eq_ok {st st' : Stream α} :
    drainStream N st = .ok st' ↔
      (st.outputAccumulator.length = 2 * st.F ∧ st.outputFIFO.length = st.F ∧ st.S ≤ st.F) ∧
        { st with
          outputFIFO := loop st.S (fun k A => memWrite A k (memRead N st.outputAccumulator k)) st.outputFIFO } = st' := by
  simp [drainStream, ifElements_eq_ok]

theorem accShiftStream_eq_ok {st st' : Stream α} :
    accShiftStream N st = .ok st' ↔
      (st.outputAccumulator.length = 2 * st.F ∧ st.S ≤ st.F) ∧
        { st with outputAccumulator := accShiftArray N st.F st.S st.outputAccumulator } = st' := by
  simp [accShiftStream, ifElements_eq_ok]

theorem inShiftStream_eq_ok {st st' : Stream α} :
    inShiftStream N st = .ok st' ↔
      (st.inputFIFO.length = st.F ∧ st.L + st.S ≤ st.F) ∧
        { st with inputFIFO := shiftDown N st.L st.S st.inputFIFO } = st' := by
  simp [inShiftStream, ifElements_eq_ok]

/-! Geometry. -/

theorem Geometry.half_lt {st : Stream α} (h : Geometry st) : st.H < st.F := by
  have h1 := h.half
  have h2 : 2 ≤ st.F := h.frame_min
  omega

theorem Geometry.hop_le {st : Stream α} (h : Geometry st) : st.S ≤ st.F := by
  have := h.latency
  omega

theorem Geometry.hop_pos {st : Stream α} (h : Geometry st) : 0 < st.S := by
  have h1 := h.hop
  have h2 : 2 ≤ st.F := h.frame_min
  rcases Nat.eq_zero_or_pos st.S with e | e
  · rw [e, Nat.zero_mul] at h1; omega
  · exact e

end Sys2Proof.Machine
end

