-- ==== Sys2Proof/Laws/Frame.lean ====
section
/-!
SUPPORT. What a whole frame, a `PUSH` and a `BLOCK` can do to the Stream State: on a running stream they succeed, and they keep
the latched configuration and the array lengths (spec/00_scope.md R11, 20_memory.md R61, R65).
-/

namespace Sys2Proof.Machine

variable {α : Type} (N : NumOps α)

/-- Two streams with the same latched configuration (10_state.md R38). -/
def SameLatched (st st' : Stream α) : Prop :=
  st'.F = st.F ∧ st'.O = st.O ∧ st'.S = st.S ∧ st'.L = st.L ∧ st'.H = st.H ∧ st'.n = st.n ∧
    st'.P = st.P ∧ st'.SR = st.SR ∧ st'.FPB = st.FPB ∧ st'.EXPCT = st.EXPCT

theorem SameLatched.refl (st : Stream α) : SameLatched st st := ⟨rfl, rfl, rfl, rfl, rfl, rfl, rfl, rfl, rfl, rfl⟩

theorem SameLatched.trans {a b c : Stream α} (h1 : SameLatched a b) (h2 : SameLatched b c) : SameLatched a c := by
  obtain ⟨a1, a2, a3, a4, a5, a6, a7, a8, a9, a10⟩ := h1
  obtain ⟨b1, b2, b3, b4, b5, b6, b7, b8, b9, b10⟩ := h2
  exact ⟨b1.trans a1, b2.trans a2, b3.trans a3, b4.trans a4, b5.trans a5, b6.trans a6, b7.trans a7, b8.trans a8,
    b9.trans a9, b10.trans a10⟩

/-! Each micro-operation on a running stream: it succeeds, and the stream still runs. -/

theorem windowStream_running {st : Stream α} (h : Running st) :
    ∃ st', windowStream N st = .ok st' ∧ Running st' ∧ SameLatched st st' ∧ st'.rover = st.rover :=
  ⟨_, (windowStream_eq_ok N).2 ⟨h.inputFIFO_length, rfl⟩, { h with spectrum_length := by simp }, .refl _, rfl⟩

theorem fftStream_running {st : Stream α} (dir : Dir) (h : Running st) :
    ∃ st', fftStream N dir st = .ok st' ∧ Running st' ∧ SameLatched st st' ∧ st'.rover = st.rover :=
  ⟨_, (fftStream_eq_ok N).2 ⟨⟨h.spectrum_length, .inl h.frame_pow⟩, rfl⟩,
    { h with spectrum_length := by simpa using h.spectrum_length }, .refl _, rfl⟩

theorem analyzeStream_running {st : Stream α} (h : Running st) :
    ∃ st', analyzeStream N st = .ok st' ∧ Running st' ∧ AnalysisPresent st' ∧ SameLatched st st' ∧ st'.rover = st.rover :=
  ⟨_, (analyzeStream_eq_ok N).2 ⟨⟨h.spectrum_length, h.lastPhase_length, h.toGeometry.half_lt⟩, rfl⟩,
    { h with lastPhase_length := by simp }, ⟨by simp, by simp⟩, .refl _, rfl⟩

theorem remapStream_running {st : Stream α} (h : Running st) (ha : AnalysisPresent st) :
    ∃ st', remapStream N st = .ok st' ∧ Running st' ∧ SynthesisPresent st' ∧ SameLatched st st' ∧ st'.rover = st.rover :=
  ⟨_, (remapStream_eq_ok N).2 ⟨⟨ha.1, ha.2, h.toGeometry.half_lt⟩, rfl⟩, { h with },
    remapArrays_length N _ _ _ _ _, .refl _, rfl⟩

theorem synthStream_running {st : Stream α} (h : Running st) (hs : SynthesisPresent st) :
    ∃ st', synthStream N st = .ok st' ∧ Running st' ∧ SameLatched st st' ∧ st'.rover = st.rover :=
  ⟨_, (synthStream_eq_ok N).2
      ⟨⟨hs.1, hs.2, h.sumPhase_length, h.spectrum_length, h.toGeometry.half_lt⟩, rfl⟩,
    { h with
      sumPhase_length := by simp
      spectrum_length := (loop_length _ fun _ _ => by simp).trans h.spectrum_length }, .refl _, rfl⟩

theorem zeroNegStream_running {st : Stream α} (h : Running st) :
    ∃ st', zeroNegStream N st = .ok st' ∧ Running st' ∧ SameLatched st st' ∧ st'.rover = st.rover :=
  ⟨_, (zeroNegStream_eq_ok N).2 ⟨h.spectrum_length, rfl⟩,
    { h with spectrum_length := by simpa using h.spectrum_length }, .refl _, rfl⟩

theorem olaAddStream_running {st : Stream α} (h : Running st) :
    ∃ st', olaAddStream N st = .ok st' ∧ Running st' ∧ SameLatched st st' ∧ st'.rover = st.rover :=
  ⟨_, (olaAddStream_eq_ok N).2 ⟨⟨h.outputAccumulator_length, h.spectrum_length⟩, rfl⟩,
    { h with outputAccumulator_length := (loop_length _ fun _ _ => by simp).trans h.outputAccumulator_length },
    .refl _, rfl⟩

theorem drainStream_running {st : Stream α} (h : Running st) :
    ∃ st', drainStream N st = .ok st' ∧ Running st' ∧ SameLatched st st' ∧ st'.rover = st.rover :=
  ⟨_, (drainStream_eq_ok N).2 ⟨⟨h.outputAccumulator_length, h.outputFIFO_length, h.toGeometry.hop_le⟩, rfl⟩,
    { h with outputFIFO_length := (loop_length _ fun _ _ => by simp).trans h.outputFIFO_length }, .refl _, rfl⟩

theorem accShiftStream_running {st : Stream α} (h : Running st) :
    ∃ st', accShiftStream N st = .ok st' ∧ Running st' ∧ SameLatched st st' ∧ st'.rover = st.rover :=
  ⟨_, (accShiftStream_eq_ok N).2 ⟨⟨h.outputAccumulator_length, h.toGeometry.hop_le⟩, rfl⟩,
    { h with outputAccumulator_length := by simpa using h.outputAccumulator_length }, .refl _, rfl⟩

theorem inShiftStream_running {st : Stream α} (h : Running st) :
    ∃ st', inShiftStream N st = .ok st' ∧ Running st' ∧ SameLatched st st' ∧ st'.rover = st.rover :=
  ⟨_, (inShiftStream_eq_ok N).2 ⟨⟨h.inputFIFO_length, h.latency.le⟩, rfl⟩,
    { h with inputFIFO_length := by simpa using h.inputFIFO_length }, .refl _, rfl⟩

/-! Chaining. -/

/-- The next operation of a sequence runs on what the one before it made. -/
theorem bind_of_ok {β γ : Type} {x : Except Fault β} {a : β} (h : x = .ok a) (f : β → Except Fault γ) : (x >>= f) = f a := by
  rw [h]; rfl

/-- A sequence succeeds exactly when its first part and its second part do. -/
theorem bind_eq_ok {β γ : Type} {x : Except Fault β} {f : β → Except Fault γ} {c : γ} :
    (x >>= f) = .ok c ↔ ∃ a, x = .ok a ∧ f a = .ok c := by
  cases x with
  | ok a => simp [bind, Except.bind]
  | error e => simp [bind, Except.bind]

/-- The eleven results of a frame in a row (40_sliding_window_fifo.md R126). -/
theorem frameStream_eq_ok {st st' : Stream α} :
    frameStream N st = .ok st' ↔ ∃ a b c d e f g h i j,
      windowStream N st = .ok a ∧ fftStream N .fwd a = .ok b ∧ analyzeStream N b = .ok c ∧ remapStream N c = .ok d ∧
      synthStream N d = .ok e ∧ zeroNegStream N e = .ok f ∧ fftStream N .inv f = .ok g ∧ olaAddStream N g = .ok h ∧
      drainStream N h = .ok i ∧ accShiftStream N i = .ok j ∧ inShiftStream N j = .ok st' := by
  unfold frameStream
  constructor
  · intro h
    obtain ⟨a, ha, h⟩ := bind_eq_ok.1 h
    obtain ⟨b, hb, h⟩ := bind_eq_ok.1 h
    obtain ⟨c, hc, h⟩ := bind_eq_ok.1 h
    obtain ⟨d, hd, h⟩ := bind_eq_ok.1 h
    obtain ⟨e, he, h⟩ := bind_eq_ok.1 h
    obtain ⟨f, hf, h⟩ := bind_eq_ok.1 h
    obtain ⟨g, hg, h⟩ := bind_eq_ok.1 h
    obtain ⟨i, hi, h⟩ := bind_eq_ok.1 h
    obtain ⟨j, hj, h⟩ := bind_eq_ok.1 h
    obtain ⟨k, hk, h⟩ := bind_eq_ok.1 h
    exact ⟨a, b, c, d, e, f, g, i, j, k, ha, hb, hc, hd, he, hf, hg, hi, hj, hk, h⟩
  · rintro ⟨a, b, c, d, e, f, g, i, j, k, ha, hb, hc, hd, he, hf, hg, hi, hj, hk, h⟩
    rw [bind_of_ok ha, bind_of_ok hb, bind_of_ok hc, bind_of_ok hd, bind_of_ok he, bind_of_ok hf, bind_of_ok hg,
      bind_of_ok hi, bind_of_ok hj, bind_of_ok hk, h]

/-- A frame on a running stream completes and leaves a running stream of the same configuration, the cursor untouched. -/
theorem frameStream_running {st : Stream α} (h : Running st) :
    ∃ st', frameStream N st = .ok st' ∧ Running st' ∧ SameLatched st st' ∧ st'.rover = st.rover := by
  obtain ⟨a, ha, ra, sa, va⟩ := windowStream_running N h
  obtain ⟨b, hb, rb, sb, vb⟩ := fftStream_running N .fwd ra
  obtain ⟨c, hc, rc, pc, sc, vc⟩ := analyzeStream_running N rb
  obtain ⟨d, hd, rd, pd, sd, vd⟩ := remapStream_running N rc pc
  obtain ⟨e, he, re, se, ve⟩ := synthStream_running N rd pd
  obtain ⟨f, hf, rf, sf, vf⟩ := zeroNegStream_running N re
  obtain ⟨g, hg, rg, sg, vg⟩ := fftStream_running N .inv rf
  obtain ⟨i, hi, ri, si, vi⟩ := olaAddStream_running N rg
  obtain ⟨j, hj, rj, sj, vj⟩ := drainStream_running N ri
  obtain ⟨k, hk, rk, sk, vk⟩ := accShiftStream_running N rj
  obtain ⟨l, hl, rl, sl, vl⟩ := inShiftStream_running N rk
  refine ⟨l, (frameStream_eq_ok N).2 ⟨a, b, c, d, e, f, g, i, j, k, ha, hb, hc, hd, he, hf, hg, hi, hj, hk, hl⟩, rl, ?_, ?_⟩
  · exact sa.trans <| sb.trans <| sc.trans <| sd.trans <| se.trans <| sf.trans <| sg.trans <| si.trans <| sj.trans <|
      sk.trans sl
  · rw [vl, vk, vj, vi, vg, vf, ve, vd, vc, vb, va]

/-! `PUSH` and `BLOCK`. -/

/-- The cursor of a running stream is in range (20_memory.md R65). -/
theorem Running.cursor {st : Stream α} (h : Running st) : cursorInRange st = true := by
  have h1 := h.rover_low
  have h2 := h.rover_high
  have h3 := h.inputFIFO_length
  have h4 := h.outputFIFO_length
  simp only [cursorInRange, decide_eq_true_eq]
  omega

/-- A `PUSH` whose cursor is in range is the advance of the accepted sample, and its output is the one read before. -/
theorem pushStream_of_cursor (N : NumInst α) (x : Word) {st : Stream α} (h : cursorInRange st = true) :
    pushStream N x st =
      (advanceStream N.toNumOps (acceptSample N x st)).map fun st' => (st', outputSample N st) := by
  unfold pushStream
  rw [bind_of_ok (ifElements_eq_ok.2 ⟨h, rfl⟩)]
  cases advanceStream N.toNumOps (acceptSample N x st) <;> rfl

theorem pushStream_of_no_cursor (N : NumInst α) (x : Word) {st : Stream α} (h : cursorInRange st = false) :
    pushStream N x st = .error .noElement := by
  unfold pushStream
  rw [h]
  rfl

theorem acceptSample_running (N : NumInst α) (x : Word) {st : Stream α} (h : Running st) : Running (acceptSample N x st) :=
  { h with inputFIFO_length := by simpa [acceptSample] using h.inputFIFO_length }

/-- The cursor's next value (40 R123): no carry leaves the index register. -/
theorem rover_succ {st : Stream α} (h : Running st) : (st.rover + 1).toNat = st.rover.toNat + 1 := by
  have h1 := h.rover_high
  have h2 : st.F ≤ 4096 := h.frame_max
  rw [BitVec.toNat_add]
  show (st.rover.toNat + 1) % 2 ^ 14 = _
  omega

theorem rover_ofNat {n : Nat} (h : n ≤ 4096) : (BitVec.ofNat Config.idxW n).toNat = n := by
  rw [BitVec.toNat_ofNat]
  show n % 2 ^ 14 = n
  omega

/-- What an advance does on a running stream: below `F − 1` the cursor moves on, at `F − 1` it goes back to `L` and a frame runs. -/
theorem advanceStream_running {st : Stream α} (h : Running st) :
    ∃ st', advanceStream N st = .ok st' ∧ Running st' ∧ SameLatched st st' ∧
      ((st.rover.toNat + 1 < st.F ∧ st' = { st with rover := st.rover + 1 }) ∨
        (st.rover.toNat + 1 = st.F ∧ frameStream N { st with rover := BitVec.ofNat _ st.L } = .ok st' ∧
          st'.rover.toNat = st.L)) := by
  have h1 := h.rover_low
  have h2 := h.rover_high
  have h3 : st.F ≤ 4096 := h.frame_max
  have h4 := h.latency
  have h5 := h.toGeometry.hop_pos
  unfold advanceStream
  by_cases e : st.F ≤ st.rover.toNat + 1
  · rw [if_pos e]
    have hr : Running { st with rover := BitVec.ofNat _ st.L } :=
      { h with
        rover_low := by rw [rover_ofNat (by omega)]
        rover_high := by show (BitVec.ofNat Config.idxW st.L).toNat < st.F; rw [rover_ofNat (by omega)]; omega }
    obtain ⟨st', hs, rs, ss, vs⟩ := frameStream_running N hr
    refine ⟨st', hs, rs, ss, .inr ⟨by omega, hs, ?_⟩⟩
    rw [vs, rover_ofNat (by omega)]
  · rw [if_neg e]
    refine ⟨_, rfl, { h with rover_low := ?_, rover_high := ?_ }, .refl _, .inl ⟨by omega, rfl⟩⟩
    · show st.L ≤ (st.rover + 1).toNat
      rw [rover_succ h]; omega
    · show (st.rover + 1).toNat < st.F
      rw [rover_succ h]; omega

/-- A `PUSH` on a running stream completes and leaves a running stream of the same configuration. -/
theorem pushStream_running (N : NumInst α) (x : Word) {st : Stream α} (h : Running st) :
    ∃ st', pushStream N x st = .ok (st', outputSample N st) ∧
      advanceStream N.toNumOps (acceptSample N x st) = .ok st' ∧ Running st' ∧ SameLatched st st' := by
  obtain ⟨st', hs, rs, ss, _⟩ := advanceStream_running N.toNumOps (acceptSample_running N x h)
  refine ⟨st', ?_, hs, rs, ss⟩
  rw [pushStream_of_cursor N x h.cursor, hs]
  rfl

theorem blockStream_nil (N : NumInst α) (st : Stream α) : blockStream N [] st = .ok (st, []) := rfl

theorem blockStream_cons (N : NumInst α) {x : Word} {xs : List Word} {st st1 : Stream α} {y : Word}
    (h : pushStream N x st = .ok (st1, y)) :
    blockStream N (x :: xs) st = (blockStream N xs st1).map fun r => (r.1, y :: r.2) := by
  rw [blockStream, bind_of_ok h]
  show (blockStream N xs st1 >>= _) = _
  cases blockStream N xs st1 <;> rfl

/-- A `BLOCK` on a running stream completes with one output word for each sample. -/
theorem blockStream_running (N : NumInst α) (xs : List Word) {st : Stream α} (h : Running st) :
    ∃ st' ys, blockStream N xs st = .ok (st', ys) ∧ ys.length = xs.length ∧ Running st' ∧ SameLatched st st' := by
  induction xs generalizing st with
  | nil => exact ⟨st, [], rfl, rfl, h, .refl _⟩
  | cons x xs ih =>
    obtain ⟨st1, h1, -, r1, s1⟩ := pushStream_running N x h
    obtain ⟨st2, ys, h2, l2, r2, s2⟩ := ih r1
    refine ⟨st2, outputSample N st :: ys, ?_, by simp [l2], r2, s1.trans s2⟩
    rw [blockStream_cons N h1, h2]
    rfl

/-- A `BLOCK` of two parts is the `BLOCK` of the first and then of the second (40 R125). -/
theorem blockStream_append (N : NumInst α) (xs ys : List Word) (st : Stream α) :
    blockStream N (xs ++ ys) st = (blockStream N xs st >>= fun r =>
      (blockStream N ys r.1).map fun r' => (r'.1, r.2 ++ r'.2)) := by
  induction xs generalizing st with
  | nil =>
    rw [List.nil_append, blockStream_nil, bind_of_ok rfl]
    cases blockStream N ys st <;> rfl
  | cons x xs ih =>
    rw [List.cons_append]
    cases h : pushStream N x st with
    | error e => simp [blockStream, h, bind, Except.bind]
    | ok r =>
      rw [blockStream_cons N h, blockStream_cons N h, ih]
      cases blockStream N xs r.1 with
      | error e => rfl
      | ok r2 =>
        show Except.map _ (Except.map _ (blockStream N ys r2.1)) = Except.map _ (blockStream N ys r2.1)
        cases blockStream N ys r2.1 <;> rfl

end Sys2Proof.Machine
end

