-- ==== Sys2Proof/Laws/Num.lean ====
section
/-!
SUPPORT. What binary32 patterns stand for (spec/00_scope.md R14), and what follows from the default binding for the pitches and
rates of the spec's examples, and for the bus words of `NUM_REAL`. No statement about the machine rests on it.
-/

namespace Sys2Proof.Laws

open Sys2Proof.Machine

theorem settledValue_of_positive {w : Word} {e f : Nat} (he : (exponentField w).toNat = e) (hf : (fractionField w).toNat = f)
    (hs : signField w ≠ 1) (h0 : 0 < e) (h1 : e < 255) : settledValue w = some ((2 ^ 23 + f) * 2 ^ e / 2 ^ 150 : ℚ) := by
  rw [settledValue_of_normal he hf h0 h1, if_neg hs]

theorem settledValue_of_negative {w : Word} {e f : Nat} (he : (exponentField w).toNat = e) (hf : (fractionField w).toNat = f)
    (hs : signField w = 1) (h0 : 0 < e) (h1 : e < 255) : settledValue w = some (-((2 ^ 23 + f) * 2 ^ e / 2 ^ 150) : ℚ) := by
  rw [settledValue_of_normal he hf h0 h1, if_pos hs]

/-- 00_scope.md R14: `0x3F000000` is 0.5. -/
theorem settledValue_half : settledValue 0x3F000000 = some (1 / 2) := by
  rw [settledValue_of_positive (e := 126) (f := 0) (by decide) (by decide) (by decide) (by decide) (by decide)]
  norm_num

/-- 00_scope.md R14: `0x3F800000` is 1.0. -/
theorem settledValue_one : settledValue 0x3F800000 = some 1 := by
  rw [settledValue_of_positive (e := 127) (f := 0) (by decide) (by decide) (by decide) (by decide) (by decide)]
  norm_num

/-- 00_scope.md R14: `0x40000000` is 2.0. -/
theorem settledValue_two : settledValue 0x40000000 = some 2 := by
  rw [settledValue_of_positive (e := 128) (f := 0) (by decide) (by decide) (by decide) (by decide) (by decide)]
  norm_num

/-- 00_scope.md R14: `0x472C4400` is 44100.0. -/
theorem settledValue_44100 : settledValue 0x472C4400 = some 44100 := by
  rw [settledValue_of_positive (e := 142) (f := 2900992) (by decide) (by decide) (by decide) (by decide) (by decide)]
  norm_num

/-- `0x3F800000` is `ONE` under the default binding. -/
theorem decode_one : Config.NUM.decode 0x3F800000 = Config.NUM.one :=
  Config.NUM_binding.integer _ 1 (by decide) (by simpa using settledValue_one)

/-- `0x40000000` is `TWO` under the default binding. -/
theorem decode_two : Config.NUM.decode 0x40000000 = Config.NUM.two :=
  Config.NUM_binding.integer _ 2 (by decide) (by simpa using settledValue_two)

/-- The bus word of `ZERO` is 0x00000000 under the default binding (30_encoding.md R108, 95_test_vectors.md T40). -/
theorem encode_zero : Config.NUM.encode Config.NUM.zero = 0x00000000 := by
  rw [← Config.NUM_laws.decode_zero]
  exact Config.NUM_binding.encode_word _ _ settledValue_zero

/-- A word is in the range of a pitch for `START` exactly when its value is (46_host_commands.md R231). -/
theorem pitch_in_range_iff {w : Word} {q : ℚ} (h : settledValue w = some q) :
    (Config.NUM.isFinite (Config.NUM.decode w) = true ∧ Config.NUM.lt (Config.NUM.decode w) Config.NUM.half = false ∧
      Config.NUM.lt Config.NUM.two (Config.NUM.decode w) = false) ↔ 1 / 2 ≤ q ∧ q ≤ 2 := by
  have h1 := Config.NUM_binding.lt_value w _ q _ h settledValue_half
  have h2 := Config.NUM_binding.lt_value _ w _ q settledValue_two h
  rw [Config.NUM_binding.half] at h1
  rw [decode_two] at h2
  rw [← Bool.not_eq_true, ← Bool.not_eq_true, h1, h2, not_lt, not_lt]
  exact and_iff_right (Config.NUM_binding.finite w q h)

/-- A word is in the range of a rate for `START` exactly when its value is (46_host_commands.md R231). -/
theorem rate_in_range_iff {w : Word} {q : ℚ} (h : settledValue w = some q) :
    (Config.NUM.isFinite (Config.NUM.decode w) = true ∧ Config.NUM.le (Config.NUM.decode w) Config.NUM.zero = false) ↔
      0 < q := by
  have h1 := Config.NUM_binding.le_value w _ q _ h settledValue_zero
  rw [show Config.NUM.decode 0x00000000 = Config.NUM.zero from Config.NUM_laws.decode_zero] at h1
  rw [← Bool.not_eq_true, h1, not_le]
  exact and_iff_right (Config.NUM_binding.finite w q h)

/-! The bus words of `NUM_REAL`. -/

@[simp] theorem numRealWords_toNumOps : numRealWords.toNumOps = numReal := by rw [numRealWords]
@[simp] theorem numRealWords_decode (w : Word) : numRealWords.decode w = realOfWord w := by rw [numRealWords]
@[simp] theorem numRealWords_encode (a : ℝ) : numRealWords.encode a = wordOfReal a := by rw [numRealWords]

/-- A settled word stands for its value. -/
theorem realOfWord_of_settled {w : Word} {q : ℚ} (h : settledValue w = some q) : realOfWord w = q := by
  rw [realOfWord, binary32Value_of_settled h]

/-- A settled word is the bus word of its value. -/
theorem wordOfReal_of_settled {w : Word} {q : ℚ} (h : settledValue w = some q) : wordOfReal (q : ℝ) = w := by
  have hx : ∃ v, ∃ r : ℚ, settledValue v = some r ∧ (r : ℝ) = q := ⟨w, q, h, rfl⟩
  rw [wordOfReal, dif_pos hx]
  obtain ⟨r, hr, e⟩ := Classical.choose_spec hx
  rw [Rat.cast_inj] at e
  exact settledValue_injective (e ▸ hr) h

end Sys2Proof.Laws
end

