-- ==== Sys2Proof/Laws/PerInstr.lean ====
section
/-!
SUPPORT. One lemma per instruction: the framing of its encoding (spec/30_encoding.md R91, R94, R105).
-/

namespace Sys2Proof.Laws

/-- A well-formed command's encoding is a command word with `rsv = 0x00` followed by exactly the operand words the command
word announces (R91, R94); a micro-operation's is one of the codes 0x0 to 0xB (R105). -/
def Framing.Statement (i : Instr) : Prop :=
  WellFormed i = true →
    match encode i with
    | .words [] => False
    | .words (w :: ops) => rsvField w = 0 ∧ ops.length = nops w
    | .code c => c.toNat ≤ 0xB

theorem Framing.nop : Framing.Statement .nop := fun _ => ⟨by decide, by decide⟩
theorem Framing.reset : Framing.Statement .reset := fun _ => ⟨by decide, by decide⟩

/-- A command word as a number (R91). -/
theorem commandWord_toNat (op : BitVec 8) (imm : BitVec 16) :
    (commandWord op imm).toNat = op.toNat * 2 ^ 24 + imm.toNat := by
  have h1 : (op ++ (0#8) : BitVec 16).toNat = op.toNat * 2 ^ 8 := by
    rw [BitVec.toNat_append, Nat.shiftLeft_eq]; simp
  have h2 : ((op ++ (0#8) : BitVec 16) ++ imm : BitVec 32).toNat = op.toNat * 2 ^ 24 + imm.toNat := by
    rw [BitVec.toNat_append, ← Nat.shiftLeft_add_eq_or_of_lt imm.isLt, h1, Nat.shiftLeft_eq]
    omega
  exact h2

/-- A command word's reserved field (R91). -/
theorem commandWord_rsv (op : BitVec 8) (imm : BitVec 16) : rsvField (commandWord op imm) = 0 := by
  apply BitVec.eq_of_toNat_eq
  have h := imm.isLt
  simp only [rsvField, BitVec.extractLsb'_toNat, commandWord_toNat, Nat.shiftRight_eq_div_pow]
  show _ = 0
  omega

/-- A command word's opcode (R91). -/
theorem commandWord_op (op : BitVec 8) (imm : BitVec 16) : opField (commandWord op imm) = op := by
  apply BitVec.eq_of_toNat_eq
  have h := imm.isLt
  have h' := op.isLt
  simp only [opField, BitVec.extractLsb'_toNat, commandWord_toNat, Nat.shiftRight_eq_div_pow]
  omega

/-- A command word's immediate (R91). -/
theorem commandWord_imm (op : BitVec 8) (imm : BitVec 16) : immField (commandWord op imm) = imm := by
  apply BitVec.eq_of_toNat_eq
  have h := imm.isLt
  simp only [immField, BitVec.extractLsb'_toNat, commandWord_toNat, Nat.shiftRight_eq_div_pow]
  omega

theorem Framing.wrcfg (reg : RegNum) (v : Word) : Framing.Statement (.wrcfg reg v) := fun _ =>
  ⟨commandWord_rsv _ _, by simp [nops, decodeHeader, commandWord_rsv, commandWord_op, Header.operands]⟩
theorem Framing.rdcfg (reg : RegNum) : Framing.Statement (.rdcfg reg) := fun _ =>
  ⟨commandWord_rsv _ _, by simp [nops, decodeHeader, commandWord_rsv, commandWord_op, Header.operands]⟩
theorem Framing.start : Framing.Statement .start := fun _ => ⟨by decide, by decide⟩
theorem Framing.push (x : Word) : Framing.Statement (.push x) := fun _ => ⟨by decide, rfl⟩
theorem Framing.block (xs : List Word) : Framing.Statement (.block xs) := fun h => by
  have hx : xs.length < 2 ^ 16 := by
    have : xs.length ≤ 65535 := of_decide_eq_true h
    omega
  refine ⟨commandWord_rsv _ _, ?_⟩
  simp [nops, decodeHeader, commandWord_rsv, commandWord_op, commandWord_imm, Header.operands]
  omega
theorem Framing.clrerr : Framing.Statement .clrerr := fun _ => ⟨by decide, by decide⟩
theorem Framing.uIdle : Framing.Statement .uIdle := fun _ => Nat.le_of_ble_eq_true rfl
theorem Framing.uWindow : Framing.Statement .uWindow := fun _ => Nat.le_of_ble_eq_true rfl
theorem Framing.uFftFwd : Framing.Statement .uFftFwd := fun _ => Nat.le_of_ble_eq_true rfl
theorem Framing.uAnalyze : Framing.Statement .uAnalyze := fun _ => Nat.le_of_ble_eq_true rfl
theorem Framing.uRemap : Framing.Statement .uRemap := fun _ => Nat.le_of_ble_eq_true rfl
theorem Framing.uSynth : Framing.Statement .uSynth := fun _ => Nat.le_of_ble_eq_true rfl
theorem Framing.uZeroneg : Framing.Statement .uZeroneg := fun _ => Nat.le_of_ble_eq_true rfl
theorem Framing.uFftInv : Framing.Statement .uFftInv := fun _ => Nat.le_of_ble_eq_true rfl
theorem Framing.uOlaAdd : Framing.Statement .uOlaAdd := fun _ => Nat.le_of_ble_eq_true rfl
theorem Framing.uDrain : Framing.Statement .uDrain := fun _ => Nat.le_of_ble_eq_true rfl
theorem Framing.uAccShift : Framing.Statement .uAccShift := fun _ => Nat.le_of_ble_eq_true rfl
theorem Framing.uInShift : Framing.Statement .uInShift := fun _ => Nat.le_of_ble_eq_true rfl

end Sys2Proof.Laws
end

