-- ==== Sys2Proof/Tests/Slice0.lean ====
section
/-!
SUPPORT. Tests: ill-formed terms, words written out from the encoding tables of spec/30_encoding.md, the test vectors of
spec/95_test_vectors.md and the worked examples of the section files on an exact instance, and for every statement that has
hypotheses a witness that meets them.
-/

namespace Sys2Proof.Tests

open Sys2Proof.Machine

/-! ## WellFormed -/

/-- 30 R97: 65535 samples are the most a `BLOCK` can announce. -/
theorem test_block_65536_ill_formed : WellFormed (.block (List.replicate 65536 0)) = false := by
  show decide ((List.replicate 65536 (0 : Word)).length ≤ maxBlock) = false
  rw [List.length_replicate]
  rfl

theorem test_block_65535_well_formed : WellFormed (.block (List.replicate 65535 0)) = true := by
  show decide ((List.replicate 65535 (0 : Word)).length ≤ maxBlock) = true
  rw [List.length_replicate]
  rfl

/-! ## Decoding: every constructor, by words written from 30 R93 and codes from 30 R105 -/

theorem test_decode_nop : decodeEncoding (.words [0x00000000]) = some .nop := by decide
theorem test_decode_reset : decodeEncoding (.words [0x01000000]) = some .reset := by decide
theorem test_decode_wrcfg : decodeEncoding (.words [0x02000003, 0x40000000]) = some (.wrcfg 3 0x40000000) := by decide
theorem test_decode_rdcfg : decodeEncoding (.words [0x0300FFFF]) = some (.rdcfg 0xFFFF) := by decide
theorem test_decode_start : decodeEncoding (.words [0x04000000]) = some .start := by decide
theorem test_decode_push : decodeEncoding (.words [0x05000000, 0xBE800000]) = some (.push 0xBE800000) := by decide
theorem test_decode_block :
    decodeEncoding (.words [0x06000002, 0x3F000000, 0xBE800000]) = some (.block [0x3F000000, 0xBE800000]) := by decide
theorem test_decode_block_empty : decodeEncoding (.words [0x06000000]) = some (.block []) := by decide
theorem test_decode_clrerr : decodeEncoding (.words [0x07000000]) = some .clrerr := by decide
theorem test_decode_uIdle : decodeEncoding (.code 0x0) = some .uIdle := by decide
theorem test_decode_uWindow : decodeEncoding (.code 0x1) = some .uWindow := by decide
theorem test_decode_uFftFwd : decodeEncoding (.code 0x2) = some .uFftFwd := by decide
theorem test_decode_uAnalyze : decodeEncoding (.code 0x3) = some .uAnalyze := by decide
theorem test_decode_uRemap : decodeEncoding (.code 0x4) = some .uRemap := by decide
theorem test_decode_uSynth : decodeEncoding (.code 0x5) = some .uSynth := by decide
theorem test_decode_uZeroneg : decodeEncoding (.code 0x6) = some .uZeroneg := by decide
theorem test_decode_uFftInv : decodeEncoding (.code 0x7) = some .uFftInv := by decide
theorem test_decode_uOlaAdd : decodeEncoding (.code 0x8) = some .uOlaAdd := by decide
theorem test_decode_uDrain : decodeEncoding (.code 0x9) = some .uDrain := by decide
theorem test_decode_uAccShift : decodeEncoding (.code 0xA) = some .uAccShift := by decide
theorem test_decode_uInShift : decodeEncoding (.code 0xB) = some .uInShift := by decide

/-- 30 R95, R251: a set reserved bit, a non-zero immediate where none may be, an opcode of none. -/
theorem test_decode_illegal :
    [0x00010000, 0x00000001, 0x05000001, 0x08000000, 0xFF000000, 0x06010002].map decodeHeader =
      [none, none, none, none, none, none] := by decide

/-- 60 R251: after an illegal `PUSH` the next word is a command word. -/
theorem test_decode_illegal_takes_no_operand :
    decodeCommand [0x05000001, 0x00000000] = .illegal 0x05000001 [0x00000000] := by decide

/-- The opcode table's numbering: `WRCFG FRAME, 1024` with the operand in bits 63:32, and a micro-operation code. -/
theorem test_table_words :
    decodeTableWord 64 0x0000040002000001 = some (.wrcfg 1 1024) ∧ decodeTableWord 32 0x05000000 = some (.push 0) ∧
    decodeTableWord 32 0x06000002 = some (.block [0, 0]) ∧ decodeTableWord 8 0xB = some .uInShift := by decide

/-! ## The units, on exact fixed point in 1/64, angles in units of `π` -/

/-- The square root in 1/64, rounded down, bit by bit from 512. -/
def sqrt64 (a : Int) : Int :=
  [512, 256, 128, 64, 32, 16, 8, 4, 2, 1].foldl (fun r b => if (r + b) * (r + b) ≤ 64 * a then r + b else r) 0

/-- An exact instance for the worked examples: values in 1/64, `PI` is one unit, cosine and sine of quarter turns. -/
def units : NumOps Int where
  num i := 64 * i
  add a b := a + b
  sub a b := a - b
  mul a b := a * b / 64
  div a b := 64 * a / b
  neg a := -a
  sqrt := sqrt64
  cos a := if a % 128 = 0 then 64 else if a % 128 = 64 then -64 else 0
  sin a := if a % 128 = 32 then 64 else if a % 128 = 96 then -64 else 0
  atan2 y x := if y = 0 then (if x < 0 then 64 else 0) else if y < 0 then -32 else 32
  floor a := a / 64
  evenq q := 2 * (-((64 - q) / 128))
  lt a b := a < b
  le a b := a ≤ b
  isFinite _ := true
  pi := 64

/-- The same with words that are the numbers themselves. -/
def unitWords : NumInst Int where
  toNumOps := units
  decode w := 64 * w.toInt
  encode a := BitVec.ofInt 32 a

/-- Whole numbers as values of `units`. -/
def whole (l : List Int) : List Int := l.map (64 * ·)

/-- 95 T10. -/
theorem test_fft_forward : fftArray units .fwd 4 2 (whole [1, 0, 2, 0, 3, 0, 4, 0]) = whole [10, 0, -2, 2, -2, 0, -2, -2] := by
  decide

/-- 95 T14, `dir = 1`. -/
theorem test_fft_inverse : fftArray units .inv 4 2 (whole [1, 1, 0, 0, 0, -1, 2, 0]) = whole [3, 0, 1, 0, -1, 0, 1, 4] := by
  decide

/-- 95 T13. -/
theorem test_fft_two : fftArray units .inv 2 1 (whole [3, 1, 5, -2]) = whole [8, -1, -2, 3] := by decide

/-- 95 T12, pass 1. -/
theorem test_bitrev_pass :
    bitrevPass units 8 3 [0, 9, 1, 9, 2, 9, 3, 9, 4, 9, 5, 9, 6, 9, 7, 9] = [0, 9, 4, 9, 2, 9, 6, 9, 1, 9, 5, 9, 3, 9, 7, 9] := by
  decide

/-- 95 T21: `[0, 0, 1.5, 0, 2, 0, 0.5, 0]`. -/
theorem test_window : windowArray units 4 (whole [4, 3, 2, 1]) = [0, 0, 96, 0, 128, 0, 32, 0] := by decide

/-- 95 T22: `1.5 → 2`, the ties `1 → 0`, `3 → 2`, `−1 → −2`, `−3 → −4`, and `−3.5 → −4`. -/
theorem test_evenq : [96, 64, 192, -64, -192, -224].map units.evenq = [2, 0, 2, -2, -4, -4] := by decide

/-- 95 T20, rows `k = 0, 1, 4`: magnitudes 6, 4, 8, frequencies 0, 500, 6000, phases 0, `π/2`, `π`; row 4 is the tie. -/
theorem test_analyze :
    (match analyzeStream units { startStream units 8 4 64 (64 * 8000) (Stream.absent 0) with
        spectrum := whole [3, 0, 0, 2, -1, -1, 0, 0, -4, 0, 0, 0, 0, 0, 0, 0], lastPhase := [0, 16, 32, 0, 0] } with
      | .ok st => [0, 1, 4].map fun k => (st.anaMagn[k]?, st.anaFreq[k]?, st.lastPhase[k]?)
      | .error _ => []) =
    [(some (64 * 6), some 0, some 0), (some (64 * 4), some (64 * 500), some 32), (some (64 * 8), some (64 * 6000), some 64)] := by
  decide

/-- 95 T24, `P = 0.5`: two sources for one target, the frequency of the last. -/
theorem test_remap_down :
    remapArrays units 8 4 32 (whole [1, 2, 3, 4, 5]) (whole [10, 20, 30, 40, 50]) =
      (whole [3, 7, 5, 0, 0, 0, 0, 0], whole [10, 20, 25, 0, 0, 0, 0, 0]) := by decide

/-- 95 T24, `P = 1.5`: source 4 is dropped, target 2 stays empty. -/
theorem test_remap_up :
    remapArrays units 8 4 96 (whole [1, 2, 3, 4, 5]) (whole [10, 20, 30, 40, 50]) =
      (whole [1, 2, 0, 3, 4, 0, 0, 0], whole [15, 30, 0, 45, 60, 0, 0, 0]) := by decide

/-- 95 T28: `sumPhase = [0, π/2, π]`, bins 0 to 2 are `1, i, −1`; bin 3 is not written. -/
theorem test_synth :
    (match synthStream units { startStream units 4 4 64 (64 * 8) (Stream.absent 0) with
        synMagn := whole [1, 1, 1, 0], synFreq := whole [0, 2, 4, 0], spectrum := whole [9, 9, 9, 9, 9, 9, 9, 9] } with
      | .ok st => (st.sumPhase, st.spectrum)
      | .error _ => ([], [])) = ([0, 32, 64], whole [1, 0, 0, 1, -1, 0, 9, 9]) := by decide

/-- 44 R196: bin 3 of `F = 4` is cleared. -/
theorem test_zeroneg : zeroNegArray units 4 2 [1, 2, 3, 4, 5, 6, 7, 8] = [1, 2, 3, 4, 5, 6, 0, 0] := by decide

/-- 44 R196: with `F = 2` nothing is cleared. -/
theorem test_zeroneg_two : zeroNegArray units 2 1 [1, 2, 3, 4] = [1, 2, 3, 4] := by decide

/-- 45 R216: `[0, 1/8, 0, 3/8, 0, 0, 0, 0]`. -/
theorem test_ola_add :
    (match olaAddStream units { startStream units 4 4 64 (64 * 8) (Stream.absent 0) with
        spectrum := whole [0, 1, 1, 0, 0, -1, 3, 0] } with
      | .ok st => st.outputAccumulator
      | .error _ => []) = [0, 8, 0, 24, 0, 0, 0, 0] := by decide

/-- 45 R212: elements `S … F−1` keep their values. -/
theorem test_drain :
    (match drainStream units { startStream units 4 2 64 (64 * 8) (Stream.absent 0) with
        outputAccumulator := [1, 2, 3, 4, 5, 6, 7, 8] } with
      | .ok st => st.outputFIFO
      | .error _ => []) = [1, 2, 0, 0] := by decide

/-- 95 T32. -/
theorem test_acc_shift :
    accShiftArray units 4 1 [11, 12, 13, 14, 0, 0, 0, 0] = [12, 13, 14, 0, 0, 0, 0, 0] ∧
    accShiftArray units 4 4 [11, 12, 13, 14, 0, 0, 0, 0] = [0, 0, 0, 0, 0, 0, 0, 0] := by decide

/-- 95 T34. -/
theorem test_in_shift :
    shiftDown units 6 2 [10, 11, 12, 13, 14, 15, 16, 17] = [12, 13, 14, 15, 16, 17, 16, 17] ∧
    shiftDown units 0 4 [10, 11, 12, 13] = [10, 11, 12, 13] ∧ shiftDown units 3 1 [10, 11, 12, 13] = [11, 12, 13, 13] := by
  decide

/-- 44 R197, 45 R216: `PUSH 1` on the fresh stream `F = 4, O = 4, SR = 8, P = 1` answers 0, runs the frame and leaves
the accumulator `[1/8, 0, 3/8, 0, …]`. -/
theorem test_push_runs_frame :
    (match pushStream unitWords 1 (startStream units 4 4 64 (64 * 8) (Stream.absent 0)) with
      | .ok (st, y) => (y, st.rover, st.outputAccumulator, st.sumPhase)
      | .error _ => (1, 0, [], [])) = (0, 3, [8, 0, 24, 0, 0, 0, 0, 0], [0, 32, 64]) := by decide

/-- 95 T33: `F = 8, O = 4`: the first `PUSH` writes `inputFIFO[6]`, moves the cursor to 7 and runs no frame. -/
theorem test_push_between_frames :
    (match pushStream unitWords 5 (startStream units 8 4 64 (64 * 8) (Stream.absent 0)) with
      | .ok (st, y) => (y, st.rover, st.inputFIFO)
      | .error _ => (1, 0, [])) = (0, 7, whole [0, 0, 0, 0, 0, 0, 5, 0]) := by decide

/-- 40 R125: an empty block answers nothing and changes nothing. -/
theorem test_block_empty :
    (match blockStream unitWords [] (startStream units 4 4 64 (64 * 8) (Stream.absent 0)) with
      | .ok (st, ys) => (st.rover, ys)
      | .error _ => (0, [0])) = (3, []) := by decide

/-! ## Commands -/

/-- The response words and the error record after an instruction. -/
def answer : Result → List Word × Bool × BitVec 8
  | .next t => (t.rsp, t.err, t.errcode)
  | .fault _ => ([0xFFFFFFFF], false, 0)
  | .refused _ => ([0xFFFFFFFF], false, 0)

/-- CONFIG mode with the configuration `FRAME = 4, OSAMP = 2, PITCH = 1.0, RATE = 8.0`. -/
def configured : State := { State.reset with frame := 4, osamp := 2, pitch := 0x3F800000, rate := 0x41000000 }

/-- The stream `START` makes of it. -/
def freshStream : Stream Num :=
  startStream Config.NUM.toNumOps 4 2 (Config.NUM.decode 0x3F800000) (Config.NUM.decode 0x41000000) State.reset.stream

/-- RUN mode after it. -/
def running : State := { configured with mode := .run, stream := freshStream }

/-- 46 R226. -/
theorem test_nop : answer (exec .nop State.reset) = ([0x00000000], false, 0) := by decide

/-- 46 R227, in RUN mode with an error recorded. -/
theorem test_reset : (match exec .reset { running with err := true, errcode := 3 } with
    | .next t => (t.rsp, t.err, t.mode, t.frame)
    | _ => ([], true, .run, 1)) = ([0x01000000], false, .config, 0) := by decide

/-- 46 R228: `WRCFG STATUS, 0` is `BAD_REG`; in RUN mode `WRCFG PITCH` is `LOCKED`. -/
theorem test_wrcfg_refused :
    answer (exec (.wrcfg 0 0) State.reset) = ([0x02020000], true, 0x02) ∧
    answer (exec (.wrcfg 3 0x3F800000) running) = ([0x02030000], true, 0x03) := by decide

/-- 95 P3 step 30: `BAD_REG` comes before `LOCKED`. -/
theorem test_wrcfg_bad_reg_first : answer (exec (.wrcfg 6 0) running) = ([0x02020000], true, 0x02) := by decide

/-- 46 R229 and R230: `MAXFRAME`, and `STATUS` in CONFIG mode after a refused `PUSH`. -/
theorem test_rdcfg :
    answer (exec (.rdcfg 5) State.reset) = ([0x03000001, 0x00001000], false, 0) ∧
    (answer (exec (.rdcfg 0) { State.reset with err := true, errcode := 0x04 })).1 = [0x03000001, 0x00000402] := by decide

/-- 46 R230: `STEP`, `LATENCY`, `ROVER` of `F = 4, O = 2` are 2, 2, 2 in RUN mode; register 9 is `BAD_REG`. -/
theorem test_rdcfg_run :
    [6, 7, 8, 9].map (fun r => (answer (exec (.rdcfg r) running)).1) =
      [[0x03000001, 2], [0x03000001, 2], [0x03000001, 2], [0x03020000]] := by decide

/-- 46 R232: `FRAME` 0, 3000, 1, 8192; `OSAMP` 0, 3. -/
theorem test_start_refused :
    [(0, 0), (3000, 4), (1, 1), (8192, 4), (1024, 0), (1024, 2048), (1024, 3)].map
      (fun p => (answer (exec .start { State.reset with frame := p.1, osamp := p.2 })).1) =
    [[0x04100000], [0x04100000], [0x04110000], [0x04110000], [0x04120000], [0x04120000], [0x04130000]] := by decide

/-- 60 R254. -/
theorem test_push_not_started : answer (exec (.push 0x3F000000) State.reset) = ([0x05040000], true, 0x04) := by decide

/-- 60 R254: also an empty block; the record keeps its first error. -/
theorem test_block_not_started :
    answer (exec (.block []) { State.reset with err := true, errcode := 0x10 }) = ([0x06040000], true, 0x10) := by decide

/-- 46 R233. -/
theorem test_clrerr : answer (exec .clrerr { State.reset with err := true, errcode := 4 }) = ([0x07000000], false, 0) := by decide

/-- 60 R251, the first example: `0x08000000 -> 0x08010000`. -/
theorem test_step_illegal :
    answer (step { State.reset with cmd := [.word 0x08000000] }) = ([0x08010000], true, 0x01) := by decide

/-- 70 R282: `rst` after the command word of a `PUSH` and before its sample. -/
theorem test_step_reset_mid_command :
    (match step { running with cmd := [.word 0x05000000, .rst, .word 0x00000000] } with
      | .next t => (t.mode, t.cmd, t.rsp)
      | _ => (.run, [], [])) = (.config, [.word 0x00000000], []) := by decide

/-- What the host places is what the next step runs. -/
theorem test_withFetchWord :
    (answer (step (State.reset.withFetchWord 64 0x0000000003000005))).1 = [0x03000001, 0x00001000] ∧
    (answer (step (State.reset.withFetchWord 32 0x06000002))).1 = [0x06040000] := by decide

/-- 30 R107 with R106. -/
theorem test_pseudo :
    silence 2 = .block [0, 0] ∧ process true 0 0 0 0 [7, 8] = [.block [7, 8]] ∧
    (configure 0x3F800000 1024 4 0x472C4400).map assemblerLine =
      [some "WRCFG FRAME, 0x400", some "WRCFG OSAMP, 0x4", some "WRCFG PITCH, 0x3f800000",
       some "WRCFG RATE, 0x472c4400", some "START"] := by decide

/-! ## Witnesses -/

theorem freshStream_running : Running freshStream where
  frame_pow := by decide
  frame_min := by decide
  frame_max := by decide
  hop := by decide
  latency := by decide
  half := by decide
  rover_low := by decide
  rover_high := by decide
  inputFIFO_length := rfl
  outputFIFO_length := rfl
  outputAccumulator_length := rfl
  spectrum_length := rfl
  lastPhase_length := rfl
  sumPhase_length := rfl

/-- The same stream with the cursor at `F − 1`. -/
def lastOfHop : Stream Num := { freshStream with rover := 3 }

theorem lastOfHop_running : Running lastOfHop :=
  { freshStream_running with rover_low := by decide, rover_high := by decide }

theorem pitch_in_range :
    Config.NUM.isFinite (Config.NUM.decode 0x3F800000) = true ∧
    Config.NUM.lt (Config.NUM.decode 0x3F800000) Config.NUM.half = false ∧
    Config.NUM.lt Config.NUM.two (Config.NUM.decode 0x3F800000) = false :=
  (Laws.pitch_in_range_iff Laws.settledValue_one).2 (by norm_num)

theorem rate_in_range :
    Config.NUM.isFinite (Config.NUM.decode 0x41000000) = true ∧
    Config.NUM.le (Config.NUM.decode 0x41000000) Config.NUM.zero = false :=
  (Laws.rate_in_range_iff (Laws.settledValue_of_positive (e := 130) (f := 0)
    (by decide) (by decide) (by decide) (by decide) (by decide))).2 (by norm_num)

theorem configured_accepted :
    startRefusal Config.NUM.toNumOps 4 2 (Config.NUM.decode 0x3F800000) (Config.NUM.decode 0x41000000) = none := by
  obtain ⟨h1, h2, h3⟩ := pitch_in_range
  obtain ⟨h4, h5⟩ := rate_in_range
  unfold startRefusal
  simp only
  rw [if_neg (by decide), if_neg (by decide), if_neg (by decide), if_neg (by decide), if_neg, if_neg]
  · rw [h4, h5]; decide
  · rw [h1, h2, h3]; decide

/-- 46 R234 in small: the configuration is accepted. -/
theorem test_start_accepted : exec .start configured = .next (respond 0x04 [] running) := by
  show execStart configured = _
  unfold execStart
  simp only [configured, State.reset, configured_accepted]
  rfl

/-- 00_scope.md R14: the layout, on −1.0 and on 1.5. -/
theorem test_binary32_values : settledValue 0xBF800000 = some (-1) ∧ settledValue 0x3FC00000 = some (3 / 2) := by
  rw [Laws.settledValue_of_negative (e := 127) (f := 0) (by decide) (by decide) (by decide) (by decide) (by decide),
    Laws.settledValue_of_positive (e := 127) (f := 4194304) (by decide) (by decide) (by decide) (by decide) (by decide)]
  norm_num

/-- 00_scope.md R14: infinities, NaN, the negative zero and subnormals are not settled. -/
theorem test_binary32_unsettled :
    [0x7F800000, 0x7FC00000, 0x80000000, 0x00000001].map settledValue = [none, none, none, none] := by decide

/-- 95 T46: the edges 0.5 and 2.0 are pitches in range. -/
theorem test_pitch_edges :
    Config.NUM.lt (Config.NUM.decode 0x3F000000) Config.NUM.half = false ∧
    Config.NUM.lt Config.NUM.two (Config.NUM.decode 0x40000000) = false :=
  ⟨((Laws.pitch_in_range_iff Laws.settledValue_half).2 (by norm_num)).2.1,
    ((Laws.pitch_in_range_iff Laws.settledValue_two).2 (by norm_num)).2.2⟩

/-- The configuration of `configured` with a pitch of 0.49. -/
def lowPitch : State := { configured with pitch := 0x3EFAE148 }

/-- 95 T45: `PITCH = 0x3EFAE148` (0.49) is refused with `CFG_PITCH_RANGE`. -/
theorem test_start_refuses_low_pitch :
    exec .start lowPitch = .next (refused 0x04 0x14 lowPitch) := by
  have h : Config.NUM.lt (Config.NUM.decode 0x3EFAE148) Config.NUM.half = true := by
    have hv : settledValue 0x3EFAE148 = _ :=
      Laws.settledValue_of_positive (e := 125) (f := 8053064) (by decide) (by decide) (by decide) (by decide) (by decide)
    rw [← Config.NUM_binding.half, Config.NUM_binding.lt_value _ _ _ _ hv Laws.settledValue_half]
    norm_num
  have hr : startRefusal Config.NUM.toNumOps 4 2 (Config.NUM.decode 0x3EFAE148) (Config.NUM.decode 0x41000000) =
      some .cfgPitchRange := by
    simp only [startRefusal]
    rw [if_neg (by decide), if_neg (by decide), if_neg (by decide), if_neg (by decide), if_pos (Or.inr (Or.inl h))]
  show execStart lowPitch = _
  simp only [execStart, lowPitch, configured, State.reset, hr]
  rfl

/-- 30 R108, 95 T40: `PUSH 0.5` on a fresh stream is answered `0x05000001 0x00000000`. -/
theorem test_push_answers_zero_word :
    ∃ t, exec (.push 0x3F000000) running = .next t ∧ t.rsp = running.rsp ++ [0x05000001, 0x00000000] := by
  refine ⟨_, rfl, ?_⟩
  show running.rsp ++ [0x05000001, Config.NUM.encode Config.NUM.zero] = _
  rw [Laws.encode_zero]

theorem zeroBetween_replicate (m lo hi : Nat) (h : hi ≤ m) :
    ZeroBetween Config.NUM.toNumOps (List.replicate m Config.NUM.zero) lo hi := fun k _ h2 => by
  simp [show k < m by omega]

theorem running_invariant : Invariant running where
  code_legal := by decide
  no_error := fun _ => rfl
  error_code h := by cases h
  config_mode h := by cases h
  run_mode _ :=
    ⟨{ freshStream_running with
        scratch := ⟨rfl, rfl, rfl, rfl⟩
        analysis := fun h => absurd h (by decide)
        synthesis := fun h => absurd h (by decide)
        upper_zero := zeroBetween_replicate 8 4 8 (by decide)
        tail_zero := fun _ _ => zeroBetween_replicate 8 2 4 (by decide)
        output_zero := zeroBetween_replicate 4 2 4 (by decide) },
      ⟨configured_accepted, rfl, rfl, rfl, rfl, rfl, rfl⟩⟩

theorem witness_WrcfgStoresOrRefuses :
    State.reset.mode = .config ∧ running.mode = .run ∧
    1 ≤ (0x0001 : RegNum).toNat ∧ (0x0004 : RegNum).toNat ≤ 4 ∧
    (0x0000 : RegNum).toNat = 0 ∧ 5 ≤ (0x0005 : RegNum).toNat ∧ 5 ≤ (0xFFFF : RegNum).toNat := by decide

theorem witness_RdcfgReadsOrRefuses :
    (0x0000 : RegNum).toNat ≤ 8 ∧ (0x0008 : RegNum).toNat ≤ 8 ∧ 8 < (0x0009 : RegNum).toNat := by decide

theorem witness_StartValidatesThenCreatesStream : configured.mode = .config ∧ running.mode = .run := by decide

theorem witness_StartEstablishesRunningStream :
    configured.mode = .config ∧ 1 ≤ 2 ∧ 2 ≤ 12 ∧ configured.frame.toNat = 2 ^ 2 ∧ configured.osamp.toNat ∣ 2 ^ 2 ∧
    Config.NUM.isFinite (Config.NUM.decode configured.pitch) = true ∧
    Config.NUM.lt (Config.NUM.decode configured.pitch) Config.NUM.half = false ∧
    Config.NUM.lt Config.NUM.two (Config.NUM.decode configured.pitch) = false ∧
    Config.NUM.isFinite (Config.NUM.decode configured.rate) = true ∧
    Config.NUM.le (Config.NUM.decode configured.rate) Config.NUM.zero = false :=
  ⟨rfl, by decide, by decide, by decide, by decide, pitch_in_range.1, pitch_in_range.2.1, pitch_in_range.2.2,
    rate_in_range.1, rate_in_range.2⟩

/-- Both ends of the range of `n`: `FRAME = 2` and `FRAME = 4096`. -/
theorem witness_StartEstablishesRunningStream_ends :
    (2 : Word).toNat = 2 ^ 1 ∧ (1 : Word).toNat ∣ 2 ^ 1 ∧ (4096 : Word).toNat = 2 ^ 12 ∧ (4096 : Word).toNat ∣ 2 ^ 12 := by decide

theorem witness_PushStoresReturnsAdvances :
    configured.mode = .config ∧
    (running.mode = .run ∧ Running running.stream ∧ running.stream.rover.toNat + 1 < running.stream.F) ∧
    Running lastOfHop ∧ lastOfHop.rover.toNat + 1 = lastOfHop.F :=
  ⟨rfl, ⟨rfl, freshStream_running, by decide⟩, lastOfHop_running, by decide⟩

theorem witness_BlockIsSuccessivePushes :
    configured.mode = .config ∧ running.mode = .run ∧ Running running.stream := ⟨rfl, rfl, freshStream_running⟩

theorem witness_WindowLoadsSpectrum :
    running.stream.inputFIFO.length = running.stream.F ∧ running.stream.inputFIFO[3]? = some Config.NUM.zero := ⟨rfl, rfl⟩

theorem witness_FftUnitRunsItsStages :
    running.stream.spectrum.length = 2 * running.stream.F ∧ running.stream.F = 2 ^ running.stream.n := ⟨rfl, by decide⟩

theorem witness_AnalyzeMeasuresEveryBin :
    running.stream.spectrum.length = 2 * running.stream.F ∧ running.stream.lastPhase.length = running.stream.H + 1 ∧
    running.stream.H < running.stream.F ∧ running.stream.spectrum[2 * 2]? = some Config.NUM.zero ∧
    running.stream.spectrum[2 * 2 + 1]? = some Config.NUM.zero ∧ running.stream.lastPhase[2]? = some Config.NUM.zero :=
  ⟨rfl, rfl, by decide, rfl, rfl, rfl⟩

/-- The running state with the arrays of a frame in progress, and the pitch exactly `ONE`. -/
def midFrame : State :=
  { running with
    stream := { freshStream with
      P := Config.NUM.one
      anaMagn := List.replicate 3 Config.NUM.one
      anaFreq := List.replicate 3 Config.NUM.two
      synMagn := List.replicate 4 Config.NUM.one
      synFreq := List.replicate 4 Config.NUM.two } }

theorem witness_RemapScattersBins :
    midFrame.stream.anaMagn.length = midFrame.stream.H + 1 ∧ midFrame.stream.anaFreq.length = midFrame.stream.H + 1 ∧
    midFrame.stream.H < midFrame.stream.F ∧ 2 ≤ midFrame.stream.H ∧ 3 < midFrame.stream.F ∧ midFrame.stream.H < 3 :=
  ⟨rfl, rfl, by decide, by decide, by decide, by decide⟩

theorem witness_SynthAccumulatesPhase :
    midFrame.stream.synMagn.length = midFrame.stream.F ∧ midFrame.stream.synFreq.length = midFrame.stream.F ∧
    midFrame.stream.sumPhase.length = midFrame.stream.H + 1 ∧ midFrame.stream.spectrum.length = 2 * midFrame.stream.F ∧
    midFrame.stream.H < midFrame.stream.F ∧ 2 ≤ midFrame.stream.H ∧ midFrame.stream.synMagn[2]? = some Config.NUM.one ∧
    midFrame.stream.synFreq[2]? = some Config.NUM.two ∧ midFrame.stream.sumPhase[2]? = some Config.NUM.zero :=
  ⟨rfl, rfl, rfl, rfl, by decide, by decide, rfl, rfl, rfl⟩

/-- Element 5 is the last below bin `H + 1 = 3`, element 6 the first of it, element 7 the last of the array. -/
theorem witness_ZeronegClearsUpperBins :
    running.stream.spectrum.length = 2 * running.stream.F ∧ 5 < 2 * (running.stream.H + 1) ∧
    2 * (running.stream.H + 1) ≤ 6 ∧ 7 < 2 * running.stream.F := ⟨rfl, by decide, by decide, by decide⟩

theorem witness_OlaAddAccumulates :
    running.stream.outputAccumulator.length = 2 * running.stream.F ∧ running.stream.spectrum.length = 2 * running.stream.F ∧
    3 < running.stream.F ∧ running.stream.outputAccumulator[3]? = some Config.NUM.zero ∧
    running.stream.spectrum[2 * 3]? = some Config.NUM.zero ∧ running.stream.F ≤ 4 :=
  ⟨rfl, rfl, by decide, rfl, rfl, by decide⟩

theorem witness_DrainCopiesFinishedSamples :
    running.stream.outputAccumulator.length = 2 * running.stream.F ∧ running.stream.outputFIFO.length = running.stream.F ∧
    running.stream.S ≤ running.stream.F ∧ 1 < running.stream.S ∧ running.stream.S ≤ 2 :=
  ⟨rfl, rfl, by decide, by decide, by decide⟩

/-- Element 5 is the last that comes from below, element 6 the first that is filled. -/
theorem witness_AccShiftMovesAndFills :
    running.stream.outputAccumulator.length = 2 * running.stream.F ∧ running.stream.S ≤ running.stream.F ∧
    5 + running.stream.S < 2 * running.stream.F ∧ 2 * running.stream.F ≤ 6 + running.stream.S ∧ 7 < 2 * running.stream.F :=
  ⟨rfl, by decide, by decide, by decide, by decide⟩

theorem witness_InShiftMovesWindow :
    running.stream.inputFIFO.length = running.stream.F ∧ running.stream.L + running.stream.S ≤ running.stream.F ∧
    1 < running.stream.L ∧ running.stream.L ≤ 2 := ⟨rfl, by decide, by decide, by decide⟩

/-- A state in RUN mode without arrays: every micro-operation that needs one faults. -/
theorem witness_MissingElementFaults :
    ({ State.reset with mode := .run } : State).mode = .run ∧
    ¬ (State.reset.stream.L ≤ State.reset.stream.rover.toNat ∧
      State.reset.stream.rover.toNat < State.reset.stream.inputFIFO.length ∧
      State.reset.stream.rover.toNat - State.reset.stream.L < State.reset.stream.outputFIFO.length) := by decide

theorem witness_BitrevReversesBits : 0 < 2 ^ 0 ∧ 7 < 2 ^ 3 := by decide

theorem witness_BitReversalPassPermutes : (whole [1, 2, 3, 4]).length = 2 * 2 ^ 1 ∧ 1 < 2 ^ 1 := by decide

theorem witness_TransformIsTheDft : ([1, 2, 3, 4] : List ℝ).length = 2 * 2 ^ 1 ∧ 1 < 2 ^ 1 := ⟨rfl, by decide⟩

theorem witness_InverseAfterForwardScales : ([1, 2] : List ℝ).length = 2 * 2 ^ 0 := rfl

theorem witness_RealWindowIsHann : (0 : Nat) < 2 ∧ (0 : Nat) < 4 ∧ 0 ≤ 4 ∧ 4 ≤ 4 := by decide

theorem witness_RealWrapLandsInInterval : Odd (-1 : ℤ) ∧ -Real.pi / Real.pi = ((-1 : ℤ) : ℝ) ∧ Even (0 : ℤ) :=
  ⟨by decide, by rw [neg_div, div_self Real.pi_ne_zero]; simp, by decide⟩

/-- The fresh stream `F = 4, O = 2, SR = 8, P = 1` over the real numbers. -/
noncomputable def realStream : Stream ℝ := startStream numReal 4 2 1 8 (Stream.absent 0)

theorem realStream_running : Running realStream where
  frame_pow := by decide
  frame_min := by decide
  frame_max := by decide
  hop := by decide
  latency := by decide
  half := by decide
  rover_low := by decide
  rover_high := by decide
  inputFIFO_length := rfl
  outputFIFO_length := rfl
  outputAccumulator_length := rfl
  spectrum_length := rfl
  lastPhase_length := rfl
  sumPhase_length := rfl

theorem realStream_FPB : realStream.FPB = 2 := by
  show (8 : ℝ) / ((4 : ℤ) : ℝ) = 2
  norm_num

theorem witness_RealFrequencyWithinHalfOversampling :
    0 < realStream.F ∧ realStream.S * realStream.O = realStream.F ∧
    realStream.EXPCT = numReal.div (numReal.mul numReal.twoPi (numReal.num realStream.S)) (numReal.num realStream.F) ∧
    0 < realStream.FPB := ⟨by decide, by decide, rfl, by rw [realStream_FPB]; norm_num⟩

theorem witness_RealTargetsAreMonotone :
    (0 : ℝ) < 1 / 2 ∧ (1 / 2 : ℝ) < 1 ∧ (1 : ℝ) ≤ 2 ∧ ((4 : ℕ) : ℝ) / 2 + 1 ≤ (3 : ℕ) ∧ (4 : ℕ) ≤ 4 := by norm_num

theorem witness_UnitPitchRemapsEachBinToItself :
    midFrame.stream.P = Config.NUM.one ∧ Geometry midFrame.stream ∧ AnalysisPresent midFrame.stream ∧
    midFrame.stream.anaMagn[2]? = some Config.NUM.one ∧ midFrame.stream.anaFreq[2]? = some Config.NUM.two ∧
    midFrame.stream.H < 3 ∧ 3 < midFrame.stream.F :=
  ⟨rfl, { freshStream_running.toGeometry with }, ⟨rfl, rfl⟩, rfl, rfl, by decide, by decide⟩

theorem witness_RealPhaseIncrementIsOneHop :
    0 < realStream.F ∧ realStream.S * realStream.O = realStream.F ∧ 0 < realStream.SR ∧
    realStream.FPB = numReal.div realStream.SR (numReal.num realStream.F) ∧
    realStream.EXPCT = numReal.div (numReal.mul numReal.twoPi (numReal.num realStream.S)) (numReal.num realStream.F) :=
  ⟨by decide, by decide, (by norm_num : (0 : ℝ) < 8), rfl, rfl⟩

theorem witness_UnitPitchKeepsPhaseIdentity :
    Running realStream ∧ realStream.FPB ≠ 0 ∧ realStream.P = 1 ∧
    ∀ k ≤ realStream.H, ∃ z : ℤ,
      memRead numReal realStream.sumPhase k - memRead numReal realStream.lastPhase k = 2 * Real.pi * z :=
  ⟨realStream_running, by rw [realStream_FPB]; norm_num, rfl, fun k _ => ⟨0, by
    show memRead numReal (List.replicate 3 numReal.zero) k - memRead numReal (List.replicate 3 numReal.zero) k = _
    simp⟩⟩

theorem witness_UnitPitchFrameClosedForm :
    Running realStream ∧ realStream.FPB ≠ 0 ∧ realStream.P = 1 ∧
    (∀ k ≤ realStream.H, ∃ z : ℤ,
      memRead numReal realStream.sumPhase k - memRead numReal realStream.lastPhase k = 2 * Real.pi * z) ∧
    1 < realStream.S ∧ 1 + realStream.S < realStream.F :=
  ⟨witness_UnitPitchKeepsPhaseIdentity.1, witness_UnitPitchKeepsPhaseIdentity.2.1, witness_UnitPitchKeepsPhaseIdentity.2.2.1,
    witness_UnitPitchKeepsPhaseIdentity.2.2.2, by decide, by decide⟩

/-- The real numbers with words: the word of zeros is 0, every other 1. -/
noncomputable def realWords : NumInst ℝ where
  toNumOps := numReal
  decode w := if w = 0 then 0 else 1
  encode _ := 0

theorem witness_SilenceStaysSilent :
    ExactZero realWords.toNumOps ∧ realWords.decode 0x00000000 = realWords.zero ∧ 1 ≤ 1 ∧ 12 ≤ 12 ∧ 0 ≤ 1 := by
  have hz : numReal.zero = 0 := by simp [NumOps.zero, numReal]
  refine ⟨?_, by simp [realWords, hz], le_rfl, le_rfl, by decide⟩
  show ExactZero numReal
  refine ⟨?_, ?_, ?_, ?_, ?_, ?_, ?_, ?_⟩
  · rw [hz]; simp [numReal]
  · rw [hz]; simp [numReal]
  · intro a; rw [hz]; simp [numReal]
  · intro a; rw [hz]; simp [numReal]
  · intro a _; rw [hz]; simp [numReal]
  · rw [hz]; simp [numReal]
  · rw [hz]
    show Complex.arg (⟨0, 0⟩ : ℂ) = 0
    exact Complex.arg_zero
  · intro i hi _
    rw [hz]
    show ((i : ℤ) : ℝ) ≠ 0
    have : i ≠ 0 := by omega
    exact_mod_cast this

theorem witness_FirstHopIsZero :
    configured.mode = .config ∧ exec .start configured = .next (respond 0x04 [] running) ∧
    (respond 0x04 [] running).mode = .run ∧ 1 < ([5, 6, 7] : List Word).length ∧ 1 < (respond 0x04 [] running).stream.S :=
  ⟨rfl, test_start_accepted, rfl, by decide, by decide⟩

theorem witness_CursorAndWindowSchedule :
    configured.mode = .config ∧ exec .start configured = .next (respond 0x04 [] running) ∧
    (respond 0x04 [] running).mode = .run ∧
    2 < (respond 0x04 [] running).stream.L + ([5, 6, 7] : List Word).length % (respond 0x04 [] running).stream.S :=
  ⟨rfl, test_start_accepted, rfl, by decide⟩

/-- Two inputs that agree on the first hop only, and an output of the second hop. -/
theorem witness_OutputDependsOnEarlierHops :
    configured.mode = .config ∧ exec .start configured = .next (respond 0x04 [] running) ∧
    (respond 0x04 [] running).mode = .run ∧ 3 < ([5, 6, 7, 8] : List Word).length ∧ 3 < ([5, 6, 1, 2, 3] : List Word).length ∧
    ([5, 6, 7, 8] : List Word).take (3 / (respond 0x04 [] running).stream.S * (respond 0x04 [] running).stream.S) =
      ([5, 6, 1, 2, 3] : List Word).take (3 / (respond 0x04 [] running).stream.S * (respond 0x04 [] running).stream.S) :=
  ⟨rfl, test_start_accepted, rfl, by decide, by decide, by decide⟩

theorem witness_DecodeInvertsEncode :
    WellFormed (.push 5) = true ∧ encode (.push 5) = .words [0x05000000, 5] := by decide

theorem witness_IllegalWordsAreRefused :
    ({ State.reset with cmd := [.word 0x08000000, .rst] } : State).uop = 0 ∧
    ({ State.reset with cmd := [.word 0x08000000, .rst] } : State).cmd = .word 0x08000000 :: [.rst] ∧
    decodeHeader 0x08000000 = none := by decide

theorem witness_OperandCountByWordAlone :
    decodeHeader 0x08000000 = none ∧ decodeHeader 0x06000002 ≠ none ∧ ([1] : List Word).length < nops 0x06000002 ∧
    nops 0x06000002 ≤ ([1, 2] : List Word).length := by decide

theorem witness_StepRunsDecodedCommand :
    ({ State.reset with cmd := [.word 0x05000000, .word 5, .rst] } : State).uop = 0 ∧ WellFormed (.push 5) = true ∧
    encode (.push 5) = .words [0x05000000, 5] ∧
    ({ State.reset with cmd := [.word 0x05000000, .word 5, .rst] } : State).cmd =
      [0x05000000, 5].map HostInput.word ++ [.rst] := by decide

theorem witness_StepRunsMicroOperation :
    ({ running with uop := 0xB } : State).uop ≠ 0 ∧ decodeMicro 0xB = some .uInShift ∧ decodeMicro 0x1 = some .uWindow ∧
    0xC ≤ ({ running with uop := 0xC } : State).uop.toNat := by decide

theorem witness_StepWaitsForWords :
    State.reset.uop = 0 ∧ State.reset.cmd = [] ∧
    ({ State.reset with cmd := [.word 0x06000002, .word 5] } : State).cmd = [0x06000002, 5].map HostInput.word ∧
    ([5] : List Word).length < nops 0x06000002 := by decide

theorem witness_StepTakesHardwareReset :
    ({ running with cmd := [.rst, .word 0] } : State).uop = 0 ∧
    ({ running with cmd := [.rst, .word 0] } : State).cmd = .rst :: [.word 0] ∧
    ({ running with cmd := [.word 0x05000000, .rst, .word 0] } : State).cmd =
      [0x05000000].map HostInput.word ++ .rst :: [.word 0] ∧ ([] : List Word).length < nops 0x05000000 := by decide

theorem witness_MicroSteppedFrameIsTheFrame :
    ({ running with uop := 1 } : State).uop = 1 ∧ Running ({ running with uop := 1 } : State).stream :=
  ⟨rfl, freshStream_running⟩

theorem witness_StepKeepsInvariant : Invariant running ∧ step running = .next running := ⟨running_invariant, rfl⟩

theorem witness_InvariantStepsComplete : Invariant running := running_invariant

theorem witness_ModeChangesOnlyByStartAndReset :
    (exec .start configured = .next (respond 0x04 [] running) ∧ configured.mode = .config ∧
      (respond 0x04 [] running).mode = .run) ∧
    exec .reset running = .next (respond 0x01 [] (resetTransition running)) ∧ running.mode = .run ∧
    (respond 0x01 [] (resetTransition running)).mode = .config :=
  ⟨⟨test_start_accepted, rfl, rfl⟩, rfl, rfl, rfl⟩

theorem witness_OneResponsePerCommand :
    (WellFormed .nop = true ∧ encode .nop = .words [0x00000000] ∧ exec .nop running = .next (respond 0x00 [] running)) ∧
    ({ running with cmd := [.word 0x08000000] } : State).uop = 0 ∧
    ({ running with cmd := [.word 0x08000000] } : State).cmd = [.word 0x08000000] ∧ decodeHeader 0x08000000 = none :=
  ⟨⟨rfl, by decide, rfl⟩, rfl, rfl, by decide⟩

theorem witness_MicroOperationsTouchOnlyArrays :
    encode .uWindow = .code 0x1 ∧ ∃ t, exec .uWindow running = .next t :=
  ⟨rfl, _, onStream_of_ok (s := running)
    ((windowStream_eq_ok (st := running.stream) Config.NUM.toNumOps).2 ⟨rfl, rfl⟩)⟩

theorem witness_ConfigurationLockedInRun :
    running.mode = .run ∧ step { running with cmd := [.word 0] } = .next (respond 0x00 [] running) ∧
    (respond 0x00 [] running).mode = .run := ⟨rfl, rfl, rfl⟩

theorem witness_ErrorRecordChangesNoCommand : Instr.rdcfg 0x0001 ≠ .rdcfg 0x0000 := by decide

theorem witness_FirstErrorWins :
    Instr.nop ≠ .reset ∧ Instr.nop ≠ .clrerr ∧
    exec (.push 0) { State.reset with err := true, errcode := 4 } =
      .next (refuse 0x05 .notStarted { State.reset with err := true, errcode := 4 }) ∧
    exec (.push 0) State.reset = .next (refuse 0x05 .notStarted State.reset) ∧ State.reset.err = false :=
  ⟨by decide, by decide, rfl, rfl, rfl⟩

theorem witness_ProcessBlocksCarryTheInput : Instr.block [5, 6] ∈ blocks 2 [5, 6] := by decide

theorem witness_ConfigureFromResetStartsStream :
    1 ≤ 12 ∧ (4096 : Word).toNat = 2 ^ 12 ∧ (4096 : Word).toNat ∣ 2 ^ 12 ∧
    Config.NUM.isFinite (Config.NUM.decode 0x3F800000) = true ∧
    Config.NUM.lt (Config.NUM.decode 0x3F800000) Config.NUM.half = false ∧
    Config.NUM.lt Config.NUM.two (Config.NUM.decode 0x3F800000) = false ∧
    Config.NUM.isFinite (Config.NUM.decode 0x41000000) = true ∧
    Config.NUM.le (Config.NUM.decode 0x41000000) Config.NUM.zero = false :=
  ⟨by decide, by decide, by decide, pitch_in_range.1, pitch_in_range.2.1, pitch_in_range.2.2, rate_in_range.1, rate_in_range.2⟩

/-- 43 R188, `P = 1.5`, `H = 4`: bin 3 is kept (target 4), bin 4 is dropped (target 6). -/
theorem test_targets_kept_and_dropped :
    targetKept 4 (remapTarget numReal (3 / 2) 3) = true ∧ targetKept 4 (remapTarget numReal (3 / 2) 4) = false := by
  have h3 : remapTarget numReal (3 / 2) 3 = 4 := by
    show ⌊((3 : ℤ) : ℝ) * (3 / 2)⌋ = 4
    rw [Int.floor_eq_iff]; norm_num
  have h4 : remapTarget numReal (3 / 2) 4 = 6 := by
    show ⌊((4 : ℤ) : ℝ) * (3 / 2)⌋ = 6
    rw [Int.floor_eq_iff]; norm_num
  rw [h3, h4]; decide

end Sys2Proof.Tests
end

section
/-! Which configurations `START` accepts, and the stream an accepted one makes (spec/46_host_commands.md R231). -/

namespace Sys2Proof.Proofs

open Sys2Proof.Machine

variable {α : Type} (N : NumOps α)

/-! ## The checks of `START` -/

/-- The bit test of R231: a word that shares no bit with its predecessor is a power of two. -/
theorem frame_power_of_two_iff (w : Word) : (w ≠ 0 ∧ w &&& (w - 1) = 0) ↔ ∃ n, w.toNat = 2 ^ n := by
  have hlt := w.isLt
  have hzero : w ≠ 0 ↔ w.toNat ≠ 0 := BitVec.toNat_inj.symm.not
  rw [← Nat.isPowerOfTwo, ← Nat.ne_zero_and_sub_one_eq_zero_iff_isPowerOfTwo, hzero, ← BitVec.toNat_inj, BitVec.toNat_and]
  refine and_congr_right fun hpos => ?_
  have hpred : (w - 1).toNat = w.toNat - 1 := by
    rw [BitVec.toNat_sub]
    show (2 ^ 32 - 1 + w.toNat) % 2 ^ 32 = _
    omega
  rw [hpred]
  rfl

/-- `PITCH` in range: finite and from 0.5 to 2 (R231). -/
def PitchInRange (p : α) : Prop := N.isFinite p = true ∧ N.lt p N.half = false ∧ N.lt N.two p = false

/-- `RATE` in range: finite and above zero (R231). -/
def RateInRange (sr : α) : Prop := N.isFinite sr = true ∧ N.le sr N.zero = false

/-- A frame size and an oversampling factor in range: a power of two within the limits and a divisor of it (R231). -/
def FrameAndOsampInRange (f o : Nat) : Prop := (∃ n, 1 ≤ n ∧ n ≤ 12 ∧ f = 2 ^ n) ∧ o ∣ f

theorem two_pow_in_limits_iff (n : Nat) : (2 ≤ 2 ^ n ∧ 2 ^ n ≤ 4096) ↔ (1 ≤ n ∧ n ≤ 12) := by
  have h1 : 2 ≤ 2 ^ n ↔ 1 ≤ n := Nat.pow_le_pow_iff_right (a := 2) (n := 1) (by decide)
  have h2 : 2 ^ n ≤ 4096 ↔ n ≤ 12 := Nat.pow_le_pow_iff_right (a := 2) (m := 12) (by decide)
  rw [h1, h2]

/-- The integer checks of `START`, in their order, all pass exactly for a frame size and an oversampling factor in range. -/
theorem integer_checks_iff (frame osamp : Word) :
    (¬(frame = 0 ∨ frame &&& (frame - 1) ≠ 0) ∧
      ¬(frame.toNat < Config.minFrame ∨ frame.toNat > Config.maxFrame) ∧
      ¬(osamp.toNat < 1 ∨ osamp.toNat > frame.toNat) ∧ ¬frame.toNat % osamp.toNat ≠ 0) ↔
    FrameAndOsampInRange frame.toNat osamp.toNat := by
  have hpow : ¬(frame = 0 ∨ frame &&& (frame - 1) ≠ 0) ↔ ∃ n, frame.toNat = 2 ^ n := by
    rw [← frame_power_of_two_iff, not_or, not_not]
  rw [hpow, not_ne_iff, ← Nat.dvd_iff_mod_eq_zero]
  show (_ ∧ ¬(frame.toNat < 2 ∨ frame.toNat > 4096) ∧ _) ↔ _
  constructor
  · rintro ⟨⟨n, hn⟩, hlim, -, hdvd⟩
    rw [hn] at hlim
    obtain ⟨h1, h12⟩ := (two_pow_in_limits_iff n).1 (by omega)
    exact ⟨⟨n, h1, h12, hn⟩, hdvd⟩
  · rintro ⟨⟨n, h1, h12, hn⟩, hdvd⟩
    have hlim := (two_pow_in_limits_iff n).2 ⟨h1, h12⟩
    rw [← hn] at hlim
    have hle := Nat.le_of_dvd (by omega) hdvd
    have hpos := Nat.pos_of_dvd_of_pos hdvd (by omega)
    exact ⟨⟨n, hn⟩, by omega, by omega, hdvd⟩

theorem pitch_check_iff (p : α) :
    ¬(¬N.isFinite p = true ∨ N.lt p N.half = true ∨ N.lt N.two p = true) ↔ PitchInRange N p := by
  simp [PitchInRange]

theorem rate_check_iff (sr : α) : ¬(¬N.isFinite sr = true ∨ N.le sr N.zero = true) ↔ RateInRange N sr := by
  simp [RateInRange]

/-- One check of a chain passes, and so does the rest of the chain. -/
theorem check_eq_none_iff {c : Prop} [Decidable c] {code : Status} {rest : Option Status} :
    (if c then some code else rest) = none ↔ ¬c ∧ rest = none := by
  split_ifs with h <;> simp [h]

/-- `START` refuses nothing exactly when every register is in range (R231). -/
theorem startRefusal_eq_none_iff (frame osamp : Word) (p sr : α) :
    startRefusal N frame osamp p sr = none ↔
      FrameAndOsampInRange frame.toNat osamp.toNat ∧ PitchInRange N p ∧ RateInRange N sr := by
  simp only [startRefusal, check_eq_none_iff, pitch_check_iff, rate_check_iff, ← integer_checks_iff, and_true, and_assoc]

/-- A refusal of `START` is never the status `OK`. -/
theorem startRefusal_ne_ok {frame osamp : Word} {p sr : α} {c : Status}
    (h : startRefusal N frame osamp p sr = some c) : c ≠ .ok := by
  rintro rfl
  simp only [startRefusal] at h
  split_ifs at h <;> cases h

/-! ## The fresh stream -/

theorem mul_half_two_pow {n : Nat} (h : 1 ≤ n) : 2 * (2 ^ n / 2) = 2 ^ n :=
  Nat.mul_div_cancel' (dvd_pow_self 2 (by omega))

/-- A configuration in range makes a running stream (00_scope.md R11). -/
theorem startStream_running {n o : Nat} (p sr : α) (old : Stream α) (h1 : 1 ≤ n) (h12 : n ≤ 12) (ho : o ∣ 2 ^ n) :
    Running (startStream N (2 ^ n) o p sr old) := by
  have hlim : 2 ≤ 2 ^ n ∧ 2 ^ n ≤ 4096 := (two_pow_in_limits_iff n).2 ⟨h1, h12⟩
  have hhop : 2 ^ n / o * o = 2 ^ n := Nat.div_mul_cancel ho
  have hle : 2 ^ n / o ≤ 2 ^ n := Nat.div_le_self _ _
  have hpos : 0 < 2 ^ n / o := Nat.pos_of_mul_pos_right (hhop ▸ Nat.two_pow_pos n)
  have hrover : (startStream N (2 ^ n) o p sr old).rover.toNat = 2 ^ n - 2 ^ n / o := rover_ofNat (by omega)
  exact {
    frame_pow := by show 2 ^ n = 2 ^ Nat.log2 (2 ^ n); rw [Nat.log2_two_pow]
    frame_min := hlim.1
    frame_max := hlim.2
    hop := hhop
    latency := Nat.sub_add_cancel hle
    half := mul_half_two_pow h1
    rover_low := hrover.ge
    rover_high := by rw [hrover]; show _ < 2 ^ n; omega
    inputFIFO_length := List.length_replicate
    outputFIFO_length := List.length_replicate
    outputAccumulator_length := List.length_replicate
    spectrum_length := List.length_replicate
    lastPhase_length := List.length_replicate
    sumPhase_length := List.length_replicate }

/-! ## The command -/

/-- `START` in CONFIG mode on registers in range (R231): the fresh stream, RUN mode and the answer `OK`. -/
theorem execStart_of_in_range {s : State} (hm : s.mode = .config)
    (hfo : FrameAndOsampInRange s.frame.toNat s.osamp.toNat) (hp : PitchInRange Config.NUM.toNumOps (Config.NUM.decode s.pitch))
    (hr : RateInRange Config.NUM.toNumOps (Config.NUM.decode s.rate)) :
    execStart s = .next (respond 0x04 []
      { s with
        mode := .run
        stream := startStream Config.NUM.toNumOps s.frame.toNat s.osamp.toNat (Config.NUM.decode s.pitch)
          (Config.NUM.decode s.rate) s.stream }) := by
  simp only [execStart, hm, (startRefusal_eq_none_iff _ _ _ _ _).2 ⟨hfo, hp, hr⟩]

/-- Settles O8: the checks pass, and the fresh stream has the invariants. -/
theorem startEstablishesRunningStream : Obligations.StartEstablishesRunningStream := by
  intro s n hmode h1 h12 hframe hosamp hfin hlow hhigh hrfin hrpos
  have hstart := execStart_of_in_range hmode ⟨⟨n, h1, h12, hframe⟩, hframe ▸ hosamp⟩ ⟨hfin, hlow, hhigh⟩ ⟨hrfin, hrpos⟩
  have hrun := startStream_running Config.NUM.toNumOps (Config.NUM.decode s.pitch) (Config.NUM.decode s.rate) s.stream
    h1 h12 hosamp
  obtain ⟨m, hm, ho⟩ := (Nat.dvd_prime_pow Nat.prime_two).1 hosamp
  rw [hframe] at hstart
  exact ⟨_, hstart, hrun, Nat.log2_two_pow, rfl, hrun.toGeometry.hop_pos, ⟨m, hm, ho⟩, fun _ => List.eq_of_mem_replicate,
    fun _ => List.eq_of_mem_replicate, fun _ => List.eq_of_mem_replicate, fun _ => List.eq_of_mem_replicate,
    fun _ => List.eq_of_mem_replicate, fun _ => List.eq_of_mem_replicate⟩

end Sys2Proof.Proofs
end

section
/-! The reference arithmetic `NUM_REAL` (spec/00_scope.md R12) has what the spec asks of a `NUM`. -/

namespace Sys2Proof.Proofs

open Sys2Proof.Machine Sys2Proof.Laws

/-! ## The operations of `NUM_REAL` -/

@[simp] theorem numReal_num (i : ℤ) : numReal.num i = (i : ℝ) := rfl
@[simp] theorem numReal_add (a b : ℝ) : numReal.add a b = a + b := rfl
@[simp] theorem numReal_sub (a b : ℝ) : numReal.sub a b = a - b := rfl
@[simp] theorem numReal_mul (a b : ℝ) : numReal.mul a b = a * b := rfl
@[simp] theorem numReal_div (a b : ℝ) : numReal.div a b = a / b := rfl
@[simp] theorem numReal_sqrt (a : ℝ) : numReal.sqrt a = Real.sqrt a := rfl
@[simp] theorem numReal_atan2 (y x : ℝ) : numReal.atan2 y x = Complex.arg ⟨x, y⟩ := rfl
@[simp] theorem numReal_floor (a : ℝ) : numReal.floor a = ⌊a⌋ := rfl
@[simp] theorem numReal_isFinite (a : ℝ) : numReal.isFinite a = true := rfl
@[simp] theorem numReal_lt (a b : ℝ) : numReal.lt a b = true ↔ a < b := by simp [numReal]
@[simp] theorem numReal_le (a b : ℝ) : numReal.le a b = true ↔ a ≤ b := by simp [numReal]

@[simp] theorem numReal_zero : numReal.zero = 0 := Int.cast_zero
@[simp] theorem numReal_one : numReal.one = 1 := Int.cast_one
@[simp] theorem numReal_two : numReal.two = 2 := by simp [NumOps.two]
@[simp] theorem numReal_half : numReal.half = 1 / 2 := by simp [NumOps.half]

/-! ## Its bus words -/

/-- A word that is a number, settled or not, stands for the value of its pattern. -/
theorem realOfWord_of_pattern {w : Word} {q : ℚ} (h : binary32Value w = some q) : realOfWord w = q := by
  rw [realOfWord, h]

/-- NUM-WORD: the bus word of a value that some word stands for stands for that value again, whichever of its three choices
`wordOfReal` takes. -/
theorem realOfWord_wordOfReal {a : ℝ} (h : ∃ w, realOfWord w = a) : realOfWord (wordOfReal a) = a := by
  by_cases settled : ∃ w, ∃ q : ℚ, settledValue w = some q ∧ (q : ℝ) = a
  · rw [wordOfReal, dif_pos settled]
    obtain ⟨q, hq, hv⟩ := Classical.choose_spec settled
    rw [realOfWord_of_settled hq, hv]
  · by_cases pattern : ∃ w, ∃ q : ℚ, binary32Value w = some q ∧ (q : ℝ) = a
    · rw [wordOfReal, dif_neg settled, dif_pos pattern]
      obtain ⟨q, hq, hv⟩ := Classical.choose_spec pattern
      rw [realOfWord_of_pattern hq, hv]
    · rw [wordOfReal, dif_neg settled, dif_neg pattern, dif_pos h]
      exact Classical.choose_spec h

/-! ## The laws, the guard and the binding -/

/-- The laws of 00_scope.md R13; nothing overflows because every real number is finite. -/
theorem numRealWords_laws : NumLaws numRealWords fun _ _ _ => false where
  zero_add_zero := .inl (by simp)
  zero_sub_zero := .inl (by simp)
  zero_mul _ _ := .inl (by simp)
  mul_zero _ _ := .inl (by simp)
  zero_div _ _ _ := .inl (by simp)
  sqrt_zero := .inl (by simp)
  atan2_zero := .inl (by
    rw [numRealWords_toNumOps, numReal_zero]
    exact Complex.arg_zero)
  num_inj i j _ _ h := by simpa using h
  floor_num i _ := by simp
  num_mul_one i _ := by simp
  decode_zero := by
    rw [numRealWords_decode, realOfWord_of_settled settledValue_zero, numRealWords_toNumOps, numReal_zero, Rat.cast_zero]
  decode_encode w := by
    rw [numRealWords_decode, numRealWords_decode, numRealWords_encode, realOfWord_wordOfReal ⟨w, rfl⟩]
  finite_result _ _ _ _ _ _ := by simp

/-- 93_implementation_defined.md U2 asks nothing here: there is no non-finite real number. -/
theorem numRealWords_guard : FloorGuard numRealWords.toNumOps := fun a h => by simp at h

/-- The default binding of 00_scope.md R14. -/
theorem numRealWords_binding : DefaultBinding numRealWords where
  finite _ _ _ := by simp
  lt_value v w p q hv hw := by simp [realOfWord_of_settled hv, realOfWord_of_settled hw]
  le_value v w p q hv hw := by simp [realOfWord_of_settled hv, realOfWord_of_settled hw]
  integer w i _ h := by simp [realOfWord_of_settled h]
  half := by
    rw [numRealWords_decode, realOfWord_of_settled settledValue_half, numRealWords_toNumOps, numReal_half]
    norm_num
  encode_word w q h := by
    rw [numRealWords_decode, numRealWords_encode, realOfWord_of_settled h, wordOfReal_of_settled h]

/-- Settles O60. -/
theorem referenceInstanceMeetsLaws : Obligations.ReferenceInstanceMeetsLaws :=
  ⟨numRealWords_laws, numRealWords_guard, numRealWords_binding⟩

end Sys2Proof.Proofs
end

section
/-!
Silence (spec/95_test_vectors.md T1): in an arithmetic that keeps zero exactly, every operation makes zero arrays of zero arrays,
so a stream fed with zero samples answers zeros and stays as `START` made it.
-/

namespace Sys2Proof.Proofs

open Sys2Proof.Machine

variable {α : Type} {N : NumOps α}

/-! ## Zero arrays -/

/-- Every element of an array is `ZERO`. -/
def AllZero (N : NumOps α) (A : List α) : Prop := ∀ x ∈ A, x = N.zero

theorem AllZero.replicate (n : Nat) : AllZero N (List.replicate n N.zero) := fun _ => List.eq_of_mem_replicate

theorem AllZero.map_range {n : Nat} {f : Nat → α} (h : ∀ k, f k = N.zero) : AllZero N ((List.range n).map f) := fun x hx => by
  obtain ⟨k, -, rfl⟩ := List.mem_map.1 hx
  exact h k

theorem AllZero.memRead {A : List α} (h : AllZero N A) (i : Nat) : memRead N A i = N.zero := by
  by_cases hi : i < A.length
  · rw [Machine.memRead, List.getD_eq_getElem _ _ hi]
    exact h _ (List.getElem_mem hi)
  · exact List.getD_eq_default _ _ (by omega)

theorem AllZero.complexRead {X : List α} (h : AllZero N X) (k : Nat) : complexRead N X k = (N.zero, N.zero) := by
  rw [Machine.complexRead, h.memRead, h.memRead]

theorem AllZero.memWrite {A : List α} (h : AllZero N A) (i : Nat) {v : α} (hv : v = N.zero) : AllZero N (memWrite A i v) :=
  fun x hx => (List.mem_or_eq_of_mem_set hx).elim (h x) (·.trans hv)

theorem AllZero.complexWrite {X : List α} (h : AllZero N X) (k : Nat) {v : α × α} (hv : v = (N.zero, N.zero)) :
    AllZero N (complexWrite X k v) := by
  subst hv
  exact (h.memWrite _ rfl).memWrite _ rfl

theorem AllZero.loop {n : Nat} {body : Nat → List α → List α} {A : List α} (h : AllZero N A)
    (hbody : ∀ k B, AllZero N B → AllZero N (body k B)) : AllZero N (loop n body A) :=
  loop_induct (fun _ B => AllZero N B) h fun k B _ => hbody k B

theorem AllZero.shiftDown {A : List α} (h : AllZero N A) (cnt hop : Nat) : AllZero N (shiftDown N cnt hop A) :=
  h.loop fun _ _ hB => hB.memWrite _ (hB.memRead _)

/-! ## The array operations -/

theorem AllZero.windowArray (hz : ExactZero N) (F : Nat) {input : List α} (h : AllZero N input) :
    AllZero N (windowArray N F input) := fun x hx => by
  obtain ⟨k, -, hk⟩ := List.mem_flatMap.1 hx
  rw [h.memRead, hz.zero_mul] at hk
  simpa using hk

theorem AllZero.bitrevPass {X : List α} (h : AllZero N X) (F n : Nat) : AllZero N (bitrevPass N F n X) :=
  h.loop fun i B hB => by
    split
    · exact (hB.complexWrite _ (hB.complexRead _)).complexWrite _ (hB.complexRead _)
    · exact hB

theorem twiddled_zero (hz : ExactZero N) (u : α × α) : twiddled N (N.zero, N.zero) u = (N.zero, N.zero) := by
  simp [twiddled, hz.zero_mul, hz.zero_add, hz.zero_sub]

theorem AllZero.butterfly (hz : ExactZero N) {X : List α} (h : AllZero N X) (d : Nat) (u : α × α) (i : Nat) :
    AllZero N (butterfly N d u i X) := by
  simp only [Machine.butterfly, h.complexRead, twiddled_zero hz, hz.zero_add, hz.zero_sub]
  exact (h.complexWrite _ rfl).complexWrite _ rfl

theorem AllZero.fftStage (hz : ExactZero N) (dir : Dir) (F d : Nat) {X : List α} (h : AllZero N X) :
    AllZero N (fftStage N dir F d X) :=
  loop_induct (fun _ (Xu : List α × α × α) => AllZero N Xu.1) h fun _ _ _ hXu => hXu.loop fun _ _ hB => hB.butterfly hz _ _ _

theorem AllZero.fftArray (hz : ExactZero N) (dir : Dir) (F n : Nat) {X : List α} (h : AllZero N X) :
    AllZero N (fftArray N dir F n X) :=
  (h.bitrevPass F n).loop fun _ _ hB => hB.fftStage hz _ _ _

theorem magnitude_zero (hz : ExactZero N) : magnitude N (N.zero, N.zero) = N.zero := by
  simp [magnitude, hz.mul_zero, hz.zero_add, hz.sqrt_zero]

theorem polar_zero (hz : ExactZero N) (ph : α) : polar N N.zero ph = (N.zero, N.zero) := by
  simp [polar, hz.zero_mul]

/-- The magnitudes scattered from zero magnitudes are zero; the frequencies need not be. -/
theorem AllZero.remapArrays (hz : ExactZero N) (F H : Nat) (P : α) {anaMagn : List α} (h : AllZero N anaMagn)
    (anaFreq : List α) : AllZero N (remapArrays N F H P anaMagn anaFreq).1 := by
  refine loop_induct (fun _ (syn : List α × List α) => AllZero N syn.1) (.replicate F) fun k syn _ hsyn => ?_
  simp only [scatter]
  split
  · exact hsyn.memWrite _ (by rw [hsyn.memRead, h.memRead, hz.zero_add])
  · exact hsyn

theorem olaIncrement_zero (hz : ExactZero N) (F H O : Nat) {X : List α} (h : AllZero N X)
    (hscale : N.num (H * O : Nat) ≠ N.zero) (k : Nat) : olaIncrement N F H O X k = N.zero := by
  rw [olaIncrement, h.memRead, hz.mul_zero, hz.zero_div _ hscale]

theorem AllZero.accShiftArray {A : List α} (h : AllZero N A) (F S : Nat) : AllZero N (accShiftArray N F S A) :=
  (h.shiftDown _ _).loop fun _ _ hB => hB.memWrite _ rfl

/-! ## The frame -/

/-- A silent stream: the FIFOs, the accumulator and the phase tracker of the analysis are zero (T1). The scale of the
overlap-add, by which its zeros are divided, is not. -/
structure Silent (N : NumOps α) (st : Stream α) : Prop where
  scale : N.num (st.H * st.O : Nat) ≠ N.zero
  input : AllZero N st.inputFIFO
  output : AllZero N st.outputFIFO
  accumulator : AllZero N st.outputAccumulator
  tracker : AllZero N st.lastPhase

theorem windowStream_silent (hz : ExactZero N) {st st' : Stream α} (hst : windowStream N st = .ok st') (h : Silent N st) :
    Silent N st' ∧ AllZero N st'.spectrum := by
  obtain ⟨-, rfl⟩ := (windowStream_eq_ok N).1 hst
  exact ⟨{ h with }, h.input.windowArray hz _⟩

theorem fftStream_silent (hz : ExactZero N) {dir : Dir} {st st' : Stream α} (hst : fftStream N dir st = .ok st')
    (h : Silent N st) (hX : AllZero N st.spectrum) : Silent N st' ∧ AllZero N st'.spectrum := by
  obtain ⟨-, rfl⟩ := (fftStream_eq_ok N).1 hst
  exact ⟨{ h with }, hX.fftArray hz _ _ _⟩

theorem analyzeStream_silent (hz : ExactZero N) {st st' : Stream α} (hst : analyzeStream N st = .ok st')
    (h : Silent N st) (hX : AllZero N st.spectrum) :
    Silent N st' ∧ AllZero N st'.spectrum ∧ AllZero N st'.anaMagn := by
  obtain ⟨-, rfl⟩ := (analyzeStream_eq_ok N).1 hst
  have hphase (k : Nat) : phase N (complexRead N st.spectrum k) = N.zero := by rw [hX.complexRead]; exact hz.atan2_zero
  exact ⟨{ h with tracker := .map_range hphase }, hX, .map_range fun k => by rw [hX.complexRead, magnitude_zero hz]⟩

theorem remapStream_silent (hz : ExactZero N) {st st' : Stream α} (hst : remapStream N st = .ok st')
    (h : Silent N st) (hX : AllZero N st.spectrum) (hm : AllZero N st.anaMagn) :
    Silent N st' ∧ AllZero N st'.spectrum ∧ AllZero N st'.synMagn := by
  obtain ⟨-, rfl⟩ := (remapStream_eq_ok N).1 hst
  exact ⟨{ h with }, hX, hm.remapArrays hz _ _ _ _⟩

theorem synthStream_silent (hz : ExactZero N) {st st' : Stream α} (hst : synthStream N st = .ok st')
    (h : Silent N st) (hX : AllZero N st.spectrum) (hm : AllZero N st.synMagn) :
    Silent N st' ∧ AllZero N st'.spectrum := by
  obtain ⟨-, rfl⟩ := (synthStream_eq_ok N).1 hst
  exact ⟨{ h with }, hX.loop fun k B hB => hB.complexWrite k (by rw [hm.memRead, polar_zero hz])⟩

theorem zeroNegStream_silent {st st' : Stream α} (hst : zeroNegStream N st = .ok st') (h : Silent N st)
    (hX : AllZero N st.spectrum) : Silent N st' ∧ AllZero N st'.spectrum := by
  obtain ⟨-, rfl⟩ := (zeroNegStream_eq_ok N).1 hst
  exact ⟨{ h with }, hX.loop fun _ _ hB => hB.complexWrite _ rfl⟩

theorem olaAddStream_silent (hz : ExactZero N) {st st' : Stream α} (hst : olaAddStream N st = .ok st')
    (h : Silent N st) (hX : AllZero N st.spectrum) : Silent N st' := by
  obtain ⟨-, rfl⟩ := (olaAddStream_eq_ok N).1 hst
  exact { h with
    accumulator := h.accumulator.loop fun k B hB =>
      hB.memWrite k (by rw [hB.memRead, olaIncrement_zero hz _ _ _ hX h.scale, hz.zero_add]) }

theorem drainStream_silent {st st' : Stream α} (hst : drainStream N st = .ok st') (h : Silent N st) : Silent N st' := by
  obtain ⟨-, rfl⟩ := (drainStream_eq_ok N).1 hst
  exact { h with output := h.output.loop fun k B hB => hB.memWrite k (h.accumulator.memRead k) }

theorem accShiftStream_silent {st st' : Stream α} (hst : accShiftStream N st = .ok st') (h : Silent N st) :
    Silent N st' := by
  obtain ⟨-, rfl⟩ := (accShiftStream_eq_ok N).1 hst
  exact { h with accumulator := h.accumulator.accShiftArray _ _ }

theorem inShiftStream_silent {st st' : Stream α} (hst : inShiftStream N st = .ok st') (h : Silent N st) :
    Silent N st' := by
  obtain ⟨-, rfl⟩ := (inShiftStream_eq_ok N).1 hst
  exact { h with input := h.input.shiftDown _ _ }

/-- A frame leaves a silent stream silent. -/
theorem frameStream_silent (hz : ExactZero N) {st st' : Stream α} (hst : frameStream N st = .ok st') (h : Silent N st) :
    Silent N st' := by
  obtain ⟨a, b, c, d, e, f, g, i, j, k, ha, hb, hc, hd, he, hf, hg, hi, hj, hk, hl⟩ := (frameStream_eq_ok N).1 hst
  obtain ⟨sa, xa⟩ := windowStream_silent hz ha h
  obtain ⟨sb, xb⟩ := fftStream_silent hz hb sa xa
  obtain ⟨sc, xc, mc⟩ := analyzeStream_silent hz hc sb xb
  obtain ⟨sd, xd, md⟩ := remapStream_silent hz hd sc xc mc
  obtain ⟨se, xe⟩ := synthStream_silent hz he sd xd md
  obtain ⟨sf, xf⟩ := zeroNegStream_silent hf se xe
  obtain ⟨sg, xg⟩ := fftStream_silent hz hg sf xf
  have si := olaAddStream_silent hz hi sg xg
  have sj := drainStream_silent hj si
  have sk := accShiftStream_silent hk sj
  exact inShiftStream_silent hl sk

/-! ## The samples -/

/-- A zero sample on a silent stream is answered by zero and leaves it silent. -/
theorem pushStream_silent (N : NumInst α) (hz : ExactZero N.toNumOps) (hw : N.decode 0 = N.zero) {st : Stream α}
    (hr : Running st) (h : Silent N.toNumOps st) :
    ∃ st', pushStream N 0 st = .ok (st', N.encode N.zero) ∧ Running st' ∧ Silent N.toNumOps st' := by
  have hs : Silent N.toNumOps (acceptSample N 0 st) := { h with input := h.input.memWrite _ hw }
  have hout : outputSample N st = N.encode N.zero := congrArg N.encode (h.output.memRead _)
  obtain ⟨st', hpush, hadv, hr', -⟩ := pushStream_running N 0 hr
  obtain ⟨st'', hadv', -, -, hcase⟩ := advanceStream_running N.toNumOps (acceptSample_running N 0 hr)
  obtain rfl : st' = st'' := Except.ok.inj (hadv.symm.trans hadv')
  refine ⟨st', hout ▸ hpush, hr', ?_⟩
  obtain ⟨-, rfl⟩ | ⟨-, hframe, -⟩ := hcase
  · exact { hs with }
  · exact frameStream_silent hz hframe { hs with }

/-- So are any number of them. -/
theorem blockStream_silent (N : NumInst α) (hz : ExactZero N.toNumOps) (hw : N.decode 0 = N.zero) (c : Nat) {st : Stream α}
    (hr : Running st) (h : Silent N.toNumOps st) :
    ∃ st', blockStream N (List.replicate c 0) st = .ok (st', List.replicate c (N.encode N.zero)) ∧
      Silent N.toNumOps st' := by
  induction c generalizing st with
  | zero => exact ⟨st, rfl, h⟩
  | succ c ih =>
    obtain ⟨st1, hpush, hr1, h1⟩ := pushStream_silent N hz hw hr h
    obtain ⟨st2, hblock, h2⟩ := ih hr1 h1
    refine ⟨st2, ?_, h2⟩
    rw [List.replicate_succ, blockStream_cons N hpush, hblock]
    rfl

/-- The scale of the overlap-add lies in the range where `NUM.num` is not `ZERO`: `H ≤ 2^11` and `O ≤ 2^12`. -/
theorem scale_ne_zero (hz : ExactZero N) {st : Stream α} (h : Geometry st) : N.num (st.H * st.O : Nat) ≠ N.zero := by
  have hhop := h.hop
  have hhalf := h.half
  have hmin : 2 ≤ st.F := h.frame_min
  have hmax : st.F ≤ 4096 := h.frame_max
  have hO : 0 < st.O := Nat.pos_of_mul_pos_left (by omega : 0 < st.S * st.O)
  have hOle : st.O ≤ st.F := hhop ▸ Nat.le_mul_of_pos_left _ h.hop_pos
  have hle : st.H * st.O ≤ 2 ^ 11 * 2 ^ 12 := Nat.mul_le_mul (by omega) (by omega)
  exact hz.num_ne_zero _ (Nat.mul_pos (by omega) hO) (hle.trans_eq (pow_add 2 11 12).symm)

/-- Settles O35: the stream that `START` makes is silent, and zero samples keep it so. -/
theorem silenceStaysSilent : Obligations.SilenceStaysSilent := by
  intro α N n m c p sr old hz hw h1 h12 hm
  have hr := startStream_running N.toNumOps p sr old h1 h12 (pow_dvd_pow 2 hm)
  have hs : Silent N.toNumOps (startStream N.toNumOps (2 ^ n) (2 ^ m) p sr old) :=
    { scale := scale_ne_zero hz hr.toGeometry
      input := .replicate _
      output := .replicate _
      accumulator := .replicate _
      tracker := .replicate _ }
  obtain ⟨st, hblock, h⟩ := blockStream_silent N hz hw c hr hs
  exact ⟨st, hblock, h.input, h.output, h.accumulator, h.tracker⟩

end Sys2Proof.Proofs
end

section
/-!
What every micro-operation, `PUSH` and `BLOCK` keeps of a stream in RUN mode: the invariant `RunInv` of Safety.lean, which
knows the next micro-operation, and the latched configuration (spec/10_state.md R21, R38, 45_overlap_add.md R214, R215).
-/

namespace Sys2Proof.Machine

/-! ## Zero ranges -/

section ZeroRanges

variable {α : Type} (N : NumOps α)

theorem zeroBetween_replicate {m lo hi : Nat} (h : hi ≤ m) : ZeroBetween N (List.replicate m N.zero) lo hi :=
  fun k _ hk => by simp [show k < m by omega]

theorem zeroBetween_iff_memRead {A : List α} {lo hi : Nat} (h : hi ≤ A.length) :
    ZeroBetween N A lo hi ↔ ∀ k, lo ≤ k → k < hi → memRead N A k = N.zero := by
  refine forall_congr' fun k => forall_congr' fun _ => forall_congr' fun hk => ?_
  rw [getElem?_eq_memRead N A (by omega), Option.some.injEq]

/-- A loop that writes the elements below `n` leaves the others alone. -/
theorem getElem?_loop_memWrite (n : Nat) (v : Nat → List α → α) (A : List α) {j : Nat} (h : n ≤ j) :
    (loop n (fun k B => memWrite B k (v k B)) A)[j]? = A[j]? :=
  loop_induct (fun _ B => B[j]? = A[j]?) rfl fun k B hk hB => by
    rw [memWrite, List.getElem?_set_ne (by omega), hB]

/-- The element `j` after the accumulator shift comes from `S` higher up, or is `ZERO` at the top (45 R213). -/
theorem memRead_accShiftArray {F S : Nat} {A : List α} (hA : A.length = 2 * F) (hS : S ≤ F) {j : Nat} (hj : j < 2 * F) :
    memRead N (accShiftArray N F S A) j = if j + S < 2 * F then memRead N A (j + S) else N.zero := by
  rw [accShiftArray, memRead_loop_write N _ (2 * F - S) S (fun _ => N.zero) (by simp; omega),
    memRead_shiftDown N _ _ _ (by omega)]
  by_cases h : j + S < 2 * F
  · rw [if_neg (by omega), if_pos (by omega), if_pos h]
  · rw [if_pos (by omega), if_neg h]

/-- The shift brings the zero upper half down: the accumulator is zero from `F − S` on (45 R214, R215). -/
theorem accShiftArray_zero {F S : Nat} {A : List α} (hA : A.length = 2 * F) (hS : S ≤ F)
    (h : ZeroBetween N A F (2 * F)) : ZeroBetween N (accShiftArray N F S A) (F - S) (2 * F) := by
  rw [zeroBetween_iff_memRead N (by simp [hA])]
  rw [zeroBetween_iff_memRead N (by omega)] at h
  intro k hlo hhi
  rw [memRead_accShiftArray N hA hS hhi]
  split
  · exact h _ (by omega) (by omega)
  · rfl

end ZeroRanges

/-! ## The micro-operations -/

variable {N : NumOps Num} {c : MicroCode} {st : Stream Num}

/-- The next code may be any that asks for no more scratch arrays and no zero tail that is not there. -/
theorem RunInv.recode (h : RunInv N c st) {c' : MicroCode} (ha : 0x3 < c'.toNat → 0x3 < c.toNat)
    (hs : 0x4 < c'.toNat → 0x4 < c.toNat) (ht : c' ≠ 0x9 → c' ≠ 0xA → c ≠ 0x9 ∧ c ≠ 0xA) : RunInv N c' st :=
  { h with
    analysis := h.analysis ∘ ha
    synthesis := h.synthesis ∘ hs
    tail_zero := fun h9 hA => h.tail_zero (ht h9 hA).1 (ht h9 hA).2 }

/-- What `START` with a configuration in range makes of a state without a stream (46 R231). -/
theorem startStream_runInv {f o : Nat} {p sr : Num} (h : Running (startStream N f o p sr State.reset.stream)) :
    RunInv N 0x0 (startStream N f o p sr State.reset.stream) :=
  { h with
    scratch := ⟨rfl, rfl, rfl, rfl⟩
    analysis := fun h => absurd h (by decide)
    synthesis := fun h => absurd h (by decide)
    upper_zero := zeroBetween_replicate N le_rfl
    tail_zero := fun _ _ => zeroBetween_replicate N (Nat.le_mul_of_pos_left f (by decide))
    output_zero := zeroBetween_replicate N le_rfl }

/-- The operation `f` of the code `c` completes, keeps the latched configuration, and leaves what holds at the next code. -/
def StageKeeps (N : NumOps Num) (c : MicroCode) (f : Stream Num → Except Fault (Stream Num)) : Prop :=
  ∀ st, RunInv N c st → ∃ st', f st = .ok st' ∧ RunInv N (nextCode c) st' ∧ SameLatched st st'

theorem windowStream_keeps : StageKeeps N 0x1 (windowStream N) := fun st h => by
  obtain ⟨st', hst, hr, hl, -⟩ := windowStream_running N h.toRunning
  refine ⟨st', hst, ?_, hl⟩
  obtain ⟨-, rfl⟩ := (windowStream_eq_ok N).1 hst
  exact RunInv.recode { h with toRunning := hr } (by decide) (by decide) (by decide)

/-- The transform runs twice in a frame, at the codes 0x2 and 0x7; what it asks of the code holds of both. -/
theorem fftStream_keeps (dir : Dir) (ha : 0x3 < (nextCode c).toNat → 0x3 < c.toNat)
    (hs : 0x4 < (nextCode c).toNat → 0x4 < c.toNat) (ht : c ≠ 0x9 ∧ c ≠ 0xA) : StageKeeps N c (fftStream N dir) :=
  fun st h => by
    obtain ⟨st', hst, hr, hl, -⟩ := fftStream_running N dir h.toRunning
    refine ⟨st', hst, ?_, hl⟩
    obtain ⟨-, rfl⟩ := (fftStream_eq_ok N).1 hst
    exact RunInv.recode { h with toRunning := hr } ha hs fun _ _ => ht

theorem analyzeStream_keeps : StageKeeps N 0x3 (analyzeStream N) := fun st h => by
  obtain ⟨st', hst, hr, hp, hl, -⟩ := analyzeStream_running N h.toRunning
  refine ⟨st', hst, ?_, hl⟩
  obtain ⟨-, rfl⟩ := (analyzeStream_eq_ok N).1 hst
  obtain ⟨-, -, hsynMagn, hsynFreq⟩ := h.scratch
  exact { h with
    toRunning := hr
    scratch := ⟨wf_of_length hp.1, wf_of_length hp.2, hsynMagn, hsynFreq⟩
    analysis := fun _ => hp
    synthesis := fun h => absurd h (by decide)
    tail_zero := fun _ _ => h.tail_zero (by decide) (by decide) }

theorem remapStream_keeps : StageKeeps N 0x4 (remapStream N) := fun st h => by
  obtain ⟨st', hst, hr, hp, hl, -⟩ := remapStream_running N h.toRunning (h.analysis (by decide))
  refine ⟨st', hst, ?_, hl⟩
  obtain ⟨-, rfl⟩ := (remapStream_eq_ok N).1 hst
  obtain ⟨hanaMagn, hanaFreq, -, -⟩ := h.scratch
  exact { h with
    toRunning := hr
    scratch := ⟨hanaMagn, hanaFreq, wf_of_length hp.1, wf_of_length hp.2⟩
    analysis := fun _ => h.analysis (by decide)
    synthesis := fun _ => hp
    tail_zero := fun _ _ => h.tail_zero (by decide) (by decide) }

theorem synthStream_keeps : StageKeeps N 0x5 (synthStream N) := fun st h => by
  obtain ⟨st', hst, hr, hl, -⟩ := synthStream_running N h.toRunning (h.synthesis (by decide))
  refine ⟨st', hst, ?_, hl⟩
  obtain ⟨-, rfl⟩ := (synthStream_eq_ok N).1 hst
  exact RunInv.recode { h with toRunning := hr } (by decide) (by decide) (by decide)

theorem zeroNegStream_keeps : StageKeeps N 0x6 (zeroNegStream N) := fun st h => by
  obtain ⟨st', hst, hr, hl, -⟩ := zeroNegStream_running N h.toRunning
  refine ⟨st', hst, ?_, hl⟩
  obtain ⟨-, rfl⟩ := (zeroNegStream_eq_ok N).1 hst
  exact RunInv.recode { h with toRunning := hr } (by decide) (by decide) (by decide)

/-- `U.OLA_ADD` adds below `F` only, so the upper half stays zero; the tail does not until the shift. -/
theorem olaAddStream_keeps : StageKeeps N 0x8 (olaAddStream N) := fun st h => by
  obtain ⟨st', hst, hr, hl, -⟩ := olaAddStream_running N h.toRunning
  refine ⟨st', hst, ?_, hl⟩
  obtain ⟨-, rfl⟩ := (olaAddStream_eq_ok N).1 hst
  exact { h with
    toRunning := hr
    analysis := fun _ => h.analysis (by decide)
    synthesis := fun _ => h.synthesis (by decide)
    upper_zero := fun k hlo hhi => (getElem?_loop_memWrite _ _ _ hlo).trans (h.upper_zero k hlo hhi)
    tail_zero := fun h9 => absurd (by decide) h9 }

/-- `U.DRAIN` writes below `S` only, so the rest of the output FIFO stays zero. -/
theorem drainStream_keeps : StageKeeps N 0x9 (drainStream N) := fun st h => by
  obtain ⟨st', hst, hr, hl, -⟩ := drainStream_running N h.toRunning
  refine ⟨st', hst, ?_, hl⟩
  obtain ⟨-, rfl⟩ := (drainStream_eq_ok N).1 hst
  exact { h with
    toRunning := hr
    analysis := fun _ => h.analysis (by decide)
    synthesis := fun _ => h.synthesis (by decide)
    tail_zero := fun _ hA => absurd (by decide) hA
    output_zero := fun k hlo hhi => (getElem?_loop_memWrite _ _ _ hlo).trans (h.output_zero k hlo hhi) }

/-- `U.ACC_SHIFT` makes the tail from `L` on zero again. -/
theorem accShiftStream_keeps : StageKeeps N 0xA (accShiftStream N) := fun st h => by
  obtain ⟨st', hst, hr, hl, -⟩ := accShiftStream_running N h.toRunning
  refine ⟨st', hst, ?_, hl⟩
  obtain ⟨⟨hlen, hS⟩, rfl⟩ := (accShiftStream_eq_ok N).1 hst
  have hzero := accShiftArray_zero N hlen hS h.upper_zero
  have hL := h.latency
  exact { h with
    toRunning := hr
    analysis := fun _ => h.analysis (by decide)
    synthesis := fun _ => h.synthesis (by decide)
    upper_zero := fun k hlo hhi => hzero k (le_trans (Nat.sub_le _ _) hlo) hhi
    tail_zero := fun _ _ k (hlo : st.L ≤ k) (hhi : k < st.F) => hzero k (by omega) (by omega) }

theorem inShiftStream_keeps : StageKeeps N 0xB (inShiftStream N) := fun st h => by
  obtain ⟨st', hst, hr, hl, -⟩ := inShiftStream_running N h.toRunning
  refine ⟨st', hst, ?_, hl⟩
  obtain ⟨-, rfl⟩ := (inShiftStream_eq_ok N).1 hst
  exact RunInv.recode { h with toRunning := hr } (by decide) (by decide) (by decide)

/-- Every code but `U.IDLE` that names a micro-operation names one that keeps the invariant. -/
theorem exec_decodeMicro_keeps {c : MicroCode} (h0 : c ≠ 0x0) (hc : c.toNat ≤ 0xB) :
    ∃ i f, decodeMicro c = some i ∧ (∀ s, exec i s = onStream f s) ∧ StageKeeps Config.NUM.toNumOps c f := by
  obtain rfl | rfl | rfl | rfl | rfl | rfl | rfl | rfl | rfl | rfl | rfl :
      c = 0x1 ∨ c = 0x2 ∨ c = 0x3 ∨ c = 0x4 ∨ c = 0x5 ∨ c = 0x6 ∨ c = 0x7 ∨ c = 0x8 ∨ c = 0x9 ∨ c = 0xA ∨ c = 0xB := by
    revert c; decide
  · exact ⟨.uWindow, _, rfl, fun _ => rfl, windowStream_keeps⟩
  · exact ⟨.uFftFwd, _, rfl, fun _ => rfl, fftStream_keeps .fwd (by decide) (by decide) (by decide)⟩
  · exact ⟨.uAnalyze, _, rfl, fun _ => rfl, analyzeStream_keeps⟩
  · exact ⟨.uRemap, _, rfl, fun _ => rfl, remapStream_keeps⟩
  · exact ⟨.uSynth, _, rfl, fun _ => rfl, synthStream_keeps⟩
  · exact ⟨.uZeroneg, _, rfl, fun _ => rfl, zeroNegStream_keeps⟩
  · exact ⟨.uFftInv, _, rfl, fun _ => rfl, fftStream_keeps .inv (by decide) (by decide) (by decide)⟩
  · exact ⟨.uOlaAdd, _, rfl, fun _ => rfl, olaAddStream_keeps⟩
  · exact ⟨.uDrain, _, rfl, fun _ => rfl, drainStream_keeps⟩
  · exact ⟨.uAccShift, _, rfl, fun _ => rfl, accShiftStream_keeps⟩
  · exact ⟨.uInShift, _, rfl, fun _ => rfl, inShiftStream_keeps⟩

/-! ## Frames, `PUSH` and `BLOCK` -/

/-- A frame runs the eleven codes from `U.WINDOW` back to `U.IDLE` (40_sliding_window_fifo.md R126). -/
theorem frameStream_keeps (h : RunInv N 0x0 st) :
    ∃ st', frameStream N st = .ok st' ∧ RunInv N 0x0 st' ∧ SameLatched st st' := by
  obtain ⟨a, ha, ra, sa⟩ := windowStream_keeps st (h.recode (by decide) (by decide) (by decide))
  obtain ⟨b, hb, rb, sb⟩ := fftStream_keeps .fwd (by decide) (by decide) (by decide) a ra
  obtain ⟨c, hc, rc, sc⟩ := analyzeStream_keeps b rb
  obtain ⟨d, hd, rd, sd⟩ := remapStream_keeps c rc
  obtain ⟨e, he, re, se⟩ := synthStream_keeps d rd
  obtain ⟨f, hf, rf, sf⟩ := zeroNegStream_keeps e re
  obtain ⟨g, hg, rg, sg⟩ := fftStream_keeps .inv (by decide) (by decide) (by decide) f rf
  obtain ⟨i, hi, ri, si⟩ := olaAddStream_keeps g rg
  obtain ⟨j, hj, rj, sj⟩ := drainStream_keeps i ri
  obtain ⟨k, hk, rk, sk⟩ := accShiftStream_keeps j rj
  obtain ⟨l, hl, rl, sl⟩ := inShiftStream_keeps k rk
  exact ⟨l, (frameStream_eq_ok N).2 ⟨a, b, c, d, e, f, g, i, j, k, ha, hb, hc, hd, he, hf, hg, hi, hj, hk, hl⟩, rl,
    sa.trans <| sb.trans <| sc.trans <| sd.trans <| se.trans <| sf.trans <| sg.trans <| si.trans <| sj.trans <| sk.trans sl⟩

/-- The cursor of a running stream may go back to `L` (40 R123). -/
theorem Running.rewind {α : Type} {st : Stream α} (h : Running st) : Running { st with rover := BitVec.ofNat _ st.L } := by
  have hL := h.latency
  have hS := h.toGeometry.hop_pos
  have hmax : st.F ≤ 4096 := h.frame_max
  have hrover : (BitVec.ofNat Config.idxW st.L).toNat = st.L := rover_ofNat (by omega)
  exact { h with
    rover_low := hrover.ge
    rover_high := by rw [hrover]; show st.L < st.F; omega }

theorem advanceStream_keeps (h : RunInv N 0x0 st) :
    ∃ st', advanceStream N st = .ok st' ∧ RunInv N 0x0 st' ∧ SameLatched st st' := by
  obtain ⟨st', hst, hr, hl, ⟨-, rfl⟩ | ⟨-, hframe, -⟩⟩ := advanceStream_running N h.toRunning
  · exact ⟨_, hst, { h with toRunning := hr }, hl⟩
  · have hrewind : RunInv N 0x0 { st with rover := BitVec.ofNat _ st.L } := { h with toRunning := h.toRunning.rewind }
    obtain ⟨st'', hframe', hinv, -⟩ := frameStream_keeps hrewind
    obtain rfl : st' = st'' := Except.ok.inj (hframe.symm.trans hframe')
    exact ⟨st', hst, hinv, hl⟩

theorem pushStream_keeps {N : NumInst Num} (x : Word) (h : RunInv N.toNumOps 0x0 st) :
    ∃ st', pushStream N x st = .ok (st', outputSample N st) ∧ RunInv N.toNumOps 0x0 st' ∧ SameLatched st st' := by
  have haccept : RunInv N.toNumOps 0x0 (acceptSample N x st) :=
    { h with toRunning := acceptSample_running N x h.toRunning }
  obtain ⟨st', hst, hinv, hl⟩ := advanceStream_keeps haccept
  exact ⟨st', by rw [pushStream_of_cursor N x h.cursor, hst]; rfl, hinv, hl⟩

theorem blockStream_keeps {N : NumInst Num} (xs : List Word) (h : RunInv N.toNumOps 0x0 st) :
    ∃ st' ys, blockStream N xs st = .ok (st', ys) ∧ RunInv N.toNumOps 0x0 st' ∧ SameLatched st st' := by
  induction xs generalizing st with
  | nil => exact ⟨st, [], rfl, h, .refl st⟩
  | cons x xs ih =>
    obtain ⟨st1, h1, hinv1, hl1⟩ := pushStream_keeps x h
    obtain ⟨st2, ys, h2, hinv2, hl2⟩ := ih hinv1
    exact ⟨st2, outputSample N st :: ys, by rw [blockStream_cons N h1, h2]; rfl, hinv2, hl1.trans hl2⟩

end Sys2Proof.Machine
end

section
/-!
Every step completes and keeps the machine's invariant: first what the invariant needs of a next state in each mode, then every
command, then the fetch (spec/00_scope.md R11, 10_state.md R28, R29, R38).
-/

namespace Sys2Proof.Machine

open Sys2Proof.Proofs

/-! ## The parts of the invariant -/

/-- The error record is clear or holds a refusal code (10_state.md R29, 30_encoding.md R100). -/
def RecordLegal (s : State) : Prop :=
  (s.err = false → s.errcode = 0) ∧ (s.err = true → ∃ c, c ≠ Status.ok ∧ s.errcode = statusCode c)

theorem Invariant.recordLegal {s : State} (h : Invariant s) : RecordLegal s := ⟨h.no_error, h.error_code⟩

theorem refuse_recordLegal {op : BitVec 8} {c : Status} {s : State} (hc : c ≠ .ok) (h : RecordLegal s) :
    RecordLegal (refuse op c s) := by
  refine ⟨fun herr => by simp at herr, fun _ => ?_⟩
  rw [refuse_errcode]
  split
  next herr => exact h.2 herr
  next => exact ⟨c, hc, rfl⟩

theorem Invariant.of_config {t : State} (hrec : RecordLegal t) (hm : t.mode = .config)
    (hst : t.stream = State.reset.stream) (hu : t.uop = 0x0) : Invariant t where
  code_legal := by rw [hu]; decide
  no_error := hrec.1
  error_code := hrec.2
  config_mode _ := ⟨hst, hu⟩
  run_mode hrun := by rw [hm] at hrun; cases hrun

theorem Invariant.of_run {t : State} (hrec : RecordLegal t) (hm : t.mode = .run) (hc : t.uop.toNat ≤ 0xB)
    (hst : RunInv Config.NUM.toNumOps t.uop t.stream) (hl : LatchedFrom t) : Invariant t where
  code_legal := hc
  no_error := hrec.1
  error_code := hrec.2
  config_mode hcfg := by rw [hm] at hcfg; cases hcfg
  run_mode _ := ⟨hst, hl⟩

theorem Invariant.mode_run {s : State} (h : Invariant s) (hu : s.uop ≠ 0x0) : s.mode = .run := by
  cases hm : s.mode with
  | run => rfl
  | config => exact absurd (h.config_mode hm).2 hu

/-- Two states with the same configuration registers. -/
def SameRegisters (s t : State) : Prop :=
  t.frame = s.frame ∧ t.osamp = s.osamp ∧ t.pitch = s.pitch ∧ t.rate = s.rate

/-- The latched configuration stays the one in the registers while neither changes (10_state.md R38). -/
theorem LatchedFrom.of_same {s t : State} (h : LatchedFrom s) (hregs : SameRegisters s t)
    (hst : SameLatched s.stream t.stream) : LatchedFrom t := by
  obtain ⟨hframe, hosamp, hpitch, hrate⟩ := hregs
  obtain ⟨hF, hO, hS, -, -, -, hP, hSR, hFPB, hEXPCT⟩ := hst
  exact {
    accepted := by rw [hframe, hosamp, hpitch, hrate]; exact h.accepted
    frame := by rw [hF, hframe]; exact h.frame
    osamp := by rw [hO, hosamp]; exact h.osamp
    pitch := by rw [hP, hpitch]; exact h.pitch
    rate := by rw [hSR, hrate]; exact h.rate
    freqPerBin := by rw [hFPB, hSR, hF]; exact h.freqPerBin
    expected := by rw [hEXPCT, hS, hF]; exact h.expected }

/-- Two states that differ in the error record and the host's streams at most. -/
structure SameBlock (s t : State) : Prop where
  mode : t.mode = s.mode
  uop : t.uop = s.uop
  stream : t.stream = s.stream
  registers : SameRegisters s t

theorem Invariant.of_sameBlock {s t : State} (h : Invariant s) (hb : SameBlock s t) (hrec : RecordLegal t) :
    Invariant t where
  code_legal := hb.uop ▸ h.code_legal
  no_error := hrec.1
  error_code := hrec.2
  config_mode hm := by
    rw [hb.stream, hb.uop]
    exact h.config_mode (hb.mode ▸ hm)
  run_mode hm := by
    obtain ⟨hrun, hlatched⟩ := h.run_mode (hb.mode ▸ hm)
    rw [hb.stream, hb.uop]
    exact ⟨hrun, hlatched.of_same hb.registers (hb.stream ▸ .refl _)⟩

/-! ## The shared operations -/

theorem Invariant.respond {s : State} (h : Invariant s) (op : BitVec 8) (data : List Word) :
    Invariant (respond op data s) := h.of_sameBlock ⟨rfl, rfl, rfl, rfl, rfl, rfl, rfl⟩ h.recordLegal

theorem Invariant.refuse {s : State} (h : Invariant s) (op : BitVec 8) {c : Status} (hc : c ≠ .ok) :
    Invariant (refuse op c s) :=
  h.of_sameBlock ⟨by simp, by simp, by simp, by simp, by simp, by simp, by simp⟩ (refuse_recordLegal hc h.recordLegal)

theorem Invariant.clearError {s : State} (h : Invariant s) : Invariant (clearError s) :=
  h.of_sameBlock ⟨rfl, rfl, rfl, rfl, rfl, rfl, rfl⟩ ⟨fun _ => rfl, fun herr => by cases herr⟩

theorem Invariant.with_cmd {s : State} (h : Invariant s) (cmd : List HostInput) : Invariant { s with cmd := cmd } :=
  h.of_sameBlock ⟨rfl, rfl, rfl, rfl, rfl, rfl, rfl⟩ h.recordLegal

theorem resetTransition_invariant (s : State) : Invariant (resetTransition s) :=
  .of_config ⟨fun _ => rfl, fun herr => by cases herr⟩ rfl rfl rfl

/-- In RUN mode the stream may move on to any that keeps the invariant and the latched configuration. -/
theorem Invariant.with_stream {s : State} (h : Invariant s) (hm : s.mode = .run) {c : MicroCode} {st : Stream Num}
    (hc : c.toNat ≤ 0xB) (hst : RunInv Config.NUM.toNumOps c st) (hl : SameLatched s.stream st) :
    Invariant { s with uop := c, stream := st } :=
  .of_run h.recordLegal hm hc hst ((h.run_mode hm).2.of_same ⟨rfl, rfl, rfl, rfl⟩ hl)

/-! ## The commands -/

/-- An instruction or a step completes in a state with the invariant. -/
def CompletesWithInvariant (r : Result) : Prop := ∃ t, r = .next t ∧ Invariant t

/-- Writing a register in CONFIG mode, where no stream depends on it (46_host_commands.md R228). -/
theorem writeReg_invariant {s s' : State} {v : Word} {r : Reg} (h : Invariant s) (hm : s.mode = .config)
    (hw : writeReg s v r = some s') : Invariant s' := by
  obtain ⟨hst, hu⟩ := h.config_mode hm
  cases r with
  | frame | osamp | pitch | rate =>
    cases hw
    exact .of_config h.recordLegal hm hst hu
  | status | maxframe | step | latency | rover => cases hw

theorem execWrcfg_keeps {s : State} (reg : RegNum) (v : Word) (h : Invariant s) :
    CompletesWithInvariant (execWrcfg reg v s) := by
  unfold execWrcfg
  split
  next => exact ⟨_, rfl, h.refuse _ (by decide)⟩
  next s' hw =>
    split
    next => exact ⟨_, rfl, h.refuse _ (by decide)⟩
    next hm =>
      obtain ⟨r, -, hw⟩ := Option.bind_eq_some_iff.1 hw
      exact ⟨_, rfl, (writeReg_invariant h hm hw).respond _ _⟩

theorem execRdcfg_keeps {s : State} (reg : RegNum) (h : Invariant s) : CompletesWithInvariant (execRdcfg reg s) := by
  unfold execRdcfg
  split
  · exact ⟨_, rfl, h.refuse _ (by decide)⟩
  · exact ⟨_, rfl, h.respond _ _⟩

/-- An accepted `START` makes a running stream, latched from the registers (46 R231). -/
theorem started_invariant {s : State} (h : Invariant s) (hm : s.mode = .config)
    (hacc : startRefusal Config.NUM.toNumOps s.frame s.osamp (Config.NUM.decode s.pitch) (Config.NUM.decode s.rate) = none) :
    Invariant { s with
      mode := .run
      stream := startStream Config.NUM.toNumOps s.frame.toNat s.osamp.toNat (Config.NUM.decode s.pitch)
        (Config.NUM.decode s.rate) s.stream } := by
  obtain ⟨hst, hu⟩ := h.config_mode hm
  obtain ⟨⟨⟨n, h1, h12, hframe⟩, hosamp⟩, -, -⟩ := (startRefusal_eq_none_iff _ _ _ _ _).1 hacc
  have hrun : Running (startStream Config.NUM.toNumOps s.frame.toNat s.osamp.toNat (Config.NUM.decode s.pitch)
      (Config.NUM.decode s.rate) State.reset.stream) := by
    rw [hframe]
    exact startStream_running _ _ _ _ h1 h12 (hframe ▸ hosamp)
  refine .of_run h.recordLegal rfl h.code_legal ?_ ⟨hacc, rfl, rfl, rfl, rfl, rfl, rfl⟩
  show RunInv _ s.uop (startStream _ _ _ _ _ s.stream)
  rw [hst, hu]
  exact startStream_runInv hrun

theorem execStart_keeps {s : State} (h : Invariant s) : CompletesWithInvariant (execStart s) := by
  unfold execStart
  split
  next => exact ⟨_, rfl, h.refuse _ (by decide)⟩
  next hm =>
    dsimp only
    split
    next c hc => exact ⟨_, rfl, h.refuse _ (startRefusal_ne_ok _ hc)⟩
    next hacc => exact ⟨_, rfl, (started_invariant h hm hacc).respond _ _⟩

/-- Between commands a stream in RUN mode may move on to any that keeps the invariant. -/
theorem Invariant.with_stream_idle {s : State} (h : Invariant s) (hm : s.mode = .run) (hu : s.uop = 0x0) {st : Stream Num}
    (hst : RunInv Config.NUM.toNumOps 0x0 st) (hl : SameLatched s.stream st) : Invariant { s with stream := st } :=
  h.with_stream hm h.code_legal (by rw [hu]; exact hst) hl

theorem execPush_keeps {s : State} (x : Word) (h : Invariant s) (hu : s.uop = 0x0) :
    CompletesWithInvariant (execPush x s) := by
  unfold execPush
  split
  next => exact ⟨_, rfl, h.refuse _ (by decide)⟩
  next hm =>
    obtain ⟨st, hpush, hst, hl⟩ := pushStream_keeps x (hu ▸ (h.run_mode hm).1)
    rw [hpush]
    exact ⟨_, rfl, (h.with_stream_idle hm hu hst hl).respond _ _⟩

theorem execBlock_keeps {s : State} (xs : List Word) (h : Invariant s) (hu : s.uop = 0x0) :
    CompletesWithInvariant (execBlock xs s) := by
  unfold execBlock
  split
  next => exact ⟨_, rfl, h.refuse _ (by decide)⟩
  next hm =>
    obtain ⟨st, ys, hblock, hst, hl⟩ := blockStream_keeps xs (hu ▸ (h.run_mode hm).1)
    rw [hblock]
    exact ⟨_, rfl, (h.with_stream_idle hm hu hst hl).respond _ _⟩

/-- Every command keeps the invariant; it runs between frames. -/
theorem exec_assemble_keeps {s : State} (hd : Header) (ops : List Word) (h : Invariant s) (hu : s.uop = 0x0) :
    CompletesWithInvariant (exec (assemble hd ops) s) := by
  cases hd with
  | nop => exact ⟨_, rfl, h.respond _ _⟩
  | reset => exact ⟨_, rfl, (resetTransition_invariant s).respond _ _⟩
  | wrcfg reg => exact execWrcfg_keeps reg _ h
  | rdcfg reg => exact execRdcfg_keeps reg h
  | start => exact execStart_keeps h
  | push => exact execPush_keeps _ h hu
  | block cnt => exact execBlock_keeps ops h hu
  | clrerr => exact ⟨_, rfl, h.clearError.respond _ _⟩

/-! ## The step -/

theorem decodeCommand_eq_instr {ws rest : List Word} {i : Instr} (h : decodeCommand ws = .instr i rest) :
    ∃ hd ops, i = assemble hd ops := by
  unfold decodeCommand at h
  split at h
  next => cases h
  next w ws =>
    split at h
    next => cases h
    next hd _ =>
      split at h
      next => cases h
      next => cases h; exact ⟨hd, _, rfl⟩

/-- What the block can take from the command stream (30_encoding.md R94, 70_reset_and_hazards.md R282, R297): it changes
nothing but the command stream in taking it. -/
theorem fetchCommand_cases (s : State) :
    (∃ hd ops cmd, fetchCommand s = .instr (assemble hd ops) { s with cmd := cmd }) ∨
    (∃ w cmd, fetchCommand s = .illegal w { s with cmd := cmd }) ∨
    (∃ cmd, fetchCommand s = .hardwareReset { s with cmd := cmd }) ∨
    fetchCommand s = .instr .uIdle s ∨ fetchCommand s = .waiting := by
  unfold fetchCommand
  split
  next i rest hdec =>
    obtain ⟨hd, ops, rfl⟩ := decodeCommand_eq_instr hdec
    exact .inl ⟨hd, ops, _, rfl⟩
  next w _ _ => exact .inr (.inl ⟨w, _, rfl⟩)
  next =>
    split
    next rest _ => exact .inr (.inr (.inl ⟨rest, rfl⟩))
    next =>
      split
      next => exact .inr (.inr (.inr (.inl rfl)))
      next => exact .inr (.inr (.inr (.inr rfl)))

theorem fetch_of_idle {s : State} (hu : s.uop = 0x0) : fetch s = fetchCommand s := if_pos hu

theorem step_of_micro {s : State} {i : Instr} (hu : s.uop ≠ 0x0) (hi : decodeMicro s.uop = some i) :
    step s = exec i { s with uop := nextCode s.uop } := by
  simp only [step, fetch, if_neg hu, hi]

theorem nextCode_legal {c : MicroCode} (h : c.toNat ≤ 0xB) : (nextCode c).toNat ≤ 0xB := by
  revert c; decide

/-- From a state with the invariant every step completes in one with the invariant. -/
theorem step_keeps {s : State} (h : Invariant s) : CompletesWithInvariant (step s) := by
  by_cases hu : s.uop = 0x0
  · unfold step
    rw [fetch_of_idle hu]
    obtain ⟨hd, ops, cmd, hf⟩ | ⟨w, cmd, hf⟩ | ⟨cmd, hf⟩ | hf | hf := fetchCommand_cases s <;> rw [hf]
    · exact exec_assemble_keeps hd ops (h.with_cmd cmd) hu
    · exact ⟨_, rfl, (h.with_cmd cmd).refuse _ (by decide)⟩
    · exact ⟨_, rfl, resetTransition_invariant _⟩
    · exact ⟨s, rfl, h⟩
    · exact ⟨s, rfl, h⟩
  · obtain ⟨i, f, hi, hexec, hf⟩ := exec_decodeMicro_keeps hu h.code_legal
    have hm := h.mode_run hu
    obtain ⟨st, hst, hinv, hl⟩ := hf s.stream (h.run_mode hm).1
    rw [step_of_micro hu hi, hexec]
    exact ⟨_, onStream_of_ok hst, h.with_stream hm (nextCode_legal h.code_legal) hinv hl⟩

end Sys2Proof.Machine

namespace Sys2Proof.Proofs

open Sys2Proof.Machine

/-- Settles O50: the step completes in one state only, and that has the invariant. -/
theorem stepKeepsInvariant : Obligations.StepKeepsInvariant := by
  intro s t h hstep
  obtain ⟨t', hstep', ht'⟩ := step_keeps h
  rw [hstep] at hstep'
  cases hstep'
  exact ht'

end Sys2Proof.Proofs
end

section
/-!
What an instruction can do to the mode and the configuration: a micro-operation writes arrays only, and outside `RESET`, an
accepted `START` and an accepted `WRCFG` every instruction and every step keeps the mode, the registers and the latched
configuration (spec/10_state.md R28, R38, R42, 46_host_commands.md R235).
-/

namespace Sys2Proof.Machine

/-! ## Micro-operations -/

section Stages

variable {α : Type} {N : NumOps α}

/-- `st'` is `st` but for the ten arrays (10_state.md R20 to R25, R27). -/
def OnlyArrays (st st' : Stream α) : Prop :=
  st' = { st with
    inputFIFO := st'.inputFIFO
    outputFIFO := st'.outputFIFO
    outputAccumulator := st'.outputAccumulator
    spectrum := st'.spectrum
    lastPhase := st'.lastPhase
    sumPhase := st'.sumPhase
    anaMagn := st'.anaMagn
    anaFreq := st'.anaFreq
    synMagn := st'.synMagn
    synFreq := st'.synFreq }

theorem OnlyArrays.sameLatched {st st' : Stream α} (h : OnlyArrays st st') : SameLatched st st' := by
  rw [OnlyArrays] at h
  rw [h]
  exact .refl st

/-- An operation that, whenever it succeeds, has written arrays only. -/
def WritesOnlyArrays (f : Stream α → Except Fault (Stream α)) : Prop :=
  ∀ st st', f st = .ok st' → OnlyArrays st st'

theorem windowStream_writes : WritesOnlyArrays (windowStream N) := fun _ _ h => by
  obtain ⟨-, rfl⟩ := (windowStream_eq_ok N).1 h; rfl

theorem fftStream_writes (dir : Dir) : WritesOnlyArrays (fftStream N dir) := fun _ _ h => by
  obtain ⟨-, rfl⟩ := (fftStream_eq_ok N).1 h; rfl

theorem analyzeStream_writes : WritesOnlyArrays (analyzeStream N) := fun _ _ h => by
  obtain ⟨-, rfl⟩ := (analyzeStream_eq_ok N).1 h; rfl

theorem remapStream_writes : WritesOnlyArrays (remapStream N) := fun _ _ h => by
  obtain ⟨-, rfl⟩ := (remapStream_eq_ok N).1 h; rfl

theorem synthStream_writes : WritesOnlyArrays (synthStream N) := fun _ _ h => by
  obtain ⟨-, rfl⟩ := (synthStream_eq_ok N).1 h; rfl

theorem zeroNegStream_writes : WritesOnlyArrays (zeroNegStream N) := fun _ _ h => by
  obtain ⟨-, rfl⟩ := (zeroNegStream_eq_ok N).1 h; rfl

theorem olaAddStream_writes : WritesOnlyArrays (olaAddStream N) := fun _ _ h => by
  obtain ⟨-, rfl⟩ := (olaAddStream_eq_ok N).1 h; rfl

theorem drainStream_writes : WritesOnlyArrays (drainStream N) := fun _ _ h => by
  obtain ⟨-, rfl⟩ := (drainStream_eq_ok N).1 h; rfl

theorem accShiftStream_writes : WritesOnlyArrays (accShiftStream N) := fun _ _ h => by
  obtain ⟨-, rfl⟩ := (accShiftStream_eq_ok N).1 h; rfl

theorem inShiftStream_writes : WritesOnlyArrays (inShiftStream N) := fun _ _ h => by
  obtain ⟨-, rfl⟩ := (inShiftStream_eq_ok N).1 h; rfl

end Stages

/-- An instruction is a command (which has a header), `U.IDLE`, or one operation on the Stream State that writes arrays
only (30_encoding.md R92, R105). -/
theorem instr_cases (i : Instr) :
    (∃ hd ops, i = assemble hd ops) ∨ i = .uIdle ∨ ∃ f, (∀ s, exec i s = onStream f s) ∧ WritesOnlyArrays f := by
  cases i with
  | nop => exact .inl ⟨.nop, [], rfl⟩
  | reset => exact .inl ⟨.reset, [], rfl⟩
  | wrcfg reg v => exact .inl ⟨.wrcfg reg, [v], rfl⟩
  | rdcfg reg => exact .inl ⟨.rdcfg reg, [], rfl⟩
  | start => exact .inl ⟨.start, [], rfl⟩
  | push x => exact .inl ⟨.push, [x], rfl⟩
  | block xs => exact .inl ⟨.block 0, xs, rfl⟩
  | clrerr => exact .inl ⟨.clrerr, [], rfl⟩
  | uIdle => exact .inr (.inl rfl)
  | uWindow => exact .inr (.inr ⟨_, fun _ => rfl, windowStream_writes⟩)
  | uFftFwd => exact .inr (.inr ⟨_, fun _ => rfl, fftStream_writes .fwd⟩)
  | uAnalyze => exact .inr (.inr ⟨_, fun _ => rfl, analyzeStream_writes⟩)
  | uRemap => exact .inr (.inr ⟨_, fun _ => rfl, remapStream_writes⟩)
  | uSynth => exact .inr (.inr ⟨_, fun _ => rfl, synthStream_writes⟩)
  | uZeroneg => exact .inr (.inr ⟨_, fun _ => rfl, zeroNegStream_writes⟩)
  | uFftInv => exact .inr (.inr ⟨_, fun _ => rfl, fftStream_writes .inv⟩)
  | uOlaAdd => exact .inr (.inr ⟨_, fun _ => rfl, olaAddStream_writes⟩)
  | uDrain => exact .inr (.inr ⟨_, fun _ => rfl, drainStream_writes⟩)
  | uAccShift => exact .inr (.inr ⟨_, fun _ => rfl, accShiftStream_writes⟩)
  | uInShift => exact .inr (.inr ⟨_, fun _ => rfl, inShiftStream_writes⟩)

/-- The encoding of a command is a list of words, never a micro-operation code. -/
theorem encode_assemble_ne_code (hd : Header) (ops : List Word) (c : MicroCode) : encode (assemble hd ops) ≠ .code c := by
  cases hd <;> exact Encoding.noConfusion

/-! ## Frames, `PUSH` and `BLOCK` -/

section Samples

variable {α : Type}

theorem frameStream_sameLatched (N : NumOps α) {st st' : Stream α}
    (h : frameStream N st = .ok st') : SameLatched st st' := by
  obtain ⟨a, b, c, d, e, f, g, i, j, k, ha, hb, hc, hd, he, hf, hg, hi, hj, hk, hl⟩ := (frameStream_eq_ok N).1 h
  have hanalysis := (windowStream_writes _ _ ha).sameLatched.trans <|
    (fftStream_writes _ _ _ hb).sameLatched.trans (analyzeStream_writes _ _ hc).sameLatched
  have hsynthesis := (remapStream_writes _ _ hd).sameLatched.trans <| (synthStream_writes _ _ he).sameLatched.trans <|
    (zeroNegStream_writes _ _ hf).sameLatched.trans (fftStream_writes _ _ _ hg).sameLatched
  have houtput := (olaAddStream_writes _ _ hi).sameLatched.trans <| (drainStream_writes _ _ hj).sameLatched.trans <|
    (accShiftStream_writes _ _ hk).sameLatched.trans (inShiftStream_writes _ _ hl).sameLatched
  exact hanalysis.trans (hsynthesis.trans houtput)

theorem advanceStream_sameLatched (N : NumOps α) {st st' : Stream α} (h : advanceStream N st = .ok st') :
    SameLatched st st' := by
  unfold advanceStream at h
  split at h
  next => exact frameStream_sameLatched N (st := { st with rover := BitVec.ofNat _ st.L }) h
  next => cases h; exact .refl st

theorem pushStream_sameLatched (N : NumInst α) {x y : Word} {st st' : Stream α} (h : pushStream N x st = .ok (st', y)) :
    SameLatched st st' := by
  cases hcursor : cursorInRange st with
  | false => rw [pushStream_of_no_cursor N x hcursor] at h; cases h
  | true =>
    rw [pushStream_of_cursor N x hcursor] at h
    cases hadvance : advanceStream N.toNumOps (acceptSample N x st) with
    | error e => rw [hadvance] at h; cases h
    | ok st1 =>
      rw [hadvance] at h
      cases h
      exact advanceStream_sameLatched N.toNumOps (st := acceptSample N x st) hadvance

theorem blockStream_sameLatched (N : NumInst α) {xs ys : List Word} {st st' : Stream α}
    (h : blockStream N xs st = .ok (st', ys)) : SameLatched st st' := by
  induction xs generalizing st st' ys with
  | nil => cases h; exact .refl st
  | cons x xs ih =>
    obtain ⟨⟨st1, y⟩, hpush, h⟩ := bind_eq_ok.1 h
    obtain ⟨⟨st2, ys'⟩, hblock, h⟩ := bind_eq_ok.1 h
    cases h
    exact (pushStream_sameLatched N hpush).trans (ih hblock)

end Samples

/-! ## Instructions -/

/-- The mode, the configuration registers and the latched configuration are as before. -/
structure SameConfiguration (s t : State) : Prop where
  mode : t.mode = s.mode
  registers : SameRegisters s t
  latched : SameLatched s.stream t.stream

theorem SameConfiguration.refl (s : State) : SameConfiguration s s := ⟨rfl, ⟨rfl, rfl, rfl, rfl⟩, .refl _⟩

theorem SameConfiguration.respond {s t : State} (h : SameConfiguration s t) (op : BitVec 8) (data : List Word) :
    SameConfiguration s (respond op data t) := ⟨h.mode, h.registers, h.latched⟩

theorem SameConfiguration.refuse (s : State) (op : BitVec 8) (c : Status) : SameConfiguration s (refuse op c s) :=
  ⟨by simp, ⟨by simp, by simp, by simp, by simp⟩, by rw [refuse_stream]; exact .refl _⟩

theorem SameConfiguration.of_stream {s : State} {st : Stream Num} (h : SameLatched s.stream st) :
    SameConfiguration s { s with stream := st } := ⟨rfl, ⟨rfl, rfl, rfl, rfl⟩, h⟩

theorem writeReg_mode {s s' : State} {v : Word} {r : Reg} (h : writeReg s v r = some s') : s'.mode = s.mode := by
  cases r <;> cases h <;> rfl

theorem execWrcfg_cases {s t : State} {reg : RegNum} {v : Word} (h : execWrcfg reg v s = .next t) :
    (s.mode = .config ∧ t.mode = .config) ∨ SameConfiguration s t := by
  unfold execWrcfg at h
  split at h
  next => cases h; exact .inr (.refuse s _ _)
  next s' hw =>
    obtain ⟨r, -, hw⟩ := Option.bind_eq_some_iff.1 hw
    split at h
    next => cases h; exact .inr (.refuse s _ _)
    next hm => cases h; exact .inl ⟨hm, (writeReg_mode hw).trans hm⟩

theorem execRdcfg_cases {s t : State} {reg : RegNum} (h : execRdcfg reg s = .next t) : SameConfiguration s t := by
  unfold execRdcfg at h
  split at h
  next => cases h; exact .refuse s _ _
  next => cases h; exact (SameConfiguration.refl s).respond _ _

theorem execStart_cases {s t : State} (h : execStart s = .next t) :
    (s.mode = .config ∧ t.mode = .run) ∨ SameConfiguration s t := by
  unfold execStart at h
  split at h
  next => cases h; exact .inr (.refuse s _ _)
  next hm =>
    dsimp only at h
    split at h
    next => cases h; exact .inr (.refuse s _ _)
    next => cases h; exact .inl ⟨hm, rfl⟩

theorem execPush_cases {s t : State} {x : Word} (h : execPush x s = .next t) : SameConfiguration s t := by
  unfold execPush at h
  split at h
  next => cases h; exact .refuse s _ _
  next =>
    split at h
    next hpush => cases h; exact (SameConfiguration.of_stream (pushStream_sameLatched _ hpush)).respond _ _
    next => cases h

theorem execBlock_cases {s t : State} {xs : List Word} (h : execBlock xs s = .next t) : SameConfiguration s t := by
  unfold execBlock at h
  split at h
  next => cases h; exact .refuse s _ _
  next =>
    split at h
    next hblock => cases h; exact (SameConfiguration.of_stream (blockStream_sameLatched _ hblock)).respond _ _
    next => cases h

/-- What an instruction can do to the mode and the configuration (10_state.md R28, R38, 46_host_commands.md R235). -/
inductive ConfigurationChange (i : Instr) (s t : State) : Prop where
  /-- `RESET`. -/
  | reset (hi : i = .reset) (ht : t.mode = .config)
  /-- An accepted `START`. -/
  | started (hi : i = .start) (hs : s.mode = .config) (ht : t.mode = .run)
  /-- An accepted `WRCFG`. -/
  | written (hs : s.mode = .config) (ht : t.mode = .config)
  /-- Everything else. -/
  | same (h : SameConfiguration s t)

theorem exec_assemble_changes {hd : Header} {ops : List Word} {s t : State} (h : exec (assemble hd ops) s = .next t) :
    ConfigurationChange (assemble hd ops) s t := by
  cases hd with
  | nop => cases h; exact .same ((SameConfiguration.refl s).respond _ _)
  | reset => cases h; exact .reset rfl rfl
  | wrcfg reg =>
    obtain ⟨hs, ht⟩ | hsame := execWrcfg_cases h
    · exact .written hs ht
    · exact .same hsame
  | rdcfg reg => exact .same (execRdcfg_cases h)
  | start =>
    obtain ⟨hs, ht⟩ | hsame := execStart_cases h
    · exact .started rfl hs ht
    · exact .same hsame
  | push => exact .same (execPush_cases h)
  | block cnt => exact .same (execBlock_cases h)
  | clrerr =>
    have hclear : SameConfiguration s (clearError s) := ⟨rfl, ⟨rfl, rfl, rfl, rfl⟩, .refl _⟩
    cases h
    exact .same (hclear.respond _ _)

theorem exec_changes {i : Instr} {s t : State} (h : exec i s = .next t) : ConfigurationChange i s t := by
  obtain ⟨hd, ops, rfl⟩ | rfl | ⟨f, hexec, hf⟩ := instr_cases i
  · exact exec_assemble_changes h
  · cases h; exact .same (.refl s)
  · obtain ⟨st, hst, rfl⟩ := onStream_eq_next.1 ((hexec s).symm.trans h)
    exact .same (.of_stream (hf _ _ hst).sameLatched)

/-- In RUN mode an instruction that stays there changes no configuration. -/
theorem exec_locked {i : Instr} {s t : State} (hs : s.mode = .run) (h : exec i s = .next t) (ht : t.mode = .run) :
    SameConfiguration s t := by
  cases exec_changes h with
  | reset _ ht' => exact nomatch ht.symm.trans ht'
  | started _ hs' => exact nomatch hs.symm.trans hs'
  | written hs' => exact nomatch hs.symm.trans hs'
  | same h => exact h

/-! ## The step -/

/-- What a step can do: run an instruction or refuse a word, after taking the sequencer's code or words of the command stream,
take the reset state, or leave the block as it is (30_encoding.md R90, R105, 70_reset_and_hazards.md R282, R297). -/
theorem step_cases {s t : State} (h : step s = .next t) :
    (∃ i uop cmd, exec i { s with uop := uop, cmd := cmd } = .next t) ∨
    (∃ op cmd, t = refuse op .illegalCmd { s with cmd := cmd }) ∨
    (∃ cmd, t = resetTransition { s with cmd := cmd }) ∨ t = s := by
  by_cases hu : s.uop = 0x0
  · unfold step at h
    rw [fetch_of_idle hu] at h
    obtain ⟨hd, ops, cmd, hf⟩ | ⟨w, cmd, hf⟩ | ⟨cmd, hf⟩ | hf | hf := fetchCommand_cases s <;> rw [hf] at h
    · exact .inl ⟨_, s.uop, cmd, h⟩
    · cases h; exact .inr (.inl ⟨_, cmd, rfl⟩)
    · cases h; exact .inr (.inr (.inl ⟨cmd, rfl⟩))
    · cases h; exact .inr (.inr (.inr rfl))
    · cases h; exact .inr (.inr (.inr rfl))
  · cases hi : decodeMicro s.uop with
    | some i => exact .inl ⟨i, _, s.cmd, step_of_micro hu hi ▸ h⟩
    | none =>
      simp only [step, fetch, if_neg hu, hi] at h
      cases h

/-- In RUN mode a step that stays there changes no configuration. -/
theorem step_locked {s t : State} (hs : s.mode = .run) (h : step s = .next t) (ht : t.mode = .run) :
    SameConfiguration s t := by
  obtain ⟨i, uop, cmd, hexec⟩ | ⟨op, cmd, rfl⟩ | ⟨cmd, rfl⟩ | rfl := step_cases h
  · obtain ⟨hmode, hregisters, hlatched⟩ := exec_locked (s := { s with uop := uop, cmd := cmd }) hs hexec ht
    exact ⟨hmode, hregisters, hlatched⟩
  · obtain ⟨hmode, hregisters, hlatched⟩ := SameConfiguration.refuse { s with cmd := cmd } op .illegalCmd
    exact ⟨hmode, hregisters, hlatched⟩
  · cases ht
  · exact .refl t

end Sys2Proof.Machine

namespace Sys2Proof.Proofs

open Sys2Proof.Machine

/-- Settles O52: an accepted `WRCFG` stays in CONFIG mode, and what keeps the configuration keeps the mode. -/
theorem modeChangesOnlyByStartAndReset : Obligations.ModeChangesOnlyByStartAndReset := by
  intro i s t h
  cases exec_changes h with
  | reset hi ht => exact ⟨fun _ hrun => (nomatch ht.symm.trans hrun), fun _ _ => hi⟩
  | started hi hs _ => exact ⟨fun _ _ => hi, fun hrun => (nomatch hs.symm.trans hrun)⟩
  | written hs ht => exact ⟨fun _ hrun => (nomatch ht.symm.trans hrun), fun hrun => (nomatch hs.symm.trans hrun)⟩
  | same h =>
    exact ⟨fun hs ht => (nomatch hs.symm.trans (h.mode.symm.trans ht)),
      fun hs ht => (nomatch hs.symm.trans (h.mode.symm.trans ht))⟩

/-- Settles O54: a micro-operation is `U.IDLE` or one operation that writes arrays only. -/
theorem microOperationsTouchOnlyArrays : Obligations.MicroOperationsTouchOnlyArrays := by
  intro i c s t hi h
  obtain ⟨hd, ops, rfl⟩ | rfl | ⟨f, hexec, hf⟩ := instr_cases i
  · exact absurd hi (encode_assemble_ne_code hd ops c)
  · cases h; exact ⟨rfl, rfl⟩
  · obtain ⟨st, hst, rfl⟩ := onStream_eq_next.1 ((hexec s).symm.trans h)
    exact ⟨rfl, hf _ _ hst⟩

/-- Settles O55: an instruction that changes the configuration starts or ends in CONFIG mode. -/
theorem configurationLockedInRun : Obligations.ConfigurationLockedInRun := by
  intro s t hs h ht
  obtain ⟨-, ⟨hframe, hosamp, hpitch, hrate⟩, hlatched⟩ := step_locked hs h ht
  exact ⟨hframe, hosamp, hpitch, hrate, hlatched⟩

end Sys2Proof.Proofs
end

section
/-!
The error record is written and shown, and decides nothing: two states that differ in it alone have the same outcome but for it
(spec/10_state.md R29).
-/

namespace Sys2Proof.Machine

/-- `s` with another error record. -/
def State.withRecord (s : State) (err : Bool) (errcode : BitVec 8) : State := { s with err := err, errcode := errcode }

section Record

variable (s : State) (err : Bool) (errcode : BitVec 8)

@[simp] theorem withRecord_mode : (s.withRecord err errcode).mode = s.mode := rfl
@[simp] theorem withRecord_frame : (s.withRecord err errcode).frame = s.frame := rfl
@[simp] theorem withRecord_osamp : (s.withRecord err errcode).osamp = s.osamp := rfl
@[simp] theorem withRecord_pitch : (s.withRecord err errcode).pitch = s.pitch := rfl
@[simp] theorem withRecord_rate : (s.withRecord err errcode).rate = s.rate := rfl
@[simp] theorem withRecord_stream : (s.withRecord err errcode).stream = s.stream := rfl

end Record

/-- Two outcomes that differ in the error record of the next state at most. -/
def AgreeButRecord (r r' : Result) : Prop :=
  match r with
  | .next t => ∃ (err : Bool) (errcode : BitVec 8), r' = .next (t.withRecord err errcode)
  | .fault e => r' = .fault e
  | .refused q => r' = .refused q

theorem AgreeButRecord.next (t : State) (err : Bool) (errcode : BitVec 8) :
    AgreeButRecord (.next t) (.next (t.withRecord err errcode)) := ⟨err, errcode, rfl⟩

theorem AgreeButRecord.refuse (op : BitVec 8) (c : Status) (s : State) (err : Bool) (errcode : BitVec 8) :
    AgreeButRecord (.next (refuse op c s)) (.next (refuse op c (s.withRecord err errcode))) :=
  ⟨true, if err then errcode else statusCode c, by rw [refuse_spec, refuse_spec]; rfl⟩

/-- Only `STATUS` shows the record (46_host_commands.md R230). -/
theorem regval_withRecord {r : Reg} (hr : r ≠ .status) (s : State) (err : Bool) (errcode : BitVec 8) :
    regval (s.withRecord err errcode) r = regval s r := by
  cases r with
  | status => exact absurd rfl hr
  | _ => rfl

theorem regOf_eq_status {reg : RegNum} (h : regOf reg = some .status) : reg = 0x0000 := by
  unfold regOf at h
  split at h <;> cases h
  next hreg => exact BitVec.eq_of_toNat_eq hreg

theorem writeReg_withRecord (s : State) (v : Word) (r : Reg) (err : Bool) (errcode : BitVec 8) :
    writeReg (s.withRecord err errcode) v r = (writeReg s v r).map fun t => t.withRecord err errcode := by
  cases r <;> rfl

section Commands

variable (s : State) (err : Bool) (errcode : BitVec 8)

theorem onStream_agree (f : Stream Num → Except Fault (Stream Num)) :
    AgreeButRecord (onStream f s) (onStream f (s.withRecord err errcode)) := by
  unfold onStream
  rw [withRecord_stream]
  cases f s.stream with
  | ok st => exact .next _ err errcode
  | error e => rfl

theorem execWrcfg_agree (reg : RegNum) (v : Word) :
    AgreeButRecord (execWrcfg reg v s) (execWrcfg reg v (s.withRecord err errcode)) := by
  have hwrite : (regOf reg).bind (writeReg (s.withRecord err errcode) v) =
      ((regOf reg).bind (writeReg s v)).map fun t => t.withRecord err errcode := by
    cases regOf reg with
    | none => rfl
    | some r => exact writeReg_withRecord s v r err errcode
  unfold execWrcfg
  rw [hwrite, withRecord_mode]
  cases (regOf reg).bind (writeReg s v) with
  | none => exact .refuse _ _ s err errcode
  | some s' =>
    cases s.mode with
    | run => exact .refuse _ _ s err errcode
    | config => exact .next (respond 0x02 [] s') err errcode

theorem execRdcfg_agree {reg : RegNum} (hreg : reg ≠ 0x0000) :
    AgreeButRecord (execRdcfg reg s) (execRdcfg reg (s.withRecord err errcode)) := by
  unfold execRdcfg
  cases hr : regOf reg with
  | none => exact .refuse _ _ s err errcode
  | some r =>
    have hstatus : r ≠ .status := fun e => hreg (regOf_eq_status (e ▸ hr))
    simp only [regval_withRecord hstatus]
    exact .next (respond 0x03 [regval s r] s) err errcode

theorem execStart_agree : AgreeButRecord (execStart s) (execStart (s.withRecord err errcode)) := by
  unfold execStart
  simp only [withRecord_mode, withRecord_frame, withRecord_osamp, withRecord_pitch, withRecord_rate, withRecord_stream]
  cases s.mode with
  | run => exact .refuse _ _ s err errcode
  | config =>
    dsimp only
    cases startRefusal Config.NUM.toNumOps s.frame s.osamp (Config.NUM.decode s.pitch) (Config.NUM.decode s.rate) with
    | some c => exact .refuse _ c s err errcode
    | none => exact .next _ err errcode

theorem execPush_agree (x : Word) : AgreeButRecord (execPush x s) (execPush x (s.withRecord err errcode)) := by
  unfold execPush
  rw [withRecord_mode, withRecord_stream]
  cases s.mode with
  | config => exact .refuse _ _ s err errcode
  | run =>
    dsimp only
    cases pushStream Config.NUM x s.stream with
    | ok r => exact .next _ err errcode
    | error e => rfl

theorem execBlock_agree (xs : List Word) : AgreeButRecord (execBlock xs s) (execBlock xs (s.withRecord err errcode)) := by
  unfold execBlock
  rw [withRecord_mode, withRecord_stream]
  cases s.mode with
  | config => exact .refuse _ _ s err errcode
  | run =>
    dsimp only
    cases blockStream Config.NUM xs s.stream with
    | ok r => exact .next _ err errcode
    | error e => rfl

theorem exec_assemble_agree {hd : Header} {ops : List Word} (hi : assemble hd ops ≠ .rdcfg 0x0000) :
    AgreeButRecord (exec (assemble hd ops) s) (exec (assemble hd ops) (s.withRecord err errcode)) := by
  cases hd with
  | nop => exact .next (respond 0x00 [] s) err errcode
  | reset => exact .next (respond 0x01 [] (resetTransition s)) false 0x00
  | wrcfg reg => exact execWrcfg_agree s err errcode reg _
  | rdcfg reg => exact execRdcfg_agree s err errcode fun e => hi (congrArg Instr.rdcfg e)
  | start => exact execStart_agree s err errcode
  | push => exact execPush_agree s err errcode _
  | block cnt => exact execBlock_agree s err errcode ops
  | clrerr => exact .next (respond 0x07 [] (clearError s)) false 0x00

theorem exec_agree {i : Instr} (hi : i ≠ .rdcfg 0x0000) :
    AgreeButRecord (exec i s) (exec i (s.withRecord err errcode)) := by
  obtain ⟨hd, ops, rfl⟩ | rfl | ⟨f, hexec, -⟩ := instr_cases i
  · exact exec_assemble_agree s err errcode hi
  · exact .next s err errcode
  · rw [hexec, hexec]
    exact onStream_agree s err errcode f

end Commands

end Sys2Proof.Machine

namespace Sys2Proof.Proofs

open Sys2Proof.Machine

/-- Settles O56: no instruction but `RDCFG STATUS` branches on the record or answers it; a refusal reads it to keep the first error. -/
theorem errorRecordChangesNoCommand : Obligations.ErrorRecordChangesNoCommand :=
  fun _ s err errcode hi => exec_agree s err errcode hi

end Sys2Proof.Proofs
end

section
/-!
The reset state (spec/10_state.md R44, R47).
-/

namespace Sys2Proof.Proofs

open Sys2Proof.Machine

/-- Settles O3: every value of R44 is read off the reset state. -/
theorem resetStateValues : Obligations.ResetStateValues := by
  refine ⟨rfl, rfl, rfl, rfl, rfl, rfl, rfl, rfl, rfl, ?status, rfl, rfl, rfl, rfl, fun k => ?arrays⟩
  case status => decide
  case arrays => exact ⟨rfl, rfl, rfl, rfl, rfl, rfl, rfl, rfl, rfl, rfl⟩

/-- Settles O49: hardware reset is the reset transition on the reset state. -/
theorem resetHasInvariant : Obligations.ResetHasInvariant := resetTransition_invariant State.reset

end Sys2Proof.Proofs
end

section
/-!
Where an access to a missing element stops the block, and that no access of a state with the invariant does (spec/10_state.md R47,
20_memory.md R65, 40_sliding_window_fifo.md R136, 60_exceptions.md R263).
-/

namespace Sys2Proof.Machine

/-- A micro-operation is one check of its arrays and geometry (log entry 15): it faults exactly when the check fails. -/
theorem onStream_noElement_iff {f : Stream Num → Except Fault (Stream Num)} {s : State} {present : Prop} [Decidable present]
    {st : Stream Num} (hf : f s.stream = ifElements (decide present) st) :
    onStream f s = .fault .noElement ↔ ¬ present := by
  unfold onStream
  rw [hf]
  by_cases h : present
  · simp [h]
  · simp [h, ifElements]

theorem cursorInRange_eq_false_iff {α : Type} (st : Stream α) :
    cursorInRange st = false ↔
      ¬ (st.L ≤ st.rover.toNat ∧ st.rover.toNat < st.inputFIFO.length ∧ st.rover.toNat - st.L < st.outputFIFO.length) :=
  decide_eq_false_iff_not

theorem execPush_of_no_cursor (x : Word) {s : State} (hm : s.mode = .run) (hc : cursorInRange s.stream = false) :
    execPush x s = .fault .noElement := by
  simp only [execPush, hm, pushStream_of_no_cursor Config.NUM x hc]

end Sys2Proof.Machine

namespace Sys2Proof.Proofs

open Sys2Proof.Machine

/-- Settles O51: the step that keeps the invariant is one that completes. -/
theorem invariantStepsComplete : Obligations.InvariantStepsComplete := by
  intro s h
  obtain ⟨t, hstep, -⟩ := step_keeps h
  exact ⟨t, hstep⟩

/-- Settles O22: the eleven clauses on micro-operations are their checks, each read off its definition; a `PUSH` checks its
cursor before it takes the sample. -/
theorem missingElementFaults : Obligations.MissingElementFaults := by
  intro s
  refine ⟨?window, ?fftFwd, ?fftInv, ?analyze, ?remap, ?synth, ?zeroneg, ?olaAdd, ?drain, ?accShift, ?inShift, ?push⟩
  case window => exact onStream_noElement_iff (f := windowStream _) rfl
  case fftFwd => exact onStream_noElement_iff (f := fftStream _ .fwd) rfl
  case fftInv => exact onStream_noElement_iff (f := fftStream _ .inv) rfl
  case analyze => exact onStream_noElement_iff (f := analyzeStream _) rfl
  case remap => exact onStream_noElement_iff (f := remapStream _) rfl
  case synth => exact onStream_noElement_iff (f := synthStream _) rfl
  case zeroneg => exact onStream_noElement_iff (f := zeroNegStream _) rfl
  case olaAdd => exact onStream_noElement_iff (f := olaAddStream _) rfl
  case drain => exact onStream_noElement_iff (f := drainStream _) rfl
  case accShift => exact onStream_noElement_iff (f := accShiftStream _) rfl
  case inShift => exact onStream_noElement_iff (f := inShiftStream _) rfl
  case push =>
    intro x hm hcursor
    exact execPush_of_no_cursor x hm ((cursorInRange_eq_false_iff s.stream).2 hcursor)

end Sys2Proof.Proofs
end

section
/-!
The encoding: a command word is one of the words `op 00 imm` of a header, and reading the command stream takes a header's word and
the operand words it announces (spec/30_encoding.md R91 to R95, R102, R105).
-/

namespace Sys2Proof

open Sys2Proof.Laws

/-! ## Command words -/

/-- A word without reserved bits is the command word of its opcode and its immediate. -/
theorem eq_commandWord_of_rsvField {w : Word} (h : rsvField w = 0) : w = commandWord (opField w) (immField w) := by
  apply BitVec.eq_of_toNat_eq
  have hw := w.isLt
  have hrsv := congrArg BitVec.toNat h
  simp only [rsvField, BitVec.extractLsb'_toNat, Nat.shiftRight_eq_div_pow] at hrsv
  simp only [commandWord_toNat, opField, immField, BitVec.extractLsb'_toNat, Nat.shiftRight_eq_div_pow]
  change _ = 0 at hrsv
  omega

/-- The top byte of a header's command word (30_encoding.md R93). -/
def Header.opcode : Header → BitVec 8
  | .nop => 0x00
  | .reset => 0x01
  | .wrcfg _ => 0x02
  | .rdcfg _ => 0x03
  | .start => 0x04
  | .push => 0x05
  | .block _ => 0x06
  | .clrerr => 0x07

/-- The immediate of a header's command word (30_encoding.md R92, R93). -/
def Header.immediate : Header → BitVec 16
  | .wrcfg reg => reg
  | .rdcfg reg => reg
  | .block cnt => cnt
  | .nop => 0
  | .reset => 0
  | .start => 0
  | .push => 0
  | .clrerr => 0

/-- The one command word of a header (30_encoding.md R93). -/
def Header.word (hd : Header) : Word := commandWord hd.opcode hd.immediate

@[simp] theorem opField_word (hd : Header) : opField hd.word = hd.opcode := commandWord_op _ _
@[simp] theorem rsvField_word (hd : Header) : rsvField hd.word = 0 := commandWord_rsv _ _
@[simp] theorem immField_word (hd : Header) : immField hd.word = hd.immediate := commandWord_imm _ _

theorem commandWord_eq_append {op : BitVec 8} {hi : BitVec 16} (h : op ++ 0#8 = hi) (imm : BitVec 16) :
    commandWord op imm = hi ++ imm := h ▸ rfl

theorem wrcfg_word (reg : RegNum) : (Header.wrcfg reg).word = (0x0200 : BitVec 16) ++ reg :=
  commandWord_eq_append (op := 0x02) (by decide) reg

theorem rdcfg_word (reg : RegNum) : (Header.rdcfg reg).word = (0x0300 : BitVec 16) ++ reg :=
  commandWord_eq_append (op := 0x03) (by decide) reg

theorem block_word (cnt : BitVec 16) : (Header.block cnt).word = (0x0600 : BitVec 16) ++ cnt :=
  commandWord_eq_append (op := 0x06) (by decide) cnt

/-! ## The decoder of command words -/

theorem zeroImm_eq_some_iff {imm : BitVec 16} {h hd : Header} : zeroImm imm h = some hd ↔ imm = 0 ∧ h = hd := by
  unfold zeroImm
  split_ifs with hi
  · exact ⟨fun h => ⟨hi, Option.some.inj h⟩, fun h => congrArg some h.2⟩
  · exact ⟨fun h => (nomatch h), fun h => absurd h.1 hi⟩

@[simp] theorem decodeHeader_word (hd : Header) : decodeHeader hd.word = some hd := by
  unfold decodeHeader
  rw [if_neg (not_not.2 (rsvField_word hd)), opField_word, immField_word]
  cases hd <;> rfl

/-- A decoded word has the fields of its header. -/
theorem fields_of_decodeHeader {w : Word} {hd : Header} (h : decodeHeader w = some hd) :
    rsvField w = 0 ∧ opField w = hd.opcode ∧ immField w = hd.immediate := by
  unfold decodeHeader at h
  split at h
  next => cases h
  next hrsv =>
    refine ⟨not_not.1 hrsv, ?_⟩
    split at h
    -- The ninth row is an opcode of no command; the third, fourth and seventh (`WRCFG`, `RDCFG`, `BLOCK`) carry an immediate.
    case h_9 => cases h
    case h_3 hop | h_4 hop | h_7 hop => cases h; exact ⟨BitVec.eq_of_toNat_eq hop, rfl⟩
    all_goals
      next hop =>
        obtain ⟨himm, rfl⟩ := zeroImm_eq_some_iff.1 h
        exact ⟨BitVec.eq_of_toNat_eq hop, himm⟩

/-- The decoder reads a header from its own word and from no other (30_encoding.md R93, R95). -/
theorem decodeHeader_eq_some_iff {w : Word} {hd : Header} : decodeHeader w = some hd ↔ w = hd.word := by
  constructor
  · intro h
    obtain ⟨hrsv, hop, himm⟩ := fields_of_decodeHeader h
    rw [eq_commandWord_of_rsvField hrsv, hop, himm, Header.word]
  · rintro rfl
    exact decodeHeader_word hd

theorem nops_of_decodeHeader {w : Word} {hd : Header} (h : decodeHeader w = some hd) : nops w = hd.operands := by
  rw [nops, h]

/-- The match and the mask of a row with an immediate, together with that immediate, say the whole word (30_encoding.md R93). -/
theorem eq_append_iff_mask {m : Word} {hi : BitVec 16} (hm : m = hi ++ 0#16) (w : Word) (lo : BitVec 16) :
    w = hi ++ lo ↔ w &&& 0xFFFF0000 = m ∧ w &&& 0x0000FFFF = lo.setWidth 32 := by
  have hlow : lo.setWidth 32 = 0#16 ++ lo := BitVec.setWidth_eq_append (by decide)
  rw [hm, hlow]
  constructor
  · rintro rfl
    have hupper : (0xFFFF0000 : BitVec 32) = BitVec.allOnes 16 ++ 0#16 := by decide
    have hlower : (0x0000FFFF : BitVec 32) = 0#16 ++ BitVec.allOnes 16 := by decide
    rw [hupper, hlower, BitVec.and_append, BitVec.and_append]
    simp only [BitVec.and_allOnes, BitVec.and_zero, and_self]
  · rintro ⟨hmatch, himm⟩
    calc w = w &&& (0xFFFF0000 ||| 0x0000FFFF) := (BitVec.and_allOnes (x := w)).symm
      _ = (hi ++ 0#16) ||| (0#16 ++ lo) := by rw [BitVec.and_or_distrib_left, hmatch, himm]
      _ = hi ++ lo := by rw [BitVec.or_append, BitVec.or_zero, BitVec.zero_or]

theorem eq_iff_full_mask (w v : Word) : w = v ↔ w &&& 0xFFFFFFFF = v := by
  rw [show w &&& 0xFFFFFFFF = w from BitVec.and_allOnes]

/-! ## The decoder of the command stream -/

theorem decodeCommand_of_illegal {w : Word} (h : decodeHeader w = none) (ws : List Word) :
    decodeCommand (w :: ws) = .illegal w ws := by
  simp only [decodeCommand, h]

theorem decodeCommand_of_short {w : Word} {hd : Header} (h : decodeHeader w = some hd) {ws : List Word}
    (hlen : ws.length < hd.operands) : decodeCommand (w :: ws) = .incomplete := by
  simp only [decodeCommand, h, if_pos hlen]

theorem decodeCommand_of_enough {w : Word} {hd : Header} (h : decodeHeader w = some hd) {ws : List Word}
    (hlen : hd.operands ≤ ws.length) :
    decodeCommand (w :: ws) = .instr (assemble hd (ws.take hd.operands)) (ws.drop hd.operands) := by
  simp only [decodeCommand, h, if_neg (Nat.not_lt.2 hlen)]

/-- A header's word and its operand words are one command, whatever follows (30_encoding.md R94). -/
theorem decodeCommand_word_append {hd : Header} {ops : List Word} (h : ops.length = hd.operands) (rest : List Word) :
    decodeCommand (hd.word :: ops ++ rest) = .instr (assemble hd ops) rest := by
  rw [List.cons_append, decodeCommand_of_enough (decodeHeader_word hd) (by rw [List.length_append]; omega), ← h,
    List.take_left, List.drop_left]

/-! ## Instructions and their encodings -/

/-- What an instruction is to the encoder: a header with the operand words it announces, or a micro-operation's code. -/
inductive EncodedAs : Instr → Prop where
  /-- A command (30_encoding.md R92). -/
  | command (hd : Header) (ops : List Word) (hlen : ops.length = hd.operands)
      (henc : encode (assemble hd ops) = .words (hd.word :: ops)) : EncodedAs (assemble hd ops)
  /-- A micro-operation (R105). -/
  | micro {i : Instr} (c : MicroCode) (henc : encode i = .code c) (hdec : decodeMicro c = some i) : EncodedAs i

theorem encodedAs_of_wellFormed {i : Instr} (h : WellFormed i = true) : EncodedAs i := by
  cases i with
  | nop => exact .command .nop [] rfl rfl
  | reset => exact .command .reset [] rfl rfl
  | wrcfg reg v => exact .command (.wrcfg reg) [v] rfl rfl
  | rdcfg reg => exact .command (.rdcfg reg) [] rfl rfl
  | start => exact .command .start [] rfl rfl
  | push x => exact .command .push [x] rfl rfl
  | block xs =>
    have hlen : xs.length ≤ 65535 := of_decide_eq_true h
    have hcnt : (BitVec.ofNat 16 xs.length).toNat = xs.length := Nat.mod_eq_of_lt (by omega)
    exact .command (.block (BitVec.ofNat 16 xs.length)) xs hcnt.symm rfl
  | clrerr => exact .command .clrerr [] rfl rfl
  | uIdle => exact .micro 0x0 rfl rfl
  | uWindow => exact .micro 0x1 rfl rfl
  | uFftFwd => exact .micro 0x2 rfl rfl
  | uAnalyze => exact .micro 0x3 rfl rfl
  | uRemap => exact .micro 0x4 rfl rfl
  | uSynth => exact .micro 0x5 rfl rfl
  | uZeroneg => exact .micro 0x6 rfl rfl
  | uFftInv => exact .micro 0x7 rfl rfl
  | uOlaAdd => exact .micro 0x8 rfl rfl
  | uDrain => exact .micro 0x9 rfl rfl
  | uAccShift => exact .micro 0xA rfl rfl
  | uInShift => exact .micro 0xB rfl rfl

/-- An instruction encoded in words is the command those words begin with. -/
theorem command_of_encode_words {i : Instr} {ws : List Word} (hwf : WellFormed i = true) (henc : encode i = .words ws) :
    ∃ hd ops, i = assemble hd ops ∧ ws = hd.word :: ops ∧ ops.length = hd.operands := by
  cases encodedAs_of_wellFormed hwf with
  | command hd ops hlen henc' => exact ⟨hd, ops, rfl, Encoding.words.inj (henc.symm.trans henc'), hlen⟩
  | micro c henc' => exact nomatch henc.symm.trans henc'

/-- The words of a well-formed command at the head of the stream are that command, and no word more is taken
(30_encoding.md R94). -/
theorem decodeCommand_encode {i : Instr} {ws : List Word} (hwf : WellFormed i = true) (henc : encode i = .words ws)
    (rest : List Word) : decodeCommand (ws ++ rest) = .instr i rest := by
  obtain ⟨hd, ops, rfl, rfl, hlen⟩ := command_of_encode_words hwf henc
  exact decodeCommand_word_append hlen rest

theorem decodeEncoding_encode {i : Instr} (hwf : WellFormed i = true) : decodeEncoding (encode i) = some i := by
  cases henc : encode i with
  | words ws =>
    have hdec := decodeCommand_encode hwf henc []
    rw [List.append_nil] at hdec
    simp only [decodeEncoding, hdec]
  | code c =>
    cases encodedAs_of_wellFormed hwf with
    | command hd ops _ henc' => exact nomatch henc.symm.trans henc'
    | micro c' henc' hdec =>
      cases henc.symm.trans henc'
      exact hdec

theorem decodeMicro_eq_none {c : MicroCode} (h : 0xC ≤ c.toNat) : decodeMicro c = none := by
  revert c; decide

end Sys2Proof

namespace Sys2Proof.Proofs

/-- Settles O39: a well-formed instruction is a header with the operand words it announces, or a micro-operation's code. -/
theorem decodeInvertsEncode : Obligations.DecodeInvertsEncode :=
  fun _ hwf => ⟨decodeEncoding_encode hwf, fun _ rest henc => decodeCommand_encode hwf henc rest⟩

/-- Settles O40: each header has one word, and a row's match and mask, with the immediate, fix that word. -/
theorem opcodeMapByMatchAndMask : Obligations.OpcodeMapByMatchAndMask := by
  intro w
  simp only [decodeHeader_eq_some_iff, wrcfg_word, rdcfg_word, block_word]
  exact ⟨eq_iff_full_mask w _, eq_iff_full_mask w _, eq_append_iff_mask (by decide) w, eq_append_iff_mask (by decide) w,
    eq_iff_full_mask w _, eq_iff_full_mask w _, eq_append_iff_mask (by decide) w, eq_iff_full_mask w _⟩

/-- Settles O42: the announced number of words is the header's, and a `BLOCK`'s is its immediate. -/
theorem operandCountByWordAlone : Obligations.OperandCountByWordAlone := by
  intro w ws
  cases h : decodeHeader w with
  | none =>
    exact ⟨by rw [nops, h], fun _ => decodeCommand_of_illegal h ws, fun hne => absurd rfl hne, fun hne => absurd rfl hne⟩
  | some hd =>
    rw [nops_of_decodeHeader h]
    refine ⟨?count, fun hnone => (nomatch hnone), fun _ => decodeCommand_of_short h,
      fun _ hlen => ⟨_, decodeCommand_of_enough h hlen⟩⟩
    case count =>
      obtain ⟨-, -, himm⟩ := fields_of_decodeHeader h
      cases hd with
      | block cnt => exact (congrArg BitVec.toNat himm).symm
      | _ => rfl

/-- Settles O43: each encoding is decoded by evaluation. -/
theorem writtenWordsDecode : Obligations.WrittenWordsDecode := by
  unfold Obligations.WrittenWordsDecode
  decide

end Sys2Proof.Proofs
end

section
/-!
What a step takes from the host's command stream or from the sequencer's code (spec/30_encoding.md R90, R94, R102, R105).
-/

namespace Sys2Proof.Machine

/-! ## Taking words -/

/-- Words the host has sent stand at the head of the command stream. -/
theorem leadingWords_words_append (ws : List Word) (rest : List HostInput) :
    leadingWords (ws.map HostInput.word ++ rest) = ws ++ leadingWords rest := by
  induction ws with
  | nil => rfl
  | cons w ws ih => exact congrArg (w :: ·) ih

/-- A whole command at the head of the stream is taken with exactly its words (30_encoding.md R94). -/
theorem fetchCommand_of_command {s : State} {i : Instr} {ws : List Word} {rest : List HostInput}
    (hcmd : s.cmd = ws.map HostInput.word ++ rest)
    (hdec : decodeCommand (ws ++ leadingWords rest) = .instr i (leadingWords rest)) :
    fetchCommand s = .instr i { s with cmd := rest } := by
  have htaken : (ws ++ leadingWords rest).length - (leadingWords rest).length = (ws.map HostInput.word).length := by
    rw [List.length_append, Nat.add_sub_cancel, List.length_map]
  simp only [fetchCommand, hcmd, leadingWords_words_append, hdec, htaken, List.drop_left]

/-- An illegal word is taken alone (30_encoding.md R102). -/
theorem fetchCommand_of_illegal {s : State} {w : Word} {rest : List HostInput} (hcmd : s.cmd = .word w :: rest)
    (hw : decodeHeader w = none) : fetchCommand s = .illegal w { s with cmd := rest } := by
  simp only [fetchCommand, hcmd, leadingWords, decodeCommand_of_illegal hw, List.drop_one, List.tail_cons]

/-- A refusal in the terms of the statements (60_exceptions.md R250, R256). -/
theorem refuse_eq_refused (op : BitVec 8) (c : Status) (s : State) : refuse op c s = refused op (statusCode c) s :=
  refuse_spec op c s

theorem step_of_illegal {s : State} {w : Word} {rest : List HostInput} (hu : s.uop = 0x0) (hcmd : s.cmd = .word w :: rest)
    (hw : decodeHeader w = none) : step s = .next (refuse (opField w) .illegalCmd { s with cmd := rest }) := by
  rw [step, fetch_of_idle hu, fetchCommand_of_illegal hcmd hw]

theorem step_of_undefined_micro {s : State} (hu : s.uop ≠ 0x0) (hi : decodeMicro s.uop = none) :
    step s = .fault .undefinedMicroOp := by
  simp only [step, fetch, if_neg hu, hi]

end Sys2Proof.Machine

namespace Sys2Proof.Proofs

open Sys2Proof.Machine

/-- A word is legal exactly when it is a header's. -/
theorem decodeHeader_isSome_iff (w : Word) : (decodeHeader w).isSome = true ↔ ∃ hd : Header, w = hd.word := by
  simp only [Option.isSome_iff_exists, decodeHeader_eq_some_iff]

/-- Settles O41: the legal words are the headers' words, and a step takes an illegal word alone and refuses it. -/
theorem illegalWordsAreRefused : Obligations.IllegalWordsAreRefused := by
  refine ⟨fun w => ?legal, fun s w rest hu hcmd hw => ?refused⟩
  case legal =>
    rw [decodeHeader_isSome_iff]
    constructor
    · rintro ⟨hd, rfl⟩
      cases hd with
      | nop => exact .inl rfl
      | reset => exact .inr (.inl rfl)
      | start => exact .inr (.inr (.inl rfl))
      | push => exact .inr (.inr (.inr (.inl rfl)))
      | clrerr => exact .inr (.inr (.inr (.inr (.inl rfl))))
      | wrcfg reg => exact .inr (.inr (.inr (.inr (.inr ⟨reg, .inl (wrcfg_word reg)⟩))))
      | rdcfg reg => exact .inr (.inr (.inr (.inr (.inr ⟨reg, .inr (.inl (rdcfg_word reg))⟩))))
      | block cnt => exact .inr (.inr (.inr (.inr (.inr ⟨cnt, .inr (.inr (block_word cnt))⟩))))
    · rintro (rfl | rfl | rfl | rfl | rfl | ⟨imm, rfl | rfl | rfl⟩)
      exacts [⟨.nop, rfl⟩, ⟨.reset, rfl⟩, ⟨.start, rfl⟩, ⟨.push, rfl⟩, ⟨.clrerr, rfl⟩,
        ⟨.wrcfg imm, (wrcfg_word imm).symm⟩, ⟨.rdcfg imm, (rdcfg_word imm).symm⟩, ⟨.block imm, (block_word imm).symm⟩]
  case refused =>
    rw [step_of_illegal hu hcmd hw, refuse_eq_refused]
    rfl

/-- Settles O11: `U.IDLE` is the identity (30_encoding.md R105, log entry 7). -/
theorem idleChangesNothing : Obligations.IdleChangesNothing := fun _ => rfl

/-- Settles O44: decoding the words of the command takes no word more, so the fetch drops just them. -/
theorem stepRunsDecodedCommand : Obligations.StepRunsDecodedCommand := by
  intro s i ws rest hu hwf henc hcmd
  rw [step, fetch_of_idle hu, fetchCommand_of_command hcmd (decodeCommand_encode hwf henc _)]

/-- Settles O45: the fetch moves the code on before the micro-operation runs; from 0xC on a code names none. -/
theorem stepRunsMicroOperation : Obligations.StepRunsMicroOperation := by
  refine fun s => ⟨fun i hu hi => step_of_micro hu hi, fun hcode => step_of_undefined_micro ?_ (decodeMicro_eq_none hcode)⟩
  intro hu
  rw [hu] at hcode
  exact absurd hcode (by decide)

end Sys2Proof.Proofs
end

section
/-!
Every command is answered once: by its data words after a header `OK`, or by the one word of a refusal (spec/30_encoding.md R99).
-/

namespace Sys2Proof.Machine

/-- `t` has the response words of `s` and then one response to a command with the top byte `op`: a header that counts its data
words, none after a refusal and `n` after a success (30_encoding.md R99). -/
def AnswersOnce (op : BitVec 8) (n : Nat) (s t : State) : Prop :=
  ∃ (status : BitVec 8) (data : List Word),
    t.rsp = s.rsp ++ responseHeader op status data.length :: data ∧ data.length < 2 ^ 16 ∧
    (status ≠ 0 → data = []) ∧ (status = 0 → data.length = n)

theorem statusCode_ne_zero {c : Status} (h : c ≠ .ok) : statusCode c ≠ 0 := by
  cases c with
  | ok => exact absurd rfl h
  | _ => decide

/-- An `OK` response is one response, when the command left the response words alone. -/
theorem answersOnce_respond {op : BitVec 8} {data : List Word} {s u : State} (hrsp : u.rsp = s.rsp)
    (hlen : data.length < 2 ^ 16) : AnswersOnce op data.length s (respond op data u) :=
  ⟨0x00, data, by rw [respond_rsp, hrsp], hlen, fun h => absurd rfl h, fun _ => rfl⟩

/-- A refusal is one response, whatever a success would have answered. -/
theorem answersOnce_refuse {op : BitVec 8} {c : Status} (hc : c ≠ .ok) (n : Nat) (s : State) :
    AnswersOnce op n s (refuse op c s) :=
  ⟨statusCode c, [], refuse_rsp op c s, by decide, fun _ => rfl, fun h => absurd h (statusCode_ne_zero hc)⟩

theorem writeReg_rsp {s s' : State} {v : Word} {r : Reg} (h : writeReg s v r = some s') : s'.rsp = s.rsp := by
  cases r <;> cases h <;> rfl

theorem execWrcfg_answersOnce {s t : State} {reg : RegNum} {v : Word} (h : execWrcfg reg v s = .next t) :
    AnswersOnce 0x02 0 s t := by
  unfold execWrcfg at h
  split at h
  next => cases h; exact answersOnce_refuse (by decide) 0 s
  next s' hw =>
    obtain ⟨r, -, hw⟩ := Option.bind_eq_some_iff.1 hw
    split at h
    next => cases h; exact answersOnce_refuse (by decide) 0 s
    next => cases h; exact answersOnce_respond (writeReg_rsp hw) (by decide)

theorem execRdcfg_answersOnce {s t : State} {reg : RegNum} (h : execRdcfg reg s = .next t) : AnswersOnce 0x03 1 s t := by
  unfold execRdcfg at h
  split at h
  next => cases h; exact answersOnce_refuse (by decide) 1 s
  next r _ => cases h; exact answersOnce_respond (data := [regval s r]) rfl (Nat.one_lt_two_pow (by decide))

theorem execStart_answersOnce {s t : State} (h : execStart s = .next t) : AnswersOnce 0x04 0 s t := by
  unfold execStart at h
  split at h
  next => cases h; exact answersOnce_refuse (by decide) 0 s
  next =>
    dsimp only at h
    split at h
    next c hc => cases h; exact answersOnce_refuse (Proofs.startRefusal_ne_ok _ hc) 0 s
    next => cases h; exact answersOnce_respond rfl (by decide)

theorem execPush_answersOnce {s t : State} {x : Word} (h : execPush x s = .next t) : AnswersOnce 0x05 1 s t := by
  unfold execPush at h
  split at h
  next => cases h; exact answersOnce_refuse (by decide) 1 s
  next =>
    split at h
    next st y _ => cases h; exact answersOnce_respond (data := [y]) rfl (Nat.one_lt_two_pow (by decide))
    next => cases h

/-- A `BLOCK` that completes answers one word for each sample (40_sliding_window_fifo.md R125). -/
theorem blockStream_length {α : Type} (N : NumInst α) {xs ys : List Word} {st st' : Stream α}
    (h : blockStream N xs st = .ok (st', ys)) : ys.length = xs.length := by
  induction xs generalizing st st' ys with
  | nil => cases h; rfl
  | cons x xs ih =>
    obtain ⟨⟨st1, y⟩, -, h⟩ := bind_eq_ok.1 h
    obtain ⟨⟨st2, ys'⟩, hblock, h⟩ := bind_eq_ok.1 h
    cases h
    exact congrArg (· + 1) (ih hblock)

theorem execBlock_answersOnce {s t : State} {xs : List Word} (hlen : xs.length < 2 ^ 16) (h : execBlock xs s = .next t) :
    AnswersOnce 0x06 xs.length s t := by
  unfold execBlock at h
  split at h
  next => cases h; exact answersOnce_refuse (by decide) _ s
  next =>
    split at h
    next st ys hblock =>
      cases h
      have hys := blockStream_length _ hblock
      rw [← hys] at hlen ⊢
      exact answersOnce_respond rfl hlen
    next => cases h

/-- The number of data words of a command's `OK` response (30_encoding.md R92, R99). -/
def answerLength : Header → List Word → Nat
  | .rdcfg _, _ => 1
  | .push, _ => 1
  | .block _, ops => ops.length
  | .nop, _ => 0
  | .reset, _ => 0
  | .wrcfg _, _ => 0
  | .start, _ => 0
  | .clrerr, _ => 0

/-- Every whole command is answered once, under its own top byte. -/
theorem exec_assemble_answersOnce {hd : Header} {ops : List Word} {s t : State} (hlen : ops.length = hd.operands)
    (h : exec (assemble hd ops) s = .next t) : AnswersOnce hd.opcode (answerLength hd ops) s t := by
  cases hd with
  | nop => cases h; exact answersOnce_respond rfl (by decide)
  | reset => cases h; exact answersOnce_respond rfl (by decide)
  | wrcfg reg => exact execWrcfg_answersOnce h
  | rdcfg reg => exact execRdcfg_answersOnce h
  | start => exact execStart_answersOnce h
  | push => exact execPush_answersOnce h
  | block cnt => exact execBlock_answersOnce (hlen ▸ cnt.isLt) h
  | clrerr => cases h; exact answersOnce_respond rfl (by decide)

end Sys2Proof.Machine

namespace Sys2Proof.Proofs

open Sys2Proof.Machine

/-- Settles O53: every command ends in `respond` or in `refuse`, whose header has the opcode of the command word. -/
theorem oneResponsePerCommand : Obligations.OneResponsePerCommand := by
  refine ⟨fun i s t w ops hwf henc hexec => ?command, fun s w rest hu hcmd hw => ?illegal⟩
  case command =>
    obtain ⟨hd, ops', rfl, hws, hlen⟩ := command_of_encode_words hwf henc
    obtain ⟨rfl, rfl⟩ := List.cons.inj hws
    obtain ⟨status, data, hrsp, hdata, hrefused, hok⟩ := exec_assemble_answersOnce hlen hexec
    rw [← opField_word hd] at hrsp
    refine ⟨status, data, hrsp, hdata, hrefused, fun hstatus => (hok hstatus).trans ?_⟩
    cases hd <;> rfl
  case illegal => exact ⟨_, step_of_illegal hu hcmd hw, refuse_rsp _ _ _⟩

end Sys2Proof.Proofs
end

section
/-!
The expansion of `PROCESS` into `BLOCK`s (spec/30_encoding.md R107).
-/

namespace Sys2Proof.Machine

/-- The samples an instruction carries in a `BLOCK`. -/
def blockSamples : Instr → List Word
  | .block xs => xs
  | _ => []

theorem blocks_succ_of_ne_nil (fuel : Nat) {xs : List Word} (h : xs ≠ []) :
    blocks (fuel + 1) xs = .block (xs.take maxBlock) :: blocks fuel (xs.drop maxBlock) := if_neg h

/-- Every `BLOCK` of the expansion can be announced and, by the model's choice (log entry 26), carries a sample. -/
theorem blocks_wellFormed {fuel : Nat} {xs : List Word} {i : Instr} (h : i ∈ blocks fuel xs) :
    WellFormed i = true ∧ ∃ ys, i = .block ys ∧ ys ≠ [] := by
  induction fuel generalizing xs with
  | zero => cases h
  | succ fuel ih =>
    by_cases hxs : xs = []
    · subst hxs; cases h
    · rw [blocks_succ_of_ne_nil fuel hxs, List.mem_cons] at h
      obtain rfl | h := h
      · refine ⟨decide_eq_true (List.length_take_le _ _), _, rfl, fun htake => ?_⟩
        exact (List.take_eq_nil_iff.1 htake).elim (by decide) hxs
      · exact ih h

/-- With fuel for its samples the expansion carries them all, in order. -/
theorem blocks_samples {fuel : Nat} {xs : List Word} (h : xs.length ≤ fuel) : (blocks fuel xs).flatMap blockSamples = xs := by
  induction fuel generalizing xs with
  | zero => rw [List.length_eq_zero_iff.1 (Nat.le_zero.1 h)]; rfl
  | succ fuel ih =>
    by_cases hxs : xs = []
    · subst hxs; rfl
    · have hdrop : (xs.drop maxBlock).length ≤ fuel := by
        rw [List.length_drop]
        show xs.length - 65535 ≤ fuel
        omega
      rw [blocks_succ_of_ne_nil fuel hxs, List.flatMap_cons, ih hdrop]
      exact List.take_append_drop maxBlock xs

end Sys2Proof.Machine

namespace Sys2Proof.Proofs

open Sys2Proof.Machine

/-- Settles O58: each `BLOCK` takes at most 65535 samples from the front of what is left, and the fuel, one for each sample,
outlasts them. -/
theorem processBlocksCarryTheInput : Obligations.ProcessBlocksCarryTheInput :=
  ⟨fun xs => ⟨fun _ => blocks_wellFormed, blocks_samples (Nat.le_refl xs.length)⟩, rfl⟩

end Sys2Proof.Proofs
end

section
/-! The block move of `U.IN_SHIFT` (spec/40_sliding_window_fifo.md R130, 70_reset_and_hazards.md R294). -/

namespace Sys2Proof.Machine

variable {α : Type} (N : NumOps α)

/-- The elements a shift moves come from `hop` higher up. -/
theorem getElem?_shiftDown_moved {cnt hop : Nat} {A : List α} (h : cnt + hop ≤ A.length) {k : Nat} (hk : k < cnt) :
    (shiftDown N cnt hop A)[k]? = A[k + hop]? := by
  rw [getElem?_eq_memRead N _ (by rw [shiftDown_length]; omega), memRead_shiftDown N _ _ _ (by omega), if_pos hk,
    getElem?_eq_memRead N A (by omega)]

/-- The elements above those a shift moves stay. -/
theorem getElem?_shiftDown_kept (cnt hop : Nat) (A : List α) {k : Nat} (hk : cnt ≤ k) :
    (shiftDown N cnt hop A)[k]? = A[k]? :=
  getElem?_loop_memWrite cnt (fun k B => memRead N B (k + hop)) A hk

end Sys2Proof.Machine

namespace Sys2Proof.Proofs

open Sys2Proof.Machine

/-- Settles O21: `U.IN_SHIFT` is one block move of the input FIFO. -/
theorem inShiftMovesWindow : Obligations.InShiftMovesWindow := by
  intro s hlen hLS
  refine ⟨shiftDown Config.NUM.toNumOps s.stream.L s.stream.S s.stream.inputFIFO,
    onStream_of_ok ((inShiftStream_eq_ok _).2 ⟨⟨hlen, hLS⟩, rfl⟩), ?length, ?moved, ?kept⟩
  case length => rw [shiftDown_length, hlen]
  case moved => exact fun k hk => getElem?_shiftDown_moved _ (by omega) hk
  case kept => exact fun k hk => getElem?_shiftDown_kept _ _ _ _ hk

end Sys2Proof.Proofs
end

section
/-!
A frame, the eleven micro-operations run one after another as instructions, and eleven steps of the sequencer are one and the same
(spec/40_sliding_window_fifo.md R126, 30_encoding.md R105, log entry 7).
-/

namespace Sys2Proof.Machine

/-- The sequencer at the code `c` names the micro-operations `is`, one code after another, and they take the stream `a` to `b`. -/
inductive MicroRun : MicroCode → List Instr → Stream Num → Stream Num → Prop where
  | nil (c : MicroCode) (a : Stream Num) : MicroRun c [] a a
  | cons {c : MicroCode} {i : Instr} {is : List Instr} {f : Stream Num → Except Fault (Stream Num)} {a a' b : Stream Num}
      (hc : c ≠ 0x0) (hi : decodeMicro c = some i) (hexec : ∀ s, exec i s = onStream f s) (hf : f a = .ok a')
      (rest : MicroRun (nextCode c) is a' b) : MicroRun c (i :: is) a b

/-- Run as instructions, they leave all but the stream alone. -/
theorem MicroRun.runAll_eq {c : MicroCode} {is : List Instr} {a b : Stream Num} (h : MicroRun c is a b) {s : State}
    (hs : s.stream = a) : runAll is s = .next { s with stream := b } := by
  induction h generalizing s with
  | nil => subst hs; rfl
  | cons _ _ hexec hf _ ih =>
    subst hs
    rw [runAll, hexec, onStream_of_ok hf]
    exact ih rfl

/-- A step at the code of a micro-operation runs it on the stream and moves the code on. -/
theorem step_of_micro_ok {s : State} {i : Instr} {f : Stream Num → Except Fault (Stream Num)} {st : Stream Num}
    (hu : s.uop ≠ 0x0) (hi : decodeMicro s.uop = some i) (hexec : ∀ s, exec i s = onStream f s) (hf : f s.stream = .ok st) :
    step s = .next { s with uop := nextCode s.uop, stream := st } := by
  rw [step_of_micro hu hi, hexec]
  exact onStream_of_ok hf

theorem run_succ_of_next {n : Nat} {s t : State} (h : step s = .next t) : core.run (n + 1) s = core.run n t := by
  have hcore : core.step s = .next t := h
  simp only [Host.Core.run, hcore]

/-- Run by the sequencer, they take one step each and move the code on by one each. -/
theorem MicroRun.run_eq {c : MicroCode} {is : List Instr} {a b : Stream Num} (h : MicroRun c is a b) {s : State}
    (hs : s.stream = a) (hu : s.uop = c) :
    core.run is.length s = .next { s with uop := nextCode^[is.length] c, stream := b } := by
  induction h generalizing s with
  | nil => subst hs hu; rfl
  | cons hc hi hexec hf _ ih =>
    subst hs hu
    rw [List.length_cons, run_succ_of_next (step_of_micro_ok hc hi hexec hf), Function.iterate_succ_apply]
    exact ih rfl rfl

/-- A frame is the eleven micro-operations from the code of `U.WINDOW` on (R126). -/
theorem frameStream_microRun {st st' : Stream Num} (h : frameStream Config.NUM.toNumOps st = .ok st') :
    MicroRun 0x1 frameInstrs st st' := by
  obtain ⟨a, b, c, d, e, f, g, i, j, k, ha, hb, hc, hd, he, hf, hg, hi, hj, hk, hl⟩ := (frameStream_eq_ok _).1 h
  exact .cons (by decide) rfl (fun _ => rfl) ha <| .cons (by decide) rfl (fun _ => rfl) hb <|
    .cons (by decide) rfl (fun _ => rfl) hc <| .cons (by decide) rfl (fun _ => rfl) hd <|
    .cons (by decide) rfl (fun _ => rfl) he <| .cons (by decide) rfl (fun _ => rfl) hf <|
    .cons (by decide) rfl (fun _ => rfl) hg <| .cons (by decide) rfl (fun _ => rfl) hi <|
    .cons (by decide) rfl (fun _ => rfl) hj <| .cons (by decide) rfl (fun _ => rfl) hk <|
    .cons (by decide) rfl (fun _ => rfl) hl <| .nil _ _

end Sys2Proof.Machine

namespace Sys2Proof.Proofs

open Sys2Proof.Machine

/-- Settles O48: the frame of a running stream completes, its micro-operations stand at the codes 0x1 to 0xB, and the code after
0xB is `U.IDLE`. -/
theorem microSteppedFrameIsTheFrame : Obligations.MicroSteppedFrameIsTheFrame := by
  intro s hu hrun
  obtain ⟨st, hframe, -⟩ := frameStream_running Config.NUM.toNumOps hrun
  have hmicro := frameStream_microRun hframe
  exact ⟨st, hframe, hmicro.run_eq rfl hu, hmicro.runAll_eq rfl⟩

end Sys2Proof.Proofs
end

section
/-! What `PUSH` and `BLOCK` do and answer (spec/40_sliding_window_fifo.md R120, R124, R125). -/

namespace Sys2Proof.Machine

theorem execPush_of_config (x : Word) {s : State} (hm : s.mode = .config) :
    execPush x s = .next (refused 0x05 0x04 s) := by
  simp only [execPush, hm, refuse_eq_refused, statusCode]

theorem execPush_of_ok {x y : Word} {s : State} {st : Stream Num} (hm : s.mode = .run)
    (h : pushStream Config.NUM x s.stream = .ok (st, y)) :
    execPush x s = .next { s with stream := st, rsp := s.rsp ++ [0x05000001, y] } := by
  have hheader : responseHeader 0x05 0x00 [y].length = 0x05000001 := by rw [List.length_singleton]; decide
  simp only [execPush, hm, h, respond_spec, hheader]

theorem execBlock_of_config (xs : List Word) {s : State} (hm : s.mode = .config) :
    execBlock xs s = .next (refused 0x06 0x04 s) := by
  simp only [execBlock, hm, refuse_eq_refused, statusCode]

/-- The header of the answer to a `BLOCK` of `n` samples (30_encoding.md R99). -/
def blockHeader (n : Nat) : Word := (0x0600 : BitVec 16) ++ BitVec.ofNat 16 n

theorem execBlock_of_ok {xs ys : List Word} {s : State} {st : Stream Num} (hm : s.mode = .run)
    (h : blockStream Config.NUM xs s.stream = .ok (st, ys)) :
    execBlock xs s = .next { s with stream := st, rsp := s.rsp ++ blockHeader xs.length :: ys } := by
  simp only [execBlock, hm, h, ← blockStream_length _ h]
  rfl

/-- A `PUSH` on a running stream whose cursor does not reach `F` stores the sample and moves the cursor on (R121, R123). -/
theorem pushStream_below {α : Type} (N : NumInst α) (x : Word) {st : Stream α} (h : Running st)
    (hrover : st.rover.toNat + 1 < st.F) :
    pushStream N x st = .ok ({ acceptSample N x st with rover := st.rover + 1 }, outputSample N st) := by
  have hadvance : advanceStream N.toNumOps (acceptSample N x st) = .ok { acceptSample N x st with rover := st.rover + 1 } :=
    if_neg (Nat.not_le.2 hrover)
  rw [pushStream_of_cursor N x h.cursor, hadvance]
  rfl

/-- When the cursor reaches `F` it goes back to `L`, and a frame runs on the stream with the sample (R123). -/
theorem pushStream_last {α : Type} (N : NumInst α) (x : Word) {st : Stream α} (h : Running st)
    (hrover : st.rover.toNat + 1 = st.F) :
    ∃ st', frameStream N.toNumOps { acceptSample N x st with rover := BitVec.ofNat _ st.L } = .ok st' ∧
      pushStream N x st = .ok (st', outputSample N st) ∧ Running st' ∧ st'.rover.toNat = st.L := by
  have hrewind := (acceptSample_running N x h).rewind
  obtain ⟨st', hframe, hrun, -, hcursor⟩ := frameStream_running N.toNumOps hrewind
  refine ⟨st', hframe, ?_, hrun, ?_⟩
  · have hadvance : advanceStream N.toNumOps (acceptSample N x st) = .ok st' := (if_pos hrover.ge).trans hframe
    rw [pushStream_of_cursor N x h.cursor, hadvance]
    rfl
  · have hL := h.latency
    have hmax : st.F ≤ 4096 := h.frame_max
    rw [hcursor]
    exact rover_ofNat (show st.L ≤ 4096 by omega)

/-- A `BLOCK` takes its samples one by one (R125). -/
theorem blockStream_cons_eq_ok {α : Type} (N : NumInst α) {x : Word} {xs ys : List Word} {st st2 : Stream α} :
    blockStream N (x :: xs) st = .ok (st2, ys) ↔
      ∃ st1 y ys', pushStream N x st = .ok (st1, y) ∧ blockStream N xs st1 = .ok (st2, ys') ∧ ys = y :: ys' := by
  constructor
  · intro h
    obtain ⟨⟨st1, y⟩, hpush, h⟩ := bind_eq_ok.1 h
    obtain ⟨⟨st2, ys'⟩, hblock, h⟩ := bind_eq_ok.1 h
    cases h
    exact ⟨st1, y, ys', hpush, hblock, rfl⟩
  · rintro ⟨st1, y, ys', hpush, hblock, rfl⟩
    rw [blockStream_cons N hpush, hblock]
    rfl

/-- Two `BLOCK`s in a row are one of both (R125). -/
theorem blockStream_append_of_ok {α : Type} (N : NumInst α) {xs xs' ys ys' : List Word} {st st1 st2 : Stream α}
    (h : blockStream N xs st = .ok (st1, ys)) (h' : blockStream N xs' st1 = .ok (st2, ys')) :
    blockStream N (xs ++ xs') st = .ok (st2, ys ++ ys') := by
  rw [blockStream_append, bind_of_ok h, h']
  rfl

/-- The `PUSH` commands of the samples reach the stream of the `BLOCK`, and answer its output words one by one. -/
theorem runAll_push_of_blockStream {xs ys : List Word} {s : State} {st : Stream Num} (hm : s.mode = .run)
    (h : blockStream Config.NUM xs s.stream = .ok (st, ys)) :
    runAll (xs.map Instr.push) s =
      .next { s with stream := st, rsp := s.rsp ++ ys.flatMap fun y => [0x05000001, y] } := by
  induction xs generalizing s ys with
  | nil => cases h; simp [runAll]
  | cons x xs ih =>
    obtain ⟨st1, y, ys', hpush, hblock, rfl⟩ := (blockStream_cons_eq_ok _).1 h
    have hexec : exec (.push x) s = .next _ := execPush_of_ok hm hpush
    rw [List.map_cons, runAll, hexec, List.flatMap_cons, ← List.append_assoc]
    exact ih hm hblock

end Sys2Proof.Machine

namespace Sys2Proof.Proofs

open Sys2Proof.Machine

/-- Settles O9: the output word is read before the advance, which moves the cursor on or runs a frame. -/
theorem pushStoresReturnsAdvances : Obligations.PushStoresReturnsAdvances := by
  intro s x
  refine ⟨execPush_of_config x, fun hm hrun => ?_⟩
  have hlow := hrun.rover_low
  have hhigh := hrun.rover_high
  have hlen := hrun.outputFIFO_length
  refine ⟨_, getElem?_eq_memRead Config.NUM.toNumOps _ (by omega), fun hrover => ?below, fun hrover => ?last⟩
  case below => exact execPush_of_ok hm (pushStream_below _ x hrun hrover)
  case last =>
    obtain ⟨st, hframe, hpush, -⟩ := pushStream_last Config.NUM x hrun hrover
    exact ⟨_, (frameStream_microRun hframe).runAll_eq rfl, execPush_of_ok hm hpush⟩

/-- Settles O10: both run the same pushes on the stream, and answer the same words in other framing. -/
theorem blockIsSuccessivePushes : Obligations.BlockIsSuccessivePushes := by
  intro s xs
  refine ⟨execBlock_of_config xs, fun hm hrun => ?pushes,
    fun hm hrun xs' => ?cut⟩
  case pushes =>
    obtain ⟨st, ys, hblock, hlen, -⟩ := blockStream_running Config.NUM xs hrun
    exact ⟨{ s with stream := st }, ys, hlen, runAll_push_of_blockStream hm hblock, execBlock_of_ok hm hblock⟩
  case cut =>
    obtain ⟨st1, ys, hblock, hlen, hrun1, -⟩ := blockStream_running Config.NUM xs hrun
    obtain ⟨st2, ys', hblock', hlen', -⟩ := blockStream_running Config.NUM xs' hrun1
    have hjoined := execBlock_of_ok hm (blockStream_append_of_ok _ hblock hblock')
    rw [List.length_append] at hjoined
    refine ⟨{ s with stream := st1, rsp := _ }, { s with stream := st2, rsp := _ }, ys, ys', hlen, hlen',
      execBlock_of_ok hm hblock, rfl, ?second, rfl, hjoined⟩
    case second => exact execBlock_of_ok (s := { s with stream := st1, rsp := _ }) hm hblock'

end Sys2Proof.Proofs
end

section
/-!
The schedule of a stream since `START`: where the cursor stands and what the input FIFO holds after any number of samples, and that
the output FIFO changes once per hop, so that an output depends on earlier hops only (spec/40_sliding_window_fifo.md R122, R127,
R131, R132).
-/

namespace Sys2Proof.Machine

open Sys2Proof.Proofs

variable {α : Type} {N : NumInst α}

/-! ## One sample -/

/-- A frame moves the input FIFO down by a hop; its other ten operations leave it alone (R126, R130). -/
theorem frameStream_inputFIFO (N : NumOps α) {st st' : Stream α} (h : frameStream N st = .ok st') :
    st'.inputFIFO = shiftDown N st.L st.S st.inputFIFO := by
  obtain ⟨a, b, c, d, e, f, g, i, j, k, ha, hb, hc, hd, he, hf, hg, hi, hj, hk, hl⟩ := (frameStream_eq_ok N).1 h
  obtain ⟨-, rfl⟩ := (windowStream_eq_ok N).1 ha
  obtain ⟨-, rfl⟩ := (fftStream_eq_ok N).1 hb
  obtain ⟨-, rfl⟩ := (analyzeStream_eq_ok N).1 hc
  obtain ⟨-, rfl⟩ := (remapStream_eq_ok N).1 hd
  obtain ⟨-, rfl⟩ := (synthStream_eq_ok N).1 he
  obtain ⟨-, rfl⟩ := (zeroNegStream_eq_ok N).1 hf
  obtain ⟨-, rfl⟩ := (fftStream_eq_ok N).1 hg
  obtain ⟨-, rfl⟩ := (olaAddStream_eq_ok N).1 hi
  obtain ⟨-, rfl⟩ := (drainStream_eq_ok N).1 hj
  obtain ⟨-, rfl⟩ := (accShiftStream_eq_ok N).1 hk
  obtain ⟨-, rfl⟩ := (inShiftStream_eq_ok N).1 hl
  rfl

/-- Everything a `PUSH` on a running stream can do (R120 to R123). -/
theorem pushStream_cases {x y : Word} {st st' : Stream α} (h : Running st) (hpush : pushStream N x st = .ok (st', y)) :
    y = outputSample N st ∧ Running st' ∧ SameLatched st st' ∧
      ((st.rover.toNat + 1 < st.F ∧ st' = { acceptSample N x st with rover := st.rover + 1 }) ∨
        (st.rover.toNat + 1 = st.F ∧ st'.rover.toNat = st.L ∧
          frameStream N.toNumOps { acceptSample N x st with rover := BitVec.ofNat _ st.L } = .ok st')) := by
  obtain ⟨st'', hpush', -, hrun, hlatched⟩ := pushStream_running N x h
  cases hpush.symm.trans hpush'
  refine ⟨rfl, hrun, hlatched, ?_⟩
  rcases Nat.lt_or_eq_of_le (Nat.succ_le_of_lt h.rover_high) with hrover | hrover
  · cases hpush.symm.trans (pushStream_below N x h hrover)
    exact .inl ⟨hrover, rfl⟩
  · obtain ⟨st'', hframe, hlast, -, hcursor⟩ := pushStream_last N x h hrover
    cases hpush.symm.trans hlast
    exact .inr ⟨hrover, hcursor, hframe⟩

/-! ## The schedule of the input -/

/-- Sample `q` of the input `xs`, counted from the first of the `L` zeros before it (R127). -/
def paddedSample (N : NumInst α) (L : Nat) (xs : List Word) (q : Nat) : α :=
  if q < L then N.zero else N.decode (xs.getD (q - L) 0)

theorem paddedSample_append_old {L q : Nat} {xs : List Word} (x : Word) (h : q < L + xs.length) :
    paddedSample N L (xs ++ [x]) q = paddedSample N L xs q := by
  unfold paddedSample
  split
  · rfl
  · rw [List.getD_append _ _ _ _ (by omega)]

theorem paddedSample_append_new (L : Nat) (xs : List Word) (x : Word) :
    paddedSample N L (xs ++ [x]) (L + xs.length) = N.decode x := by
  simp [paddedSample]

/-- A running stream after the samples `xs` since `START` (R127). -/
structure Scheduled (N : NumInst α) (xs : List Word) (st : Stream α) : Prop extends Running st where
  cursor : st.rover.toNat = st.L + xs.length % st.S
  window : ∀ p < st.rover.toNat,
    memRead N.toNumOps st.inputFIFO p = paddedSample N st.L xs (xs.length / st.S * st.S + p)

/-- The sample that is accepted extends the window by one element. -/
theorem acceptSample_window {xs : List Word} {st : Stream α} (h : Scheduled N xs st) (x : Word) {p : Nat}
    (hp : p < st.rover.toNat + 1) :
    memRead N.toNumOps (acceptSample N x st).inputFIFO p =
      paddedSample N st.L (xs ++ [x]) (xs.length / st.S * st.S + p) := by
  have hcursor := h.cursor
  have hlen := Nat.div_add_mod' xs.length st.S
  have hinside : st.rover.toNat < st.inputFIFO.length := h.inputFIFO_length ▸ h.rover_high
  rw [acceptSample, memRead_memWrite _ _ _ _ _ hinside]
  split
  next heq =>
    rw [show xs.length / st.S * st.S + p = st.L + xs.length by omega, paddedSample_append_new]
  next hne =>
    rw [h.window p (by omega), paddedSample_append_old x (by omega)]

/-- A `PUSH` keeps the schedule: inside a hop the window grows, at its end the frame moves it down by the hop. -/
theorem pushStream_scheduled {xs : List Word} {x y : Word} {st st' : Stream α} (h : Scheduled N xs st)
    (hpush : pushStream N x st = .ok (st', y)) : Scheduled N (xs ++ [x]) st' := by
  have hcursor := h.cursor
  have hlatency := h.latency
  have hlen := Nat.mod_add_div xs.length st.S
  have hhop := h.toGeometry.hop_pos
  obtain ⟨-, hrun, hlatched, ⟨hrover, rfl⟩ | ⟨hrover, hback, hframe⟩⟩ := pushStream_cases h.toRunning hpush
  · obtain ⟨hdiv, hmod⟩ : (xs ++ [x]).length / st.S = xs.length / st.S ∧ (xs ++ [x]).length % st.S = xs.length % st.S + 1 :=
      (Nat.div_mod_unique hhop).2 (by rw [List.length_append, List.length_singleton]; omega)
    have hsucc : (st.rover + 1).toNat = st.rover.toNat + 1 := rover_succ h.toRunning
    refine { hrun with cursor := ?_, window := fun p hp => ?_ }
    · show (st.rover + 1).toNat = st.L + (xs ++ [x]).length % st.S
      omega
    · show _ = paddedSample N st.L (xs ++ [x]) ((xs ++ [x]).length / st.S * st.S + p)
      rw [hdiv]
      exact acceptSample_window h x (hsucc ▸ hp)
  · obtain ⟨hdiv, hmod⟩ : (xs ++ [x]).length / st.S = xs.length / st.S + 1 ∧ (xs ++ [x]).length % st.S = 0 :=
      (Nat.div_mod_unique hhop).2 (by rw [List.length_append, List.length_singleton, Nat.mul_succ]; omega)
    obtain ⟨-, -, hS, hL, -⟩ := hlatched
    refine { hrun with cursor := by rw [hback, hL, hS, hmod]; rfl, window := fun p hp => ?_ }
    have hmoved : p + st.S < st.rover.toNat + 1 := by omega
    have hlength : (acceptSample N x st).inputFIFO.length = st.F := (acceptSample_running N x h.toRunning).inputFIFO_length
    have hshift : st'.inputFIFO = shiftDown N.toNumOps st.L st.S (acceptSample N x st).inputFIFO :=
      frameStream_inputFIFO _ hframe
    rw [hshift, memRead_shiftDown _ _ _ _ (by omega), if_pos (hback ▸ hp), acceptSample_window h x hmoved, hS, hL, hdiv,
      Nat.succ_mul, Nat.add_assoc, Nat.add_comm st.S p]

/-- So do any number of samples. -/
theorem blockStream_scheduled {before xs ys : List Word} {st st' : Stream α} (h : Scheduled N before st)
    (hblock : blockStream N xs st = .ok (st', ys)) : Scheduled N (before ++ xs) st' := by
  induction xs generalizing before st ys with
  | nil => cases hblock; rwa [List.append_nil]
  | cons x xs ih =>
    obtain ⟨st1, y, ys', hpush, hblock, -⟩ := (blockStream_cons_eq_ok N).1 hblock
    rw [List.append_cons]
    exact ih (pushStream_scheduled h hpush) hblock

/-! ## The schedule of the output -/

/-- Output `i` is the one the stream has after `i` samples. -/
theorem blockStream_getElem? {xs ys ys' : List Word} {st st' sti : Stream α} {i : Nat} (h : Running st)
    (hblock : blockStream N xs st = .ok (st', ys)) (hi : i < xs.length)
    (hbefore : blockStream N (xs.take i) st = .ok (sti, ys')) : ys[i]? = some (outputSample N sti) := by
  induction xs generalizing i st ys ys' with
  | nil => cases hi
  | cons x xs ih =>
    obtain ⟨st1, y, ys1, hpush, hrest, rfl⟩ := (blockStream_cons_eq_ok N).1 hblock
    obtain ⟨rfl, hrun, -⟩ := pushStream_cases h hpush
    cases i with
    | zero => cases hbefore; rfl
    | succ i =>
      rw [List.take_succ_cons, blockStream_cons_eq_ok] at hbefore
      obtain ⟨st2, y', ys2, hpush', hbefore, -⟩ := hbefore
      cases hpush.symm.trans hpush'
      rw [List.getElem?_cons_succ]
      exact ih hrun hrest (Nat.lt_of_succ_lt_succ hi) hbefore

/-- Samples that do not fill the hop leave the output FIFO alone. -/
theorem blockStream_within_hop {xs ys : List Word} {st st' : Stream α} (h : Running st)
    (hroom : st.rover.toNat + xs.length < st.F) (hblock : blockStream N xs st = .ok (st', ys)) :
    st'.outputFIFO = st.outputFIFO := by
  induction xs generalizing st ys with
  | nil => cases hblock; rfl
  | cons x xs ih =>
    rw [List.length_cons] at hroom
    obtain ⟨st1, y, ys1, hpush, hrest, -⟩ := (blockStream_cons_eq_ok N).1 hblock
    obtain ⟨-, hrun, -, ⟨-, rfl⟩ | ⟨hrover, -⟩⟩ := pushStream_cases h hpush
    · have hsucc := rover_succ h
      have hroom' : (st.rover + 1).toNat + xs.length < st.F := by omega
      exact (ih hrun hroom' hrest :)
    · omega

/-- Output `i` stands at `i mod S` of the output FIFO that the whole hops before sample `i` have left (R122, R131). -/
theorem blockStream_getElem?_of_hops {xs ys ys' : List Word} {st st' sth : Stream α} {i : Nat} (h : Scheduled N [] st)
    (hblock : blockStream N xs st = .ok (st', ys)) (hi : i < xs.length)
    (hhops : blockStream N (xs.take (i / st.S * st.S)) st = .ok (sth, ys')) :
    ys[i]? = some (N.encode (memRead N.toNumOps sth.outputFIFO (i % st.S))) := by
  have hlen := Nat.div_add_mod' i st.S
  have hmod := Nat.mod_lt i h.toGeometry.hop_pos
  have hlatency := h.latency
  have hsched : Scheduled N (xs.take (i / st.S * st.S)) sth := blockStream_scheduled h hhops
  obtain ⟨sti, ys2, hrest, -⟩ := blockStream_running N ((xs.drop (i / st.S * st.S)).take (i % st.S)) hsched.toRunning
  have hbefore : blockStream N (xs.take i) st = .ok (sti, ys' ++ ys2) := by
    have happend := blockStream_append_of_ok N hhops hrest
    rwa [← List.take_add, hlen] at happend
  have hschedi : Scheduled N (xs.take i) sti := blockStream_scheduled h hbefore
  obtain ⟨hF, -, hS, hL, -⟩ := blockStream_sameLatched N hhops
  obtain ⟨-, -, hSi, hLi, -⟩ := blockStream_sameLatched N hbefore
  have hcursor : sth.rover.toNat = st.L := by
    rw [hsched.cursor, hL, hS, List.length_take_of_le (by omega), Nat.mul_mod_left, Nat.add_zero]
  have hcursori : sti.rover.toNat - sti.L = i % st.S := by
    rw [hschedi.cursor, hSi, List.length_take_of_le hi.le, Nat.add_sub_cancel_left]
  have hlength := List.length_take_le (i % st.S) (xs.drop (i / st.S * st.S))
  rw [blockStream_getElem? h.toRunning hblock hi hbefore, outputSample, hcursori,
    blockStream_within_hop hsched.toRunning (by omega) hrest]

/-! ## The stream that `START` makes -/

/-- The zero FIFO that `START` makes is the window before the first sample (R127, 46_host_commands.md R231). -/
theorem startStream_scheduled {f o : Nat} {p sr : α} {old : Stream α} (h : Running (startStream N.toNumOps f o p sr old)) :
    Scheduled N [] (startStream N.toNumOps f o p sr old) := by
  have hmax : f ≤ 4096 := h.frame_max
  have hcursor : (startStream N.toNumOps f o p sr old).rover.toNat = f - f / o :=
    rover_ofNat ((Nat.sub_le _ _).trans hmax)
  refine { h with cursor := by rw [hcursor]; exact (Nat.add_zero _).symm, window := fun q hq => ?_ }
  have hpadded : paddedSample N (f - f / o) [] q = N.zero := if_pos (hcursor ▸ hq)
  show memRead _ (List.replicate f N.zero) q = paddedSample N (f - f / o) [] (0 / (f / o) * (f / o) + q)
  rw [(AllZero.replicate f).memRead, Nat.zero_div, Nat.zero_mul, Nat.zero_add, hpadded]

/-- A `START` that enters RUN mode starts the schedule, with a zero output FIFO (46_host_commands.md R231). -/
theorem execStart_scheduled {s t : State} (hm : s.mode = .config) (h : execStart s = .next t) (ht : t.mode = .run) :
    Scheduled Config.NUM [] t.stream ∧ AllZero Config.NUM.toNumOps t.stream.outputFIFO := by
  simp only [execStart, hm] at h
  split at h
  next => cases h; rw [refuse_mode, hm] at ht; cases ht
  next hacc =>
    obtain ⟨⟨⟨n, h1, h12, hframe⟩, hosamp⟩, -, -⟩ := (startRefusal_eq_none_iff _ _ _ _ _).1 hacc
    cases h
    rw [respond_stream, hframe]
    exact ⟨startStream_scheduled (startStream_running _ _ _ _ h1 h12 (hframe ▸ hosamp)), .replicate _⟩

end Sys2Proof.Machine

namespace Sys2Proof.Proofs

open Sys2Proof.Machine

/-- Settles O36: before the first frame the output FIFO is the zero one of `START`. -/
theorem firstHopIsZero : Obligations.FirstHopIsZero := by
  intro s t xs hm hstart ht
  obtain ⟨hsched, hzero⟩ := execStart_scheduled hm hstart ht
  obtain ⟨st, ys, hblock, hlen, -⟩ := blockStream_running Config.NUM xs hsched.toRunning
  refine ⟨_, ys, execBlock_of_ok ht hblock, rfl, hlen, fun i hi hS => ?_⟩
  have hhops : blockStream Config.NUM (xs.take (i / t.stream.S * t.stream.S)) t.stream = .ok (t.stream, []) := by
    rw [Nat.div_eq_of_lt hS, Nat.zero_mul]
    rfl
  rw [blockStream_getElem?_of_hops hsched hblock hi hhops, hzero.memRead]

/-- Settles O37: the schedule holds after `START`, and every sample keeps it. -/
theorem cursorAndWindowSchedule : Obligations.CursorAndWindowSchedule := by
  intro s t xs hm hstart ht
  obtain ⟨hfresh, -⟩ := execStart_scheduled hm hstart ht
  obtain ⟨st, ys, hblock, -⟩ := blockStream_running Config.NUM xs hfresh.toRunning
  have hsched : Scheduled Config.NUM xs st := blockStream_scheduled hfresh hblock
  obtain ⟨-, -, hS, hL, -⟩ := blockStream_sameLatched _ hblock
  have hcursor := hsched.cursor
  have hwindow := hsched.window
  rw [hS, hL] at hcursor hwindow
  refine ⟨_, execBlock_of_ok ht hblock, hcursor, fun p hp => ?_⟩
  have hinside : p < st.inputFIFO.length := by
    rw [hsched.inputFIFO_length]
    exact (hcursor ▸ hp : p < st.rover.toNat).trans hsched.rover_high
  exact (getElem?_eq_memRead Config.NUM.toNumOps _ hinside).trans (congrArg some (hwindow p (hcursor ▸ hp)))

/-- Settles O38: the output FIFO that output `i` is read from is a function of the samples of the whole hops before it. -/
theorem outputDependsOnEarlierHops : Obligations.OutputDependsOnEarlierHops := by
  intro s t xs xs' i hm hstart ht hi hi' hagree
  obtain ⟨hsched, -⟩ := execStart_scheduled hm hstart ht
  obtain ⟨st, ys, hblock, -⟩ := blockStream_running Config.NUM xs hsched.toRunning
  obtain ⟨st', ys', hblock', -⟩ := blockStream_running Config.NUM xs' hsched.toRunning
  obtain ⟨sth, ysh, hhops, -⟩ :=
    blockStream_running Config.NUM (xs.take (i / t.stream.S * t.stream.S)) hsched.toRunning
  exact ⟨_, _, ys, ys', _, execBlock_of_ok ht hblock, execBlock_of_ok ht hblock', rfl, rfl,
    blockStream_getElem?_of_hops hsched hblock hi hhops,
    blockStream_getElem?_of_hops hsched hblock' hi' (hagree ▸ hhops)⟩

end Sys2Proof.Proofs
end

section
/-!
The bit reversal (spec/41_radix2_fft_ifft.md R143, R144): `bitrev` reads the bits of an index backwards, and pass 1 of the FFT unit
moves every pair to the index so read.
-/

namespace Sys2Proof.Machine

/-! ## The index -/

@[simp] theorem bitrev_zero (i : Nat) : bitrev i 0 = 0 := rfl

theorem bitrev_succ (i n : Nat) : bitrev i (n + 1) = i % 2 * 2 ^ n + bitrev (i / 2) n := rfl

theorem bitrev_two_mul (q m : ℕ) : bitrev (2 * q) (m + 1) = bitrev q m := by
  rw [bitrev_succ, show 2 * q % 2 = 0 by omega, show 2 * q / 2 = q by omega, Nat.zero_mul, Nat.zero_add]

theorem bitrev_two_mul_add_one (q m : ℕ) : bitrev (2 * q + 1) (m + 1) = 2 ^ m + bitrev q m := by
  rw [bitrev_succ, show (2 * q + 1) % 2 = 1 by omega, show (2 * q + 1) / 2 = q by omega, Nat.one_mul]

theorem bitrev_lt (i n : Nat) : bitrev i n < 2 ^ n := by
  induction n generalizing i with
  | zero => simp
  | succ n ih =>
    have hrest := ih (i / 2)
    rcases Nat.mod_two_eq_zero_or_one i with hbit | hbit <;> rw [bitrev_succ, hbit, Nat.pow_succ] <;> omega

/-- The recursion from the other end: the top bit of an index becomes the lowest bit. -/
theorem bitrev_top_bit {a r n : Nat} (ha : a < 2) (hr : r < 2 ^ n) : bitrev (a * 2 ^ n + r) (n + 1) = a + 2 * bitrev r n := by
  induction n generalizing r with
  | zero =>
    obtain rfl : r = 0 := by simpa using hr
    simp [bitrev_succ, Nat.mod_eq_of_lt ha]
  | succ n ih =>
    rw [Nat.pow_succ] at hr
    have hsplit : a * 2 ^ (n + 1) + r = 2 * (a * 2 ^ n) + r := by ring
    have hlow : (a * 2 ^ (n + 1) + r) % 2 = r % 2 := by omega
    have hhigh : (a * 2 ^ (n + 1) + r) / 2 = a * 2 ^ n + r / 2 := by omega
    rw [bitrev_succ, hlow, hhigh, ih (by omega), bitrev_succ r n]
    ring

/-- Read backwards twice, an index is as before. -/
theorem bitrev_bitrev {i n : Nat} (hi : i < 2 ^ n) : bitrev (bitrev i n) n = i := by
  induction n generalizing i with
  | zero => exact (Nat.lt_one_iff.1 hi).symm
  | succ n ih =>
    rw [Nat.pow_succ] at hi
    rw [bitrev_succ i n, bitrev_top_bit (Nat.mod_lt _ (by decide)) (bitrev_lt _ _), ih (by omega)]
    exact Nat.mod_add_div i 2

theorem bitrev_eq_sum (n i : Nat) : bitrev i n = ∑ b ∈ Finset.range n, (i / 2 ^ b % 2) * 2 ^ (n - 1 - b) := by
  induction n generalizing i with
  | zero => rfl
  | succ n ih =>
    have hrest : ∀ b ∈ Finset.range n,
        i / 2 ^ (b + 1) % 2 * 2 ^ (n + 1 - 1 - (b + 1)) = i / 2 / 2 ^ b % 2 * 2 ^ (n - 1 - b) := fun b _ => by
      rw [Nat.pow_succ', Nat.div_div_eq_div_mul, show n + 1 - 1 - (b + 1) = n - 1 - b by omega]
    rw [bitrev_succ, ih, Finset.sum_range_succ', Finset.sum_congr rfl hrest, Nat.add_comm]
    simp

/-! ## The pass -/

variable {α : Type} (N : NumOps α)

/-- What a complex write changes, in one formula. -/
theorem complexRead_complexWrite (X : List α) {i : Nat} (j : Nat) (v : α × α) (h : 2 * i + 1 < X.length) :
    complexRead N (complexWrite X i v) j = if i = j then v else complexRead N X j := by
  split
  next heq => subst heq; exact complexRead_complexWrite_same N X i v h
  next hne => exact complexRead_complexWrite_other N X v hne

/-- A swap exchanges two pairs and leaves the others alone. -/
theorem complexRead_swapComplex {X : List α} {i j : Nat} (hi : 2 * i + 1 < X.length) (hj : 2 * j + 1 < X.length) (k : Nat) :
    complexRead N (swapComplex N X i j) k = complexRead N X (if j = k then i else if i = k then j else k) := by
  rw [swapComplex, complexRead_complexWrite N _ k _ (by simpa using hj), complexRead_complexWrite N X k _ hi]
  split_ifs <;> rfl

theorem bitrevPass_succ (k n : Nat) (X : List α) :
    bitrevPass N (k + 1) n X =
      if k < bitrev k n then swapComplex N (bitrevPass N k n X) k (bitrev k n) else bitrevPass N k n X := rfl

/-- The pairs after the first `k` rounds of pass 1: in place are those whose index or whose reversed index is below `k`. -/
theorem complexRead_bitrevPass_of_le {n k : Nat} {X : List α} (hX : X.length = 2 * 2 ^ n) (hk : k ≤ 2 ^ n) {i : Nat}
    (hi : i < 2 ^ n) :
    complexRead N (bitrevPass N k n X) i = complexRead N X (if i < k ∨ bitrev i n < k then bitrev i n else i) := by
  induction k generalizing i with
  | zero => simp [bitrevPass]
  | succ k ih =>
    have hlen : (bitrevPass N k n X).length = X.length := bitrevPass_length N k n X
    have hrange := bitrev_lt k n
    have hback : bitrev (bitrev k n) n = k := bitrev_bitrev hk
    have hone : bitrev i n = k ↔ i = bitrev k n := ⟨fun h => by rw [← h, bitrev_bitrev hi], fun h => by rw [h, hback]⟩
    rw [bitrevPass_succ]
    split
    next hswap =>
      rw [complexRead_swapComplex N (by omega) (by omega)]
      by_cases hupper : bitrev k n = i
      · subst hupper
        rw [if_pos rfl, ih (Nat.le_of_succ_le hk) hk, if_neg (by omega), hback, if_pos (by omega)]
      · by_cases hlower : k = i
        · subst hlower
          rw [if_neg hupper, if_pos rfl, ih (by omega) hrange, if_neg (by omega), if_pos (by omega)]
        · rw [if_neg hupper, if_neg hlower, ih (by omega) hi]
          exact congrArg _ (if_congr (by omega) rfl rfl)
    next hdone =>
      rw [ih (by omega) hi]
      by_cases hself : k = i
      · subst hself
        have hfixed : ¬ (k < k ∨ bitrev k n < k) → k = bitrev k n := by omega
        rw [ite_eq_left_iff.2 hfixed, if_pos (.inl (Nat.lt_succ_self k))]
      · exact congrArg _ (if_congr (by omega) rfl rfl)

/-- Pass 1 puts the pair of the reversed index at every index (R143). -/
theorem complexRead_bitrevPass {n : Nat} {X : List α} (hX : X.length = 2 * 2 ^ n) {i : Nat} (hi : i < 2 ^ n) :
    complexRead N (bitrevPass N (2 ^ n) n X) i = complexRead N X (bitrev i n) := by
  rw [complexRead_bitrevPass_of_le N hX le_rfl hi, if_pos (.inl hi)]

end Sys2Proof.Machine

namespace Sys2Proof.Proofs

open Sys2Proof.Machine

/-- Settles O23: the sum by the recursion on the low bit, the involution by the recursion on the top bit. -/
theorem bitrevReversesBits : Obligations.BitrevReversesBits :=
  ⟨bitrev_eq_sum, fun n i hi => ⟨bitrev_lt i n, bitrev_bitrev hi⟩, by decide, by decide, by decide, by decide⟩

/-- Settles O24: each round of the pass brings an index and its reversal in place. -/
theorem bitReversalPassPermutes : Obligations.BitReversalPassPermutes := fun _ N _ _ hX =>
  ⟨bitrevPass_length N _ _ _, fun _ hi => complexRead_bitrevPass N hX hi⟩

end Sys2Proof.Proofs
end

section
/-!
The butterfly stages of the FFT unit (spec/41_radix2_fft_ifft.md R141, R145 to R147) pair by pair, in the machine's arithmetic: a
stage makes of every pair what `stageForm` says, so the unit runs its `stagesForm`.
-/

namespace Sys2Proof.Machine

variable {α : Type} (N : NumOps α) (dir : Dir)

/-! ## The two ends of a butterfly -/

/-- The indices of twiddle index `j` in group `m` of the stage of pair distance `d` are the two ends of one butterfly (R145). -/
theorem butterfly_end_iff {d j : Nat} (hj : j < d) (m i : Nat) :
    (i % d = j ∧ i / (2 * d) = m) ↔ i = j + 2 * d * m ∨ i = j + 2 * d * m + d := by
  constructor
  · rintro ⟨rfl, rfl⟩
    have hgroup := Nat.mod_add_div i (2 * d)
    have hlt := Nat.mod_lt i (show 0 < 2 * d by omega)
    have hmod : i % (2 * d) % d = i % d := Nat.mod_mul_left_mod i 2 d
    rcases Nat.lt_or_ge (i % (2 * d)) d with hlow | hhigh
    · rw [Nat.mod_eq_of_lt hlow] at hmod
      omega
    · rw [Nat.mod_eq_sub_mod hhigh, Nat.mod_eq_of_lt (by omega)] at hmod
      omega
  · have hplace : ∀ r < 2 * d, (r + 2 * d * m) % d = r % d ∧ (r + 2 * d * m) / (2 * d) = m := fun r hr =>
      ⟨by rw [Nat.mul_comm 2, Nat.mul_assoc, Nat.add_mul_mod_self_left],
        by rw [Nat.add_mul_div_left _ _ (by omega), Nat.div_eq_of_lt hr, Nat.zero_add]⟩
    rintro (rfl | rfl)
    · obtain ⟨hmod, hdiv⟩ := hplace j (by omega)
      exact ⟨hmod.trans (Nat.mod_eq_of_lt hj), hdiv⟩
    · rw [Nat.add_right_comm]
      obtain ⟨hmod, hdiv⟩ := hplace (j + d) (by omega)
      exact ⟨by rw [hmod, Nat.add_mod_right, Nat.mod_eq_of_lt hj], hdiv⟩

theorem lt_of_same_group {a m i k : Nat} (hi : i < a * m) (h : k / a = i / a) : k < a * m := by
  have ha : 0 < a := Nat.pos_of_ne_zero (by rintro rfl; simp at hi)
  rw [Nat.mul_comm, ← Nat.div_lt_iff_lt_mul ha, h]
  exact Nat.div_lt_of_lt_mul hi

/-- The sum that a butterfly writes at its lower end (R147). -/
def butterflySum (a b u : α × α) : α × α :=
  (N.add a.1 (twiddled N b u).1, N.add a.2 (twiddled N b u).2)

/-- The difference that a butterfly writes at its upper end (R147). -/
def butterflyDiff (a b u : α × α) : α × α :=
  (N.sub a.1 (twiddled N b u).1, N.sub a.2 (twiddled N b u).2)

theorem stageForm_lower {d j : Nat} (hj : j < d) (m : Nat) (X : Nat → α × α) :
    stageForm N dir d X (j + 2 * d * m) =
      butterflySum N (X (j + 2 * d * m)) (X (j + 2 * d * m + d)) (twiddlePower N dir d j) := by
  have hmod : (j + 2 * d * m) % (2 * d) = j := by rw [Nat.add_mul_mod_self_left, Nat.mod_eq_of_lt (by omega)]
  simp only [stageForm, hmod, if_pos hj]
  rfl

theorem stageForm_upper {d j : Nat} (hj : j < d) (m : Nat) (X : Nat → α × α) :
    stageForm N dir d X (j + 2 * d * m + d) =
      butterflyDiff N (X (j + 2 * d * m)) (X (j + 2 * d * m + d)) (twiddlePower N dir d j) := by
  have hmod : (j + 2 * d * m + d) % (2 * d) = j + d := by
    rw [Nat.add_right_comm, Nat.add_mul_mod_self_left, Nat.mod_eq_of_lt (by omega)]
  simp only [stageForm, hmod, if_neg (show ¬ j + d < d by omega), Nat.add_sub_cancel]
  rfl

/-- A stage makes its pair `i` of the two ends of the butterfly of `i`. -/
theorem stageForm_congr {d i : Nat} {X Y : Nat → α × α} (hd : 0 < d)
    (h : ∀ k, k % d = i % d → k / (2 * d) = i / (2 * d) → X k = Y k) : stageForm N dir d X i = stageForm N dir d Y i := by
  have hends := butterfly_end_iff (Nat.mod_lt i hd) (i / (2 * d))
  obtain ⟨hmod, hdiv⟩ := (hends _).2 (.inl rfl)
  have hlower := h _ hmod hdiv
  obtain ⟨hmod', hdiv'⟩ := (hends _).2 (.inr rfl)
  have hupper := h _ hmod' hdiv'
  rcases (hends i).1 ⟨rfl, rfl⟩ with hi | hi <;> rw [hi]
  · rw [stageForm_lower N dir (Nat.mod_lt i hd), stageForm_lower N dir (Nat.mod_lt i hd), hlower, hupper]
  · rw [stageForm_upper N dir (Nat.mod_lt i hd), stageForm_upper N dir (Nat.mod_lt i hd), hlower, hupper]

/-! ## The loops of a stage -/

/-- A butterfly writes its two ends from their values before it (R147, 70_reset_and_hazards.md R291). -/
theorem complexRead_butterfly {d i : Nat} (u : α × α) {X : List α} (h : 2 * (i + d) + 1 < X.length) (k : Nat) :
    complexRead N (butterfly N d u i X) k =
      if i = k then butterflySum N (complexRead N X i) (complexRead N X (i + d)) u
      else if i + d = k then butterflyDiff N (complexRead N X i) (complexRead N X (i + d)) u
      else complexRead N X k := by
  rw [butterfly, complexRead_complexWrite N _ k _ (by rw [complexWrite_length]; omega), complexRead_complexWrite N X k _ h]
  rfl

theorem butterflies_mul_zero (d j : Nat) (u : α × α) (X : List α) : butterflies N (2 * d * 0) d j u X = X := by
  simp [butterflies]

theorem butterflies_mul_succ {d : Nat} (hd : 0 < d) (j m : Nat) (u : α × α) (X : List α) :
    butterflies N (2 * d * (m + 1)) d j u X = butterfly N d u (j + 2 * d * m) (butterflies N (2 * d * m) d j u X) := by
  have hpos : 0 < 2 * d := by omega
  rw [butterflies, butterflies, Nat.mul_div_cancel_left _ hpos, Nat.mul_div_cancel_left _ hpos, loop_succ]

/-- The butterflies of twiddle index `j` in the first `m` groups do the stage's work on the pairs of that index (R147). -/
theorem complexRead_butterflies {d j m : Nat} (hj : j < d) {X : List α} (hX : 2 * (2 * d * m) ≤ X.length) (i : Nat) :
    complexRead N (butterflies N (2 * d * m) d j (twiddlePower N dir d j) X) i =
      if i % d = j ∧ i / (2 * d) < m then stageForm N dir d (complexRead N X) i else complexRead N X i := by
  induction m generalizing i with
  | zero => rw [butterflies_mul_zero, if_neg fun h => Nat.not_lt_zero _ h.2]
  | succ m ih =>
    rw [Nat.mul_succ] at hX
    have hends := butterfly_end_iff hj m
    have hfresh : ∀ k, k % d = j ∧ k / (2 * d) = m →
        complexRead N (butterflies N (2 * d * m) d j (twiddlePower N dir d j) X) k = complexRead N X k := fun k hk => by
      rw [ih (by omega), if_neg (by omega)]
    rw [butterflies_mul_succ N (by omega), complexRead_butterfly N _ (by rw [butterflies_length]; omega),
      hfresh _ ((hends _).2 (.inl rfl)), hfresh _ ((hends _).2 (.inr rfl))]
    by_cases hend : i % d = j ∧ i / (2 * d) = m
    · have hdone : i % d = j ∧ i / (2 * d) < m + 1 := ⟨hend.1, Nat.lt_succ_of_le hend.2.le⟩
      rw [if_pos hdone]
      rcases (hends i).1 hend with hi | hi <;> rw [hi]
      · rw [if_pos rfl, stageForm_lower N dir hj]
      · rw [if_neg (by omega), if_pos rfl, stageForm_upper N dir hj]
    · obtain ⟨hlower, hupper⟩ := not_or.1 ((hends i).not.1 hend)
      rw [if_neg (Ne.symm hlower), if_neg (Ne.symm hupper), ih (by omega)]
      exact if_congr (by omega) rfl rfl

/-- What the first `k` rounds of a stage of `F` pairs have done to the array `X`: the pairs of the twiddle indices below `k` are
those of the stage, and the twiddle is the next one. -/
structure StageRounds (F d : Nat) (X : List α) (k : Nat) (Xu : List α × α × α) : Prop where
  twiddle : Xu.2 = twiddlePower N dir d k
  length : Xu.1.length = X.length
  pairs : ∀ i < F, complexRead N Xu.1 i =
    if i % d < k then stageForm N dir d (complexRead N X) i else complexRead N X i

theorem nextTwiddle_twiddlePower (d j : Nat) :
    nextTwiddle N (baseTwiddle N dir d) (twiddlePower N dir d j) = twiddlePower N dir d (j + 1) := by
  cases dir <;> rfl

theorem StageRounds.step {d m k : Nat} (hk : k < d) {X : List α} (hX : X.length = 2 * (2 * d * m)) {Xu : List α × α × α}
    (h : StageRounds N dir (2 * d * m) d X k Xu) :
    StageRounds N dir (2 * d * m) d X (k + 1)
      (butterflies N (2 * d * m) d k Xu.2 Xu.1, nextTwiddle N (baseTwiddle N dir d) Xu.2) where
  twiddle := by rw [h.twiddle, nextTwiddle_twiddlePower]
  length := by rw [butterflies_length, h.length]
  pairs i hi := by
    have hgroup : i / (2 * d) < m := Nat.div_lt_of_lt_mul hi
    rw [h.twiddle, complexRead_butterflies N dir hk (by rw [h.length, hX]), h.pairs i hi]
    by_cases hround : i % d = k
    · have hfresh : stageForm N dir d (complexRead N Xu.1) i = stageForm N dir d (complexRead N X) i :=
        stageForm_congr N dir (by omega) fun l hl hlgroup => by
          rw [h.pairs l (lt_of_same_group hi hlgroup), if_neg (by omega)]
      rw [if_pos ⟨hround, hgroup⟩, if_pos (by omega), hfresh]
    · rw [if_neg fun hr => hround hr.1]
      exact if_congr (by omega) rfl rfl

/-- One stage makes of every pair what `stageForm` says (R145). -/
theorem complexRead_fftStage {d m : Nat} {X : List α} (hX : X.length = 2 * (2 * d * m)) {i : Nat} (hi : i < 2 * d * m) :
    complexRead N (fftStage N dir (2 * d * m) d X) i = stageForm N dir d (complexRead N X) i := by
  have hd : 0 < d := Nat.pos_of_ne_zero (by rintro rfl; simp at hi)
  have hall : StageRounds N dir (2 * d * m) d X d (loop d _ (X, (N.one, N.zero))) :=
    loop_induct (StageRounds N dir (2 * d * m) d X) ⟨rfl, rfl, fun i _ => by rw [if_neg (Nat.not_lt_zero _)]⟩
      fun k Xu hk h => h.step N dir hk hX
  exact (hall.pairs i hi).trans (if_pos (Nat.mod_lt i hd))

/-! ## The unit -/

/-- What pass 1 and the first `s` stages of a transform of `2^n` pairs have done to the array `X`. -/
structure UnitRounds (n : Nat) (X : List α) (s : Nat) (B : List α) : Prop where
  length : B.length = X.length
  pairs : ∀ i < 2 ^ n, complexRead N B i = stagesForm N dir n (complexRead N X) s i

theorem UnitRounds.step {n s : Nat} (hs : s < n) {X B : List α} (hX : X.length = 2 * 2 ^ n) (h : UnitRounds N dir n X s B) :
    UnitRounds N dir n X (s + 1) (fftStage N dir (2 ^ n) (2 ^ s) B) where
  length := by rw [fftStage_length, h.length]
  pairs i hi := by
    have hsize : 2 ^ n = 2 * 2 ^ s * 2 ^ (n - (s + 1)) := by
      rw [← Nat.pow_succ', ← Nat.pow_add, Nat.add_sub_cancel' hs]
    have hgroup : ∀ k, k / (2 * 2 ^ s) = i / (2 * 2 ^ s) → k < 2 ^ n := fun k hk => by
      rw [hsize] at hi ⊢
      exact lt_of_same_group hi hk
    have hstage : complexRead N (fftStage N dir (2 ^ n) (2 ^ s) B) i = stageForm N dir (2 ^ s) (complexRead N B) i := by
      rw [hsize] at hi hX ⊢
      exact complexRead_fftStage N dir (h.length.trans hX) hi
    rw [hstage]
    exact stageForm_congr N dir (Nat.two_pow_pos s) fun k _ hk => h.pairs k (hgroup k hk)

/-- The unit makes of every pair what the bit-reversal pass and the stages say (R141). -/
theorem complexRead_fftArray {n : Nat} {X : List α} (hX : X.length = 2 * 2 ^ n) {i : Nat} (hi : i < 2 ^ n) :
    complexRead N (fftArray N dir (2 ^ n) n X) i = stagesForm N dir n (complexRead N X) n i := by
  have hall : UnitRounds N dir n X n (fftArray N dir (2 ^ n) n X) :=
    loop_induct (UnitRounds N dir n X) ⟨bitrevPass_length N _ _ _, fun i hi => complexRead_bitrevPass N hX hi⟩
      fun s B hs h => h.step N dir hs hX
  exact hall.pairs i hi

/-- An instruction that runs the unit answers with its array and changes nothing else (R141). -/
theorem execFft_of_array {dir : Dir} {i : Instr} (hi : ∀ s, exec i s = onStream (fftStream Config.NUM.toNumOps dir) s) {s : State}
    (hlen : s.stream.spectrum.length = 2 * s.stream.F) (hF : s.stream.F = 2 ^ s.stream.n) :
    ∃ X : List Sys2Proof.Num,
      exec i s = .next { s with stream := { s.stream with spectrum := X } } ∧
      X.length = 2 * s.stream.F ∧
      ∀ i < s.stream.F, complexRead Config.NUM.toNumOps X i =
        stagesForm Config.NUM.toNumOps dir s.stream.n (complexRead Config.NUM.toNumOps s.stream.spectrum) s.stream.n i := by
  refine ⟨_, (hi s).trans (onStream_of_ok ((fftStream_eq_ok _).2 ⟨⟨hlen, .inl hF⟩, rfl⟩)), ?_, fun k hk => ?_⟩
  · rw [fftArray_length, hlen]
  · rw [hF] at hk hlen ⊢
    exact complexRead_fftArray _ dir hlen hk

end Sys2Proof.Machine

namespace Sys2Proof.Proofs

open Sys2Proof.Machine

/-- Settles O13: both directions run one array function, pair by pair the closed form. -/
theorem fftUnitRunsItsStages : Obligations.FftUnitRunsItsStages := fun _ hlen hF =>
  ⟨execFft_of_array (fun _ => rfl) hlen hF, execFft_of_array (fun _ => rfl) hlen hF⟩

end Sys2Proof.Proofs
end

section
/-!
The transform over the real numbers (spec/41_radix2_fft_ifft.md R148, R149): read as complex numbers, the stages are the
decimation in time of the discrete Fourier transform.
-/

namespace Sys2Proof.Machine

open Finset Sys2Proof.Proofs

/-! ## The discrete Fourier transform -/

/-- The discrete Fourier transform of `M` numbers with the `M`-th root of unity `w`, at `r` (R148). -/
def dft (w : ℂ) (M : ℕ) (x : ℕ → ℂ) (r : ℕ) : ℂ := ∑ k ∈ range M, x k * w ^ (k * r)

/-- Decimation in time: the even and the odd terms are two transforms of half the size. -/
theorem dft_two_mul (w : ℂ) (M : ℕ) (x : ℕ → ℂ) (r : ℕ) :
    dft w (2 * M) x r = dft (w ^ 2) M (fun k => x (2 * k)) r + w ^ r * dft (w ^ 2) M (fun k => x (2 * k + 1)) r := by
  induction M with
  | zero => simp [dft]
  | succ M ih =>
    simp only [dft, Nat.mul_succ, sum_range_succ, mul_add] at ih ⊢
    rw [ih]
    ring

theorem dft_add_period {w : ℂ} {M : ℕ} (hw : w ^ M = 1) (x : ℕ → ℂ) (r : ℕ) : dft w M x (r + M) = dft w M x r :=
  sum_congr rfl fun k _ => by rw [mul_add, pow_add, mul_comm k M, pow_mul w M, hw, one_pow, mul_one]

theorem dft_congr {w : ℂ} {M : ℕ} {x y : ℕ → ℂ} (h : ∀ k < M, x k = y k) (r : ℕ) : dft w M x r = dft w M y r :=
  sum_congr rfl fun k hk => by rw [h k (mem_range.1 hk)]

/-- The powers of a primitive root at two indices are orthogonal. -/
theorem sum_pow_mul_inv_pow {w : ℂ} {M k j : ℕ} (hw : IsPrimitiveRoot w M) (hk : k < M) (hj : j < M) :
    ∑ m ∈ range M, w ^ (k * m) * w⁻¹ ^ (m * j) = if k = j then (M : ℂ) else 0 := by
  have hterm : ∀ m ∈ range M, w ^ (k * m) * w⁻¹ ^ (m * j) = (w ^ k * (w ^ j)⁻¹) ^ m := fun m _ => by
    rw [mul_pow, inv_pow, inv_pow, ← pow_mul, ← pow_mul, mul_comm m j]
  rw [sum_congr rfl hterm]
  split
  next heq =>
    have hw0 : w ≠ 0 := hw.ne_zero (by omega)
    simp [heq, hw0]
  next hne =>
    have hratio : w ^ k * (w ^ j)⁻¹ ≠ 1 := fun h => hne (hw.pow_inj hk hj (eq_of_mul_inv_eq_one h))
    have hone : (w ^ k * (w ^ j)⁻¹) ^ M = 1 := by
      rw [mul_pow, inv_pow, pow_right_comm w k M, pow_right_comm w j M, hw.pow_eq_one, one_pow, one_pow, inv_one, mul_one]
    rw [geom_sum_eq hratio, hone, sub_self, zero_div]

/-- The transform with the inverse root undoes the transform, up to the factor `M`. -/
theorem dft_inv_dft {w : ℂ} {M : ℕ} (hw : IsPrimitiveRoot w M) (x : ℕ → ℂ) {j : ℕ} (hj : j < M) :
    dft w⁻¹ M (dft w M x) j = M * x j := by
  calc dft w⁻¹ M (dft w M x) j
      = ∑ k ∈ range M, x k * ∑ m ∈ range M, w ^ (k * m) * w⁻¹ ^ (m * j) := by
        simp only [dft, sum_mul, mul_sum, mul_assoc]
        exact sum_comm
    _ = ∑ k ∈ range M, x k * if k = j then (M : ℂ) else 0 :=
        sum_congr rfl fun k hk => by rw [sum_pow_mul_inv_pow hw (mem_range.1 hk) hj]
    _ = M * x j := by simp [hj, mul_comm]

/-! ## The pairs as complex numbers -/

/-- The complex number that a pair of real numbers stands for. -/
def complexOf (p : ℝ × ℝ) : ℂ := ⟨p.1, p.2⟩

theorem complexOf_injective : Function.Injective complexOf := fun p q h => by
  obtain ⟨hre, him⟩ := Complex.ext_iff.1 h
  exact Prod.ext hre him

@[simp] theorem numReal_cos (a : ℝ) : numReal.cos a = Real.cos a := rfl
@[simp] theorem numReal_sin (a : ℝ) : numReal.sin a = Real.sin a := rfl
@[simp] theorem numReal_neg (a : ℝ) : numReal.neg a = -a := rfl
@[simp] theorem numReal_pi : numReal.pi = Real.pi := rfl

theorem complexOf_butterflySum (a b u : ℝ × ℝ) :
    complexOf (butterflySum numReal a b u) = complexOf a + complexOf b * complexOf u := by
  apply Complex.ext <;> simp [complexOf, butterflySum, twiddled]

theorem complexOf_butterflyDiff (a b u : ℝ × ℝ) :
    complexOf (butterflyDiff numReal a b u) = complexOf a - complexOf b * complexOf u := by
  apply Complex.ext <;> simp [complexOf, butterflyDiff, twiddled]

/-! ## The twiddles -/

/-- The root of unity of the transform of size `M` in a direction (R148). -/
noncomputable def unitRoot (dir : Dir) (M : ℕ) : ℂ := Complex.exp ((dir.sgn : ℂ) * (2 * Real.pi * Complex.I) / M)

theorem unitRoot_inv_primitive {M : ℕ} (hM : M ≠ 0) : IsPrimitiveRoot (unitRoot .inv M) M := by
  simpa [unitRoot, Dir.sgn] using Complex.isPrimitiveRoot_exp M hM

theorem unitRoot_fwd (M : ℕ) : unitRoot .fwd M = (unitRoot .inv M)⁻¹ := by
  rw [unitRoot, unitRoot, ← Complex.exp_neg, ← neg_div]
  simp [Dir.sgn]

theorem unitRoot_primitive (dir : Dir) {M : ℕ} (hM : M ≠ 0) : IsPrimitiveRoot (unitRoot dir M) M := by
  cases dir with
  | fwd => exact unitRoot_fwd M ▸ (unitRoot_inv_primitive hM).inv
  | inv => exact unitRoot_inv_primitive hM

theorem unitRoot_two_mul_sq (dir : Dir) (M : ℕ) : unitRoot dir (2 * M) ^ 2 = unitRoot dir M := by
  rw [unitRoot, unitRoot, ← Complex.exp_nat_mul]
  congr 1
  push_cast
  field_simp

/-- Half way round the circle the root is `−1`: the upper half of a stage subtracts. -/
theorem unitRoot_two_mul_pow (dir : Dir) {M : ℕ} (hM : M ≠ 0) : unitRoot dir (2 * M) ^ M = -1 :=
  ((unitRoot_primitive dir (by omega)).pow (by omega) (Nat.mul_comm 2 M)).eq_neg_one_of_two_right

/-- The base twiddle of the stage of pair distance `d` is the root of size `2d` (R146). -/
theorem complexOf_baseTwiddle (dir : Dir) (d : ℕ) : complexOf (baseTwiddle numReal dir d) = unitRoot dir (2 * d) := by
  have harg : (dir.sgn : ℂ) * (2 * Real.pi * Complex.I) / (2 * d : ℕ) =
      ((dir.sgn * (Real.pi / d) : ℝ) : ℂ) * Complex.I := by
    push_cast
    field_simp
  rw [unitRoot, harg]
  apply Complex.ext
  · rw [Complex.exp_ofReal_mul_I_re]
    cases dir <;> simp [complexOf, baseTwiddle, Dir.sgn]
  · rw [Complex.exp_ofReal_mul_I_im]
    cases dir <;> simp [complexOf, baseTwiddle, Dir.sgn]

/-- The twiddles of a stage are the powers of its root (R146). -/
theorem complexOf_twiddlePower (dir : Dir) (d j : ℕ) : complexOf (twiddlePower numReal dir d j) = unitRoot dir (2 * d) ^ j := by
  induction j with
  | zero => apply Complex.ext <;> simp [complexOf, twiddlePower]
  | succ j ih =>
    rw [← nextTwiddle_twiddlePower, pow_succ, ← ih, ← complexOf_baseTwiddle]
    apply Complex.ext <;> simp [complexOf, nextTwiddle]

/-! ## The stages -/

/-- The lower half of a transform of size `2M`, from those of its even and odd terms. -/
theorem dft_root_lower (dir : Dir) (M : ℕ) (x : ℕ → ℂ) (j : ℕ) :
    dft (unitRoot dir (2 * M)) (2 * M) x j =
      dft (unitRoot dir M) M (fun k => x (2 * k)) j +
        unitRoot dir (2 * M) ^ j * dft (unitRoot dir M) M (fun k => x (2 * k + 1)) j := by
  rw [dft_two_mul, unitRoot_two_mul_sq]

/-- The upper half is the same with a minus sign. -/
theorem dft_root_upper (dir : Dir) {M : ℕ} (hM : M ≠ 0) (x : ℕ → ℂ) (j : ℕ) :
    dft (unitRoot dir (2 * M)) (2 * M) x (j + M) =
      dft (unitRoot dir M) M (fun k => x (2 * k)) j -
        unitRoot dir (2 * M) ^ j * dft (unitRoot dir M) M (fun k => x (2 * k + 1)) j := by
  have hperiod : unitRoot dir M ^ M = 1 := (unitRoot_primitive dir hM).pow_eq_one
  rw [dft_root_lower, dft_add_period hperiod, dft_add_period hperiod, pow_add, unitRoot_two_mul_pow dir hM]
  ring

/-- After `s` stages of a transform of `2^(m+s)` pairs, group `q` of `2^s` pairs holds the transform of the pairs at distance `2^m`
from each other, the first being that of the reversal of `q`. -/
theorem complexOf_stagesForm (dir : Dir) (X : ℕ → ℝ × ℝ) (s m q : ℕ) {r : ℕ} (hr : r < 2 ^ s) :
    complexOf (stagesForm numReal dir (m + s) X s (r + 2 ^ s * q)) =
      dft (unitRoot dir (2 ^ s)) (2 ^ s) (fun k => complexOf (X (k * 2 ^ m + bitrev q m))) r := by
  induction s generalizing m q r with
  | zero =>
    obtain rfl : r = 0 := by simpa using hr
    simp [dft, stagesForm]
  | succ s ih =>
    have hsize : m + (s + 1) = m + 1 + s := by omega
    have heven : ∀ j < 2 ^ s, complexOf (stagesForm numReal dir (m + (s + 1)) X s (j + 2 * 2 ^ s * q)) =
        dft (unitRoot dir (2 ^ s)) (2 ^ s) (fun k => complexOf (X (2 * k * 2 ^ m + bitrev q m))) j := fun j hj => by
      rw [hsize, show j + 2 * 2 ^ s * q = j + 2 ^ s * (2 * q) by ring, ih (m + 1) (2 * q) hj, bitrev_two_mul]
      exact dft_congr (fun k _ => by rw [show 2 * k * 2 ^ m = k * 2 ^ (m + 1) by ring]) j
    have hodd : ∀ j < 2 ^ s, complexOf (stagesForm numReal dir (m + (s + 1)) X s (j + 2 * 2 ^ s * q + 2 ^ s)) =
        dft (unitRoot dir (2 ^ s)) (2 ^ s) (fun k => complexOf (X ((2 * k + 1) * 2 ^ m + bitrev q m))) j := fun j hj => by
      rw [hsize, show j + 2 * 2 ^ s * q + 2 ^ s = j + 2 ^ s * (2 * q + 1) by ring, ih (m + 1) (2 * q + 1) hj,
        bitrev_two_mul_add_one]
      exact dft_congr (fun k _ => by rw [show (2 * k + 1) * 2 ^ m = k * 2 ^ (m + 1) + 2 ^ m by ring, Nat.add_assoc]) j
    rw [stagesForm, Nat.pow_succ']
    rcases Nat.lt_or_ge r (2 ^ s) with hlow | hhigh
    · rw [stageForm_lower numReal dir hlow, complexOf_butterflySum, heven r hlow, hodd r hlow, complexOf_twiddlePower,
        dft_root_lower, mul_comm (dft _ _ _ _)]
    · obtain ⟨j, rfl⟩ := Nat.exists_eq_add_of_le' hhigh
      have hj : j < 2 ^ s := by omega
      rw [Nat.add_right_comm, stageForm_upper numReal dir hj, complexOf_butterflyDiff, heven j hj, hodd j hj,
        complexOf_twiddlePower, dft_root_upper dir (by positivity), mul_comm (dft _ _ _ _)]

/-- All `n` stages leave one group, the transform of the whole buffer (R148). -/
theorem complexOf_fftArray (dir : Dir) {n : ℕ} {X : List ℝ} (hX : X.length = 2 * 2 ^ n) {m : ℕ} (hm : m < 2 ^ n) :
    complexOf (complexRead numReal (fftArray numReal dir (2 ^ n) n X) m) =
      dft (unitRoot dir (2 ^ n)) (2 ^ n) (fun k => complexOf (complexRead numReal X k)) m := by
  have hstages := complexOf_stagesForm dir (complexRead numReal X) n 0 0 hm
  rw [Nat.zero_add, Nat.mul_zero, Nat.add_zero] at hstages
  rw [complexRead_fftArray numReal dir hX hm, hstages]
  simp

/-! ## Real buffers -/

/-- Two buffers of `F` pairs that stand for the same complex numbers are equal. -/
theorem eq_of_complexOf {F : ℕ} {A B : List ℝ} (hA : A.length = 2 * F) (hB : B.length = 2 * F)
    (h : ∀ i < F, complexOf (complexRead numReal A i) = complexOf (complexRead numReal B i)) : A = B := by
  refine eq_of_memRead numReal (hA.trans hB.symm) fun k hk => ?_
  obtain ⟨hre, him⟩ := Prod.ext_iff.1 (complexOf_injective (h (k / 2) (by omega)))
  rcases Nat.mod_two_eq_zero_or_one k with hpart | hpart
  · rwa [show k = 2 * (k / 2) by omega]
  · rwa [show k = 2 * (k / 2) + 1 by omega]

theorem complexOf_complexRead_scale (c : ℝ) (X : List ℝ) (i : ℕ) :
    complexOf (complexRead numReal (X.map fun x => c * x) i) = c * complexOf (complexRead numReal X i) := by
  have hread : ∀ k, memRead numReal (X.map fun x => c * x) k = c * memRead numReal X k := fun k => by
    have hmap := List.getD_map (l := X) (d := numReal.zero) (n := k) (fun x => c * x)
    rw [numReal_zero, mul_zero] at hmap
    rw [memRead, memRead, numReal_zero, hmap]
  apply Complex.ext <;> simp [complexOf, complexRead, hread]

end Sys2Proof.Machine

namespace Sys2Proof.Proofs

open Sys2Proof.Machine

/-- Settles O25: the unit's stages are the transform by decimation in time. -/
theorem transformIsTheDft : Obligations.TransformIsTheDft := by
  intro dir n X hX m hm
  refine (complexOf_fftArray dir hX hm).trans (Finset.sum_congr rfl fun k _ => ?_)
  rw [unitRoot, ← Complex.exp_nat_mul]
  congr 2
  push_cast
  ring

/-- Settles O26: the two directions are the transforms of a primitive root and of its inverse. -/
theorem inverseAfterForwardScales : Obligations.InverseAfterForwardScales := by
  intro n X hX
  have hY : (fftArray numReal .fwd (2 ^ n) n X).length = 2 * 2 ^ n := (fftArray_length _ _ _ _ _).trans hX
  have hroot : unitRoot .inv (2 ^ n) = (unitRoot .fwd (2 ^ n))⁻¹ := by rw [unitRoot_fwd, inv_inv]
  refine eq_of_complexOf (F := 2 ^ n) (by rw [fftArray_length, hY]) (by rw [List.length_map, hX]) fun i hi => ?_
  rw [complexOf_fftArray .inv hY hi, dft_congr (fun k hk => complexOf_fftArray .fwd hX hk), hroot,
    dft_inv_dft (unitRoot_primitive .fwd (by positivity)) _ hi, complexOf_complexRead_scale, Complex.ofReal_natCast]

end Sys2Proof.Proofs
end

section
/-!
What `U.WINDOW` and `U.ANALYZE` write, element by element, in the arithmetic of the machine (spec/42_stft_analysis.md R162, R164).
-/

namespace Sys2Proof.Machine

/-- The two members of pair `k`, of the pairs `(f x, g x)` written one after another. -/
theorem getElem?_flatMap_pair {α β : Type} (f g : β → α) (l : List β) (k : Nat) :
    (l.flatMap fun x => [f x, g x])[2 * k]? = l[k]?.map f ∧ (l.flatMap fun x => [f x, g x])[2 * k + 1]? = l[k]?.map g := by
  induction l generalizing k with
  | nil => exact ⟨rfl, rfl⟩
  | cons x l ih =>
    cases k with
    | zero => exact ⟨rfl, rfl⟩
    | succ k => exact ih k

variable {α : Type} (N : NumOps α)

theorem memRead_of_getElem? {A : List α} {k : Nat} {x : α} (h : A[k]? = some x) : memRead N A k = x := by
  rw [memRead, List.getD_eq_getElem?_getD, h, Option.getD_some]

theorem complexRead_of_getElem? {X : List α} {k : Nat} {re im : α} (hre : X[2 * k]? = some re) (him : X[2 * k + 1]? = some im) :
    complexRead N X k = (re, im) := by
  rw [complexRead, memRead_of_getElem? N hre, memRead_of_getElem? N him]

/-- The pair `k` of the windowed frame. -/
theorem getElem?_windowArray {F k : Nat} {input : List α} {x : α} (hk : k < F) (hx : input[k]? = some x) :
    (windowArray N F input)[2 * k]? = some (N.mul x (hann N F k)) ∧ (windowArray N F input)[2 * k + 1]? = some N.zero := by
  have hpair := getElem?_flatMap_pair (fun j => N.mul (memRead N input j) (hann N F j)) (fun _ => N.zero) (List.range F) k
  rwa [List.getElem?_range hk, Option.map_some, Option.map_some, memRead_of_getElem? N hx] at hpair

end Sys2Proof.Machine

namespace Sys2Proof.Proofs

open Sys2Proof.Machine

/-- Settles O12: `U.WINDOW` writes the windowed pairs, all `2F` elements of them. -/
theorem windowLoadsSpectrum : Obligations.WindowLoadsSpectrum := by
  intro s hlen
  refine ⟨windowArray Config.NUM.toNumOps s.stream.F s.stream.inputFIFO,
    onStream_of_ok ((windowStream_eq_ok _).2 ⟨hlen, rfl⟩), windowArray_length _ _ _, fun k x hx => ?_⟩
  obtain ⟨hk, -⟩ := List.getElem?_eq_some_iff.1 hx
  exact getElem?_windowArray _ (hlen ▸ hk) hx

/-- Settles O14: `U.ANALYZE` measures each bin from its pair and from the phase held before. -/
theorem analyzeMeasuresEveryBin : Obligations.AnalyzeMeasuresEveryBin := by
  intro s hspectrum hphase hHF
  refine ⟨_, _, _, onStream_of_ok ((analyzeStream_eq_ok _).2 ⟨⟨hspectrum, hphase, hHF⟩, rfl⟩), by simp, by simp, by simp,
    fun k re im last hre him hlast => ?_⟩
  obtain ⟨hk, -⟩ := List.getElem?_eq_some_iff.1 hlast
  have hbin : k < s.stream.H + 1 := hphase ▸ hk
  simp only [List.getElem?_map, List.getElem?_range hbin, Option.map_some, complexRead_of_getElem? _ hre him,
    memRead_of_getElem? _ hlast]
  exact ⟨rfl, rfl, rfl⟩

end Sys2Proof.Proofs
end

section
/-! The analysis window over the real numbers (spec/42_stft_analysis.md R161). -/

namespace Sys2Proof.Machine

open Sys2Proof.Proofs

@[simp] theorem numReal_twoPi : numReal.twoPi = 2 * Real.pi := by simp [NumOps.twoPi]

theorem hann_numReal (F k : ℕ) : hann numReal F k = 1 / 2 - 1 / 2 * Real.cos (2 * Real.pi * k / F) := by
  simp [hann]

theorem hann_numReal_nonneg (F k : ℕ) : 0 ≤ hann numReal F k := by
  have := Real.cos_le_one (2 * Real.pi * k / F)
  rw [hann_numReal]
  linarith

theorem hann_numReal_le_one (F k : ℕ) : hann numReal F k ≤ 1 := by
  have := Real.neg_one_le_cos (2 * Real.pi * k / F)
  rw [hann_numReal]
  linarith

theorem hann_numReal_zero (F : ℕ) : hann numReal F 0 = 0 := by
  simp [hann_numReal]

theorem hann_numReal_half {H : ℕ} (hH : 0 < H) : hann numReal (2 * H) H = 1 := by
  have harg : 2 * Real.pi * H / (2 * H : ℕ) = Real.pi := by
    push_cast
    field_simp
  rw [hann_numReal, harg, Real.cos_pi]
  norm_num

/-- The window is symmetric: `F − k` turns the cosine's argument to `2π` less it. -/
theorem hann_numReal_sub {F k : ℕ} (hF : 0 < F) (hk : k ≤ F) : hann numReal F (F - k) = hann numReal F k := by
  have harg : 2 * Real.pi * (F - k : ℕ) / F = 2 * Real.pi - 2 * Real.pi * k / F := by
    rw [Nat.cast_sub hk]
    field_simp
  rw [hann_numReal, hann_numReal, harg, Real.cos_two_pi_sub]

/-- Half a frame on, the window and its complement to 1 change places. -/
theorem hann_numReal_half_sub {H k : ℕ} (hH : 0 < H) (hk : k ≤ H) :
    hann numReal (2 * H) (H - k) = 1 - hann numReal (2 * H) k := by
  have harg : 2 * Real.pi * (H - k : ℕ) / (2 * H : ℕ) = Real.pi - 2 * Real.pi * k / (2 * H : ℕ) := by
    rw [Nat.cast_sub hk]
    push_cast
    field_simp
  rw [hann_numReal, hann_numReal, harg, Real.cos_pi_sub]
  ring

/-- A quarter of the frame on the window is at half its height. -/
theorem hann_numReal_quarter {Q : ℕ} (hQ : 0 < Q) : hann numReal (4 * Q) Q = 1 / 2 := by
  have hmid := hann_numReal_half_sub (H := 2 * Q) (k := Q) (by omega) (by omega)
  rw [show 2 * Q - Q = Q by omega, show 2 * (2 * Q) = 4 * Q by omega] at hmid
  linarith

theorem hann_numReal_eight_one : hann numReal 8 1 = (2 - √2) / 4 := by
  have harg : 2 * Real.pi * (1 : ℕ) / (8 : ℕ) = Real.pi / 4 := by
    push_cast
    ring
  rw [hann_numReal, harg, Real.cos_pi_div_four]
  ring

theorem hann_numReal_eight_three : hann numReal 8 3 = (2 + √2) / 4 := by
  have hcomplement : hann numReal 8 3 = 1 - hann numReal 8 1 := hann_numReal_half_sub (H := 4) (k := 1) (by omega) (by omega)
  rw [hcomplement, hann_numReal_eight_one]
  ring

end Sys2Proof.Machine

namespace Sys2Proof.Proofs

open Sys2Proof.Machine

/-- Settles O27: each table is its first half, mirrored. -/
theorem realWindowIsHann : Obligations.RealWindowIsHann := by
  have mirror : ∀ F k, 0 < F → k ≤ F → hann numReal F (F - k) = hann numReal F k := fun _ _ => hann_numReal_sub
  refine ⟨hann_numReal, fun F k => ⟨hann_numReal_nonneg F k, hann_numReal_le_one F k⟩, hann_numReal_zero,
    fun _ => hann_numReal_half, mirror, ?two, ?four, ?eight⟩
  case two =>
    have h1 : hann numReal 2 1 = 1 := hann_numReal_half (H := 1) (by omega)
    simp [List.range_succ, hann_numReal_zero, h1]
  case four =>
    have h1 : hann numReal 4 1 = 1 / 2 := hann_numReal_quarter (Q := 1) (by omega)
    have h2 : hann numReal 4 2 = 1 := hann_numReal_half (H := 2) (by omega)
    have h3 : hann numReal 4 3 = _ := mirror 4 1 (by omega) (by omega)
    simp [List.range_succ, hann_numReal_zero, h1, h2, h3]
  case eight =>
    have h2 : hann numReal 8 2 = 1 / 2 := hann_numReal_quarter (Q := 2) (by omega)
    have h4 : hann numReal 8 4 = 1 := hann_numReal_half (H := 4) (by omega)
    have h5 : hann numReal 8 5 = _ := mirror 8 3 (by omega) (by omega)
    have h6 : hann numReal 8 6 = _ := mirror 8 2 (by omega) (by omega)
    have h7 : hann numReal 8 7 = _ := mirror 8 1 (by omega) (by omega)
    simp [List.range_succ, hann_numReal_zero, hann_numReal_eight_one, h2, hann_numReal_eight_three, h4, h5, h6, h7]

end Sys2Proof.Proofs
end

section
/-! The phase wrap and the true frequency of a bin over the real numbers (spec/42_stft_analysis.md R167, R168). -/

namespace Sys2Proof.Machine

open Sys2Proof.Proofs

/-! ## The even quotient -/

theorem numReal_evenq (q : ℝ) : numReal.evenq q = 2 * ⌈(q - 1) / 2⌉ := rfl

theorem even_evenq (q : ℝ) : Even (numReal.evenq q) := even_two_mul _

theorem neg_one_lt_sub_evenq (q : ℝ) : -1 < q - numReal.evenq q := by
  have := Int.ceil_lt_add_one ((q - 1) / 2)
  rw [numReal_evenq]
  push_cast
  linarith

theorem sub_evenq_le_one (q : ℝ) : q - numReal.evenq q ≤ 1 := by
  have := Int.le_ceil ((q - 1) / 2)
  rw [numReal_evenq]
  push_cast
  linarith

/-- The interval `(−1, 1]` holds one remainder by an even integer. -/
theorem eq_evenq {q : ℝ} {e : ℤ} (heven : Even e) (hlo : -1 < q - e) (hhi : q - e ≤ 1) : e = numReal.evenq q := by
  obtain ⟨m, rfl⟩ := heven
  push_cast at hlo hhi
  have hm : ⌈(q - 1) / 2⌉ = m := Int.ceil_eq_iff.2 ⟨by linarith, by linarith⟩
  rw [numReal_evenq, hm, two_mul]

/-- Another even integer is 2 or more away from `evenq q`, which is within 1 of `q`. -/
theorem abs_sub_evenq_le {q : ℝ} {e : ℤ} (heven : Even e) : |q - numReal.evenq q| ≤ |q - e| := by
  have hlo := neg_one_lt_sub_evenq q
  have hhi := sub_evenq_le_one q
  have hnear : |q - numReal.evenq q| ≤ 1 := abs_le.2 ⟨hlo.le, hhi⟩
  by_cases hcase : -1 < q - e ∧ q - e ≤ 1
  · rw [eq_evenq heven hcase.1 hcase.2]
  · refine hnear.trans (le_abs.2 ?_)
    rcases not_and_or.1 hcase with hbelow | habove
    · exact .inr (by linarith)
    · exact .inl (by linarith)

theorem evenq_of_odd {z : ℤ} (hz : Odd z) : numReal.evenq z = z - 1 :=
  (eq_evenq (hz.sub_odd odd_one) (by push_cast; linarith) (by push_cast; linarith)).symm

/-! ## The wrap -/

theorem wrapPhase_numReal (t : ℝ) : wrapPhase numReal t = t - Real.pi * numReal.evenq (t / Real.pi) := rfl

/-- The wrapped value is `π` times what the even quotient leaves. -/
theorem wrapPhase_eq_pi_mul (t : ℝ) :
    wrapPhase numReal t = Real.pi * (t / Real.pi - numReal.evenq (t / Real.pi)) := by
  rw [wrapPhase_numReal, mul_sub, mul_div_cancel₀ t Real.pi_ne_zero]

theorem neg_pi_lt_wrapPhase (t : ℝ) : -Real.pi < wrapPhase numReal t := by
  have := mul_lt_mul_of_pos_left (neg_one_lt_sub_evenq (t / Real.pi)) Real.pi_pos
  rw [wrapPhase_eq_pi_mul]
  linarith

theorem wrapPhase_le_pi (t : ℝ) : wrapPhase numReal t ≤ Real.pi := by
  have := mul_le_mul_of_nonneg_left (sub_evenq_le_one (t / Real.pi)) Real.pi_pos.le
  rw [wrapPhase_eq_pi_mul]
  linarith

theorem wrapPhase_of_odd {t : ℝ} {z : ℤ} (hz : Odd z) (ht : t / Real.pi = z) : wrapPhase numReal t = Real.pi := by
  rw [wrapPhase_eq_pi_mul, ht, evenq_of_odd hz]
  push_cast
  ring

/-! ## The frequency of a bin -/

theorem expectedAdvance_eq {F S O : ℕ} (hF : 0 < F) (hSO : S * O = F) :
    numReal.div (numReal.mul numReal.twoPi (numReal.num S)) (numReal.num F) = 2 * Real.pi / O := by
  subst hSO
  have hS : (S : ℝ) ≠ 0 := Nat.cast_ne_zero.2 (Nat.pos_of_mul_pos_right hF).ne'
  simp only [numReal_div, numReal_mul, numReal_twoPi, numReal_num]
  push_cast
  field_simp

/-- The wrapped residual of a bin, in bins. -/
noncomputable def binDeviation (st : Stream ℝ) (k : ℕ) (ph last : ℝ) : ℝ :=
  st.O * wrapPhase numReal (ph - last - k * st.EXPCT) / (2 * Real.pi)

theorem trueFrequency_numReal (st : Stream ℝ) (k : ℕ) (ph last : ℝ) :
    trueFrequency numReal st k ph last = k * st.FPB + binDeviation st k ph last * st.FPB := by
  simp [trueFrequency, binDeviation]

/-- `binDeviation` as a share of `O/2`. -/
theorem binDeviation_eq (st : Stream ℝ) (k : ℕ) (ph last : ℝ) :
    binDeviation st k ph last = st.O / 2 * (wrapPhase numReal (ph - last - k * st.EXPCT) / Real.pi) := by
  rw [binDeviation, mul_div_mul_comm]

theorem neg_half_lt_binDeviation {st : Stream ℝ} (hO : 0 < st.O) (k : ℕ) (ph last : ℝ) :
    -(st.O / 2 : ℝ) < binDeviation st k ph last := by
  have hO' : (0 : ℝ) < st.O / 2 := by positivity
  have hshare : -1 < wrapPhase numReal (ph - last - k * st.EXPCT) / Real.pi := by
    rw [lt_div_iff₀ Real.pi_pos, neg_one_mul]
    exact neg_pi_lt_wrapPhase _
  rw [binDeviation_eq]
  linarith [mul_lt_mul_of_pos_left hshare hO']

theorem binDeviation_le_half (st : Stream ℝ) (k : ℕ) (ph last : ℝ) : binDeviation st k ph last ≤ st.O / 2 := by
  have hshare : wrapPhase numReal (ph - last - k * st.EXPCT) / Real.pi ≤ 1 :=
    (div_le_one Real.pi_pos).2 (wrapPhase_le_pi _)
  rw [binDeviation_eq]
  exact mul_le_of_le_one_right (by positivity) hshare

end Sys2Proof.Machine

namespace Sys2Proof.Proofs

open Sys2Proof.Machine

/-- Settles O28: all of it follows from the one even integer with `q − e ∈ (−1, 1]`. -/
theorem realWrapLandsInInterval : Obligations.RealWrapLandsInInterval := by
  intro t q e
  refine ⟨even_evenq q, neg_one_lt_sub_evenq q, sub_evenq_le_one q, fun _ => eq_evenq, fun _ => abs_sub_evenq_le,
    wrapPhase_numReal t, neg_pi_lt_wrapPhase t, wrapPhase_le_pi t, fun z hz hq => ⟨?_, wrapPhase_of_odd hz hq⟩⟩
  rw [← evenq_of_odd hz, ← hq]

/-- Settles O29: the deviation is `O/2` times the wrapped residual over `π`. -/
theorem realFrequencyWithinHalfOversampling : Obligations.RealFrequencyWithinHalfOversampling := by
  intro st k ph last hF hSO hexpct
  have hO : 0 < st.O := Nat.pos_of_mul_pos_left (hSO ▸ hF)
  have hlo := neg_half_lt_binDeviation hO k ph last
  have hhi := binDeviation_le_half st k ph last
  refine ⟨hexpct.trans (expectedAdvance_eq hF hSO), binDeviation st k ph last, rfl, hlo, hhi,
    trueFrequency_numReal st k ph last, fun hFPB => ?_⟩
  rw [trueFrequency_numReal, ← add_mul]
  exact ⟨mul_lt_mul_of_pos_right (by linarith) hFPB, mul_le_mul_of_nonneg_right (by linarith) hFPB.le⟩

end Sys2Proof.Proofs
end

section
/-!
What `U.REMAP` writes, element by element, in the arithmetic of the machine (spec/43_bin_remapper.md R181, R182, R185, R186).
-/

namespace Sys2Proof.Machine

variable {α : Type} (N : NumOps α)

/-! ## One scatter -/

theorem targetKept_iff (H : Nat) (t : Int) : targetKept H t = true ↔ 0 ≤ t ∧ t ≤ H := decide_eq_true_iff

/-- The target of a source bin takes its magnitude and its frequency. -/
theorem memRead_scatter_target {H t : Nat} {P : α} {k : Nat} {syn : List α × List α} (am af : List α)
    (hk : remapTarget N P k = t) (ht : t ≤ H) (hM : t < syn.1.length) (hQ : t < syn.2.length) :
    memRead N (scatter N H P am af k syn).1 t = N.add (memRead N syn.1 t) (memRead N am k) ∧
      memRead N (scatter N H P am af k syn).2 t = N.mul (memRead N af k) P := by
  have hkept : targetKept H (t : Int) = true := (targetKept_iff _ _).2 (by omega)
  simp only [scatter, hk, hkept, if_true, Int.toNat_natCast]
  exact ⟨memRead_memWrite_same N _ _ _ hM, memRead_memWrite_same N _ _ _ hQ⟩

/-- Every element that is not the kept target of the source bin stays. -/
theorem memRead_scatter_other {H t : Nat} {P : α} {k : Nat} (am af : List α) (syn : List α × List α)
    (h : t ≤ H → remapTarget N P k ≠ t) :
    memRead N (scatter N H P am af k syn).1 t = memRead N syn.1 t ∧
      memRead N (scatter N H P am af k syn).2 t = memRead N syn.2 t := by
  unfold scatter
  by_cases hkept : targetKept H (remapTarget N P k) = true
  · have hne : (remapTarget N P k).toNat ≠ t := by
      have := (targetKept_iff _ _).1 hkept
      omega
    rw [if_pos hkept]
    exact ⟨memRead_memWrite_other N _ _ hne, memRead_memWrite_other N _ _ hne⟩
  · rw [if_neg hkept]
    exact ⟨rfl, rfl⟩

/-! ## The sources of a target -/

/-- The source bins below `n` of target `t`, ascending. -/
def sourcesBelow (P : α) (t n : Nat) : List Nat := (List.range n).filter fun k => remapTarget N P k = (t : Int)

/-- The magnitudes of the source bins, summed in the order of the list from `ZERO` (43 R181, R182). -/
def summedMagnitude (am : List α) (sources : List Nat) : α := sources.foldl (fun m k => N.add m (memRead N am k)) N.zero

/-- The frequency of the last source bin times `P`, or `ZERO` without a source (43 R185). -/
def lastFrequency (P : α) (af : List α) (sources : List Nat) : α :=
  match sources.getLast? with
  | some k => N.mul (memRead N af k) P
  | none => N.zero

theorem sourcesBelow_succ_source {P : α} {t n : Nat} (h : remapTarget N P n = t) :
    sourcesBelow N P t (n + 1) = sourcesBelow N P t n ++ [n] := by
  simp [sourcesBelow, List.range_succ, h]

theorem sourcesBelow_succ_other {P : α} {t n : Nat} (h : remapTarget N P n ≠ t) :
    sourcesBelow N P t (n + 1) = sourcesBelow N P t n := by
  simp [sourcesBelow, List.range_succ, h]

theorem summedMagnitude_append (am : List α) (sources : List Nat) (k : Nat) :
    summedMagnitude N am (sources ++ [k]) = N.add (summedMagnitude N am sources) (memRead N am k) := by
  simp [summedMagnitude]

theorem lastFrequency_append (P : α) (af : List α) (sources : List Nat) (k : Nat) :
    lastFrequency N P af (sources ++ [k]) = N.mul (memRead N af k) P := by
  simp [lastFrequency]

/-! ## The whole scatter -/

theorem memRead_replicate_zero (n i : Nat) : memRead N (List.replicate n N.zero) i = N.zero := by
  simp only [memRead, List.getD_eq_getElem?_getD, List.getElem?_replicate]
  split <;> rfl

/-- The synthesis arrays after the first `n` source bins. -/
def scatterLoop (F H n : Nat) (P : α) (am af : List α) : List α × List α :=
  loop n (scatter N H P am af) (List.replicate F N.zero, List.replicate F N.zero)

theorem scatterLoop_length (F H n : Nat) (P : α) (am af : List α) :
    (scatterLoop N F H n P am af).1.length = F ∧ (scatterLoop N F H n P am af).2.length = F := by
  induction n with
  | zero => simp [scatterLoop]
  | succ n ih =>
    have hround := scatter_length N H P am af n (scatterLoop N F H n P am af)
    exact ⟨hround.1.trans ih.1, hround.2.trans ih.2⟩

/-- After the first `n` source bins, a target up to `H` holds what those of them that share it give. -/
theorem memRead_scatterLoop {F H t : Nat} (P : α) (am af : List α) (ht : t ≤ H) (hHF : H < F) (n : Nat) :
    memRead N (scatterLoop N F H n P am af).1 t = summedMagnitude N am (sourcesBelow N P t n) ∧
      memRead N (scatterLoop N F H n P am af).2 t = lastFrequency N P af (sourcesBelow N P t n) := by
  induction n with
  | zero => exact ⟨memRead_replicate_zero N F t, memRead_replicate_zero N F t⟩
  | succ n ih =>
    obtain ⟨hM, hQ⟩ := scatterLoop_length N F H n P am af
    by_cases hn : remapTarget N P n = t
    · rw [sourcesBelow_succ_source N hn, summedMagnitude_append, lastFrequency_append, ← ih.1]
      exact memRead_scatter_target N (syn := scatterLoop N F H n P am af) am af hn ht (by omega) (by omega)
    · rw [sourcesBelow_succ_other N hn, ← ih.1, ← ih.2]
      exact memRead_scatter_other N am af _ fun _ => hn

/-- The elements above `H` are no target: they stay `ZERO`. -/
theorem memRead_scatterLoop_above {F H t : Nat} (P : α) (am af : List α) (ht : H < t) (n : Nat) :
    memRead N (scatterLoop N F H n P am af).1 t = N.zero ∧ memRead N (scatterLoop N F H n P am af).2 t = N.zero := by
  induction n with
  | zero => exact ⟨memRead_replicate_zero N F t, memRead_replicate_zero N F t⟩
  | succ n ih =>
    obtain ⟨hM, hQ⟩ := memRead_scatter_other N (P := P) (k := n) am af (scatterLoop N F H n P am af)
      fun h => absurd h (Nat.not_le.2 ht)
    exact ⟨hM.trans ih.1, hQ.trans ih.2⟩

theorem remapArrays_eq_scatterLoop (F H : Nat) (P : α) (am af : List α) :
    remapArrays N F H P am af = scatterLoop N F H (H + 1) P am af := rfl

/-- What `U.REMAP` writes at a target up to `H`. -/
theorem getElem?_remapArrays {F H t : Nat} (P : α) (am af : List α) (ht : t ≤ H) (hHF : H < F) :
    (remapArrays N F H P am af).1[t]? = some (summedMagnitude N am (sourcesBelow N P t (H + 1))) ∧
      (remapArrays N F H P am af).2[t]? = some (lastFrequency N P af (sourcesBelow N P t (H + 1))) := by
  obtain ⟨hM, hQ⟩ := scatterLoop_length N F H (H + 1) P am af
  rw [remapArrays_eq_scatterLoop, getElem?_eq_memRead N _ (by omega), getElem?_eq_memRead N _ (by omega), Option.some.injEq,
    Option.some.injEq]
  exact memRead_scatterLoop N P am af ht hHF (H + 1)

/-- What `U.REMAP` writes above `H`. -/
theorem getElem?_remapArrays_above {F H t : Nat} (P : α) (am af : List α) (ht : H < t) (htF : t < F) :
    (remapArrays N F H P am af).1[t]? = some N.zero ∧ (remapArrays N F H P am af).2[t]? = some N.zero := by
  obtain ⟨hM, hQ⟩ := scatterLoop_length N F H (H + 1) P am af
  rw [remapArrays_eq_scatterLoop, getElem?_eq_memRead N _ (by omega), getElem?_eq_memRead N _ (by omega), Option.some.injEq,
    Option.some.injEq]
  exact memRead_scatterLoop_above N P am af ht (H + 1)

/-! ## Unit pitch -/

/-- With `P = ONE` a bin is its own target, by law NUM-INT (43 R186). -/
theorem remapTarget_one {N : NumInst α} {overflows : FiniteOp → α → α → Bool} (laws : NumLaws N overflows) {k : Nat}
    (hk : k ≤ 2 * Config.maxFrame) : remapTarget N.toNumOps N.one k = k := by
  rw [remapTarget, laws.num_mul_one k hk, laws.floor_num k hk]

/-- With `P = ONE` a bin is the one source of itself. -/
theorem sourcesBelow_one {N : NumInst α} {overflows : FiniteOp → α → α → Bool} (laws : NumLaws N overflows) {t n : Nat}
    (ht : t < n) (hn : n ≤ 2 * Config.maxFrame) : sourcesBelow N.toNumOps N.one t n = [t] := by
  have hself : ∀ k ∈ List.range n, decide (remapTarget N.toNumOps N.one k = t) = (k == t) := fun k hk => by
    have hkn := List.mem_range.1 hk
    rw [remapTarget_one laws (by omega), Bool.eq_iff_iff]
    simp
  rw [sourcesBelow, List.filter_congr hself, List.filter_beq, List.count_eq_one_of_mem List.nodup_range (List.mem_range.2 ht)]
  rfl

end Sys2Proof.Machine

namespace Sys2Proof.Proofs

open Sys2Proof.Machine

/-- Settles O15: the scatter's reads, after all `H + 1` source bins. -/
theorem remapScattersBins : Obligations.RemapScattersBins := by
  intro s hmagn hfreq hHF
  obtain ⟨hM, hQ⟩ := remapArrays_length Config.NUM.toNumOps s.stream.F s.stream.H s.stream.P s.stream.anaMagn s.stream.anaFreq
  exact ⟨_, _, onStream_of_ok ((remapStream_eq_ok _).2 ⟨⟨hmagn, hfreq, hHF⟩, rfl⟩), hM, hQ,
    fun t ht => getElem?_remapArrays _ _ _ _ ht hHF, fun t ht htF => getElem?_remapArrays_above _ _ _ _ ht htF⟩

/-- Settles O31: each bin is the one source of itself, and its sum starts from `ZERO`. -/
theorem unitPitchRemapsEachBinToItself : Obligations.UnitPitchRemapsEachBinToItself := by
  intro s hP hgeometry ⟨hmagn, hfreq⟩
  have hHF := hgeometry.half_lt
  refine ⟨_, _, onStream_of_ok ((remapStream_eq_ok _).2 ⟨⟨hmagn, hfreq, hHF⟩, rfl⟩), fun k m f hm hf => ?_,
    fun k hk hkF => getElem?_remapArrays_above _ _ _ _ hk hkF⟩
  obtain ⟨hk, -⟩ := List.getElem?_eq_some_iff.1 hm
  have hmax := hgeometry.frame_max
  obtain ⟨hM, hQ⟩ := getElem?_remapArrays Config.NUM.toNumOps s.stream.P s.stream.anaMagn s.stream.anaFreq
    (show k ≤ s.stream.H by omega) hHF
  rw [hM, hQ, hP, sourcesBelow_one Config.NUM_laws (by omega) (by omega)]
  simp [summedMagnitude, lastFrequency, memRead_of_getElem? _ hm, memRead_of_getElem? _ hf]

end Sys2Proof.Proofs
end

section
/-! The remap targets over the real numbers (spec/43_bin_remapper.md R187, R188). -/

namespace Sys2Proof.Machine

open Sys2Proof.Proofs

theorem remapTarget_numReal (P : ℝ) (k : ℕ) : remapTarget numReal P k = ⌊(k : ℝ) * P⌋ := by
  simp [remapTarget]

theorem remapTarget_numReal_nonneg {P : ℝ} (hP : 0 < P) (k : ℕ) : 0 ≤ remapTarget numReal P k := by
  rw [remapTarget_numReal, Int.floor_nonneg]
  positivity

theorem remapTarget_numReal_mono {P : ℝ} (hP : 0 < P) {j k : ℕ} (hjk : j ≤ k) :
    remapTarget numReal P j ≤ remapTarget numReal P k := by
  rw [remapTarget_numReal, remapTarget_numReal]
  gcongr

/-- The pseudocode's reading: a bin with `H < k·P < H + 1`, dropped by the prose of 43 R187, is kept (log entry 24). -/
theorem targetKept_numReal_iff {P : ℝ} (hP : 0 < P) (H k : ℕ) :
    targetKept H (remapTarget numReal P k) = true ↔ (k : ℝ) * P < H + 1 := by
  have hfloor : remapTarget numReal P k ≤ H ↔ (k : ℝ) * P < H + 1 := by
    rw [remapTarget_numReal, Int.floor_le_iff, Int.cast_natCast]
  rw [targetKept_iff, hfloor, and_iff_right (remapTarget_numReal_nonneg hP k)]

theorem remapTarget_numReal_strict {P : ℝ} (hP : 1 ≤ P) (k : ℕ) :
    remapTarget numReal P k + 1 ≤ remapTarget numReal P (k + 1) := by
  rw [remapTarget_numReal, remapTarget_numReal, ← Int.floor_add_one]
  refine Int.floor_le_floor ?_
  push_cast
  linarith

theorem targetKept_numReal_eq_false {P : ℝ} (hP : 1 ≤ P) {H k : ℕ} (hk : (H : ℝ) / P + 1 ≤ k) :
    targetKept H (remapTarget numReal P k) = false := by
  have hpos : 0 < P := by linarith
  have hkP : (H : ℝ) + P ≤ k * P := by
    calc (H : ℝ) + P = (H / P + 1) * P := by field_simp
      _ ≤ k * P := by gcongr
  rw [← Bool.not_eq_true, targetKept_numReal_iff hpos]
  linarith

theorem targetKept_numReal_of_lt_one {P : ℝ} (hpos : 0 < P) (hP : P < 1) {H k : ℕ} (hk : k ≤ H) :
    targetKept H (remapTarget numReal P k) = true := by
  rw [targetKept_numReal_iff hpos]
  have hkH : (k : ℝ) ≤ H := Nat.cast_le.2 hk
  have hkP : (k : ℝ) * P ≤ k := mul_le_of_le_one_right k.cast_nonneg hP.le
  linarith

/-- The sources of target `t` are the integers of the interval `[t/P, (t + 1)/P)`. -/
theorem remapTarget_numReal_eq_iff {P : ℝ} (hP : 0 < P) (k : ℕ) (t : ℤ) :
    remapTarget numReal P k = t ↔ (k : ℤ) ∈ Finset.Ico ⌈t / P⌉ ⌈(t + 1) / P⌉ := by
  rw [remapTarget_numReal, Int.floor_eq_iff, Finset.mem_Ico, Int.ceil_le, Int.lt_ceil, div_le_iff₀ hP, lt_div_iff₀ hP,
    Int.cast_natCast]

theorem card_sources_le {P : ℝ} (hP : 0 < P) (K : ℕ) (t : ℤ) :
    (((Finset.range K).filter fun k => remapTarget numReal P k = t).card : ℤ) ≤ ⌈1 / P⌉ := by
  have hcard : ((Finset.range K).filter fun k => remapTarget numReal P k = t).card ≤
      (Finset.Ico ⌈t / P⌉ ⌈(t + 1) / P⌉).card :=
    Finset.card_le_card_of_injOn (fun k : ℕ => (k : ℤ))
      (fun k hk => (remapTarget_numReal_eq_iff hP k t).1 (Finset.mem_filter.1 hk).2) Nat.cast_injective.injOn
  have hlength : ⌈(t + 1) / P⌉ ≤ ⌈t / P⌉ + ⌈1 / P⌉ := by
    rw [add_div]
    exact Int.ceil_add_le _ _
  have hnonneg : 0 ≤ ⌈1 / P⌉ := Int.ceil_nonneg (by positivity)
  rw [Int.card_Ico] at hcard
  omega

theorem remapTarget_numReal_two (k : ℕ) : remapTarget numReal 2 k = 2 * (k : ℤ) := by
  rw [remapTarget_numReal, show (k : ℝ) * 2 = ((2 * k : ℤ) : ℝ) by push_cast; ring, Int.floor_intCast]

theorem remapTarget_numReal_half (k : ℕ) : remapTarget numReal (1 / 2) k = (k / 2 : ℕ) := by
  have hdiv := Int.floor_div_natCast (k : ℝ) 2
  rw [Int.floor_natCast, Nat.cast_two] at hdiv
  rw [remapTarget_numReal, mul_one_div, hdiv]
  rfl

end Sys2Proof.Machine

namespace Sys2Proof.Proofs

open Sys2Proof.Machine

/-- Settles O30: each clause from the target as the floor of `k·P`. -/
theorem realTargetsAreMonotone : Obligations.RealTargetsAreMonotone :=
  ⟨fun _ j _ hP hjk => ⟨remapTarget_numReal_nonneg hP j, remapTarget_numReal_mono hP hjk⟩,
    fun _ H k hP => targetKept_numReal_iff hP H k, fun _ k hP => remapTarget_numReal_strict hP k,
    fun _ _ _ hP hk => targetKept_numReal_eq_false hP hk, fun _ _ _ hpos hP hk => targetKept_numReal_of_lt_one hpos hP hk,
    fun _ K t hP => card_sources_le hP K t, remapTarget_numReal_two, remapTarget_numReal_half⟩

end Sys2Proof.Proofs
end

section
/-!
What `U.SYNTH` and `U.ZERONEG` write, element by element, in the arithmetic of the machine (spec/44_phase_synthesis.md R191, R193,
R194, R196).
-/

namespace Sys2Proof.Machine

variable {α : Type} (N : NumOps α)

/-! ## Pairs of an array -/

theorem getElem?_complexWrite_other (X : List α) {i j : Nat} (v : α × α) (h : i ≠ j / 2) : (complexWrite X i v)[j]? = X[j]? := by
  rw [complexWrite, memWrite, memWrite, List.getElem?_set_ne (by omega), List.getElem?_set_ne (by omega)]

/-- The two elements of a pair inside the array. -/
theorem getElem?_eq_complexRead {X : List α} {k : Nat} (h : 2 * k + 1 < X.length) :
    X[2 * k]? = some (complexRead N X k).1 ∧ X[2 * k + 1]? = some (complexRead N X k).2 :=
  ⟨getElem?_eq_memRead N X (by omega), getElem?_eq_memRead N X h⟩

section PairLoop

variable {index : Nat → Nat} {n : Nat} (v : Nat → α × α) (X : List α)

/-- A loop that writes pair `index k` in round `k` leaves the elements of every other pair alone. -/
theorem getElem?_loop_complexWrite_other {j : Nat} (h : ∀ k < n, index k ≠ j / 2) :
    (loop n (fun k B => complexWrite B (index k) (v k)) X)[j]? = X[j]? :=
  loop_induct (fun _ B => B[j]? = X[j]?) rfl fun k B hk hB => (getElem?_complexWrite_other B _ (h k hk)).trans hB

theorem loop_complexWrite_length : (loop n (fun k B => complexWrite B (index k) (v k)) X).length = X.length :=
  loop_length X fun _ _ => complexWrite_length _ _ _

/-- No round writes a pair again, so each holds what its own round wrote. -/
theorem complexRead_loop_complexWrite (hinj : Function.Injective index) {k : Nat} (hk : k < n)
    (hlen : 2 * index k + 1 < X.length) :
    complexRead N (loop n (fun k B => complexWrite B (index k) (v k)) X) (index k) = v k := by
  induction n with
  | zero => exact absurd hk (Nat.not_lt_zero k)
  | succ n ih =>
    rw [loop_succ]
    rcases Nat.lt_succ_iff_lt_or_eq.1 hk with hlt | rfl
    · rw [complexRead_complexWrite_other N _ _ (hinj.ne hlt.ne'), ih hlt]
    · exact complexRead_complexWrite_same N _ _ _ (by rwa [loop_complexWrite_length])

end PairLoop

/-! ## `U.SYNTH` -/

theorem memRead_map_range {n k : Nat} (f : Nat → α) (hk : k < n) : memRead N ((List.range n).map f) k = f k :=
  memRead_of_getElem? N (by rw [List.getElem?_map, List.getElem?_range hk, Option.map_some])

section Synth

variable {st st' : Stream α} (h : synthStream N st = .ok st')

include h

theorem synthStream_lengths : st'.sumPhase.length = st.H + 1 ∧ st'.spectrum.length = 2 * st.F := by
  obtain ⟨⟨-, -, -, hspectrum, -⟩, rfl⟩ := (synthStream_eq_ok N).1 h
  exact ⟨by simp, (loop_complexWrite_length _ _).trans hspectrum⟩

/-- A bin up to `H` holds its new phase and the pair of that phase (R193, R194). -/
theorem synthStream_bin {k : Nat} (hk : k ≤ st.H) :
    memRead N st'.sumPhase k = newSumPhase N st k ∧
      complexRead N st'.spectrum k = polar N (memRead N st.synMagn k) (newSumPhase N st k) := by
  obtain ⟨⟨-, -, -, hspectrum, hHF⟩, rfl⟩ := (synthStream_eq_ok N).1 h
  exact ⟨memRead_map_range N _ (by omega),
    complexRead_loop_complexWrite N _ _ Function.injective_id (by omega) (by rw [id, hspectrum]; omega)⟩

theorem synthStream_getElem? {k : Nat} (hk : k ≤ st.H) :
    let ph := newSumPhase N st k
    st'.sumPhase[k]? = some ph ∧ st'.spectrum[2 * k]? = some (N.mul (memRead N st.synMagn k) (N.cos ph)) ∧
      st'.spectrum[2 * k + 1]? = some (N.mul (memRead N st.synMagn k) (N.sin ph)) := by
  obtain ⟨⟨-, -, -, -, hHF⟩, -⟩ := (synthStream_eq_ok N).1 h
  obtain ⟨hA, hX⟩ := synthStream_lengths N h
  obtain ⟨hsum, hpair⟩ := synthStream_bin N h hk
  have hspectrum := getElem?_eq_complexRead N (X := st'.spectrum) (k := k) (by omega)
  rw [hpair] at hspectrum
  exact ⟨by rw [getElem?_eq_memRead N _ (by omega), hsum], hspectrum⟩

theorem synthStream_above {j : Nat} (hj : 2 * (st.H + 1) ≤ j) : st'.spectrum[j]? = st.spectrum[j]? := by
  obtain ⟨-, rfl⟩ := (synthStream_eq_ok N).1 h
  exact getElem?_loop_complexWrite_other _ _ fun k hk => by omega

end Synth

/-! ## `U.ZERONEG` -/

/-- The bins above `H` are cleared. -/
theorem complexRead_zeroNegArray {F H k : Nat} {X : List α} (hX : X.length = 2 * F) (hk : H < k) (hkF : k < F) :
    complexRead N (zeroNegArray N F H X) k = (N.zero, N.zero) := by
  obtain ⟨m, rfl⟩ := Nat.exists_eq_add_of_le (Nat.succ_le_of_lt hk)
  exact complexRead_loop_complexWrite N (fun _ => (N.zero, N.zero)) X (add_right_injective (H + 1)) (by omega) (by omega)

theorem getElem?_zeroNegArray_kept {F H j : Nat} (X : List α) (hj : j < 2 * (H + 1)) :
    (zeroNegArray N F H X)[j]? = X[j]? :=
  getElem?_loop_complexWrite_other _ _ fun m _ => by omega

theorem getElem?_zeroNegArray_cleared {F H j : Nat} {X : List α} (hX : X.length = 2 * F) (hj : 2 * (H + 1) ≤ j)
    (hjF : j < 2 * F) : (zeroNegArray N F H X)[j]? = some N.zero := by
  obtain ⟨heven, hodd⟩ := getElem?_eq_complexRead N (X := zeroNegArray N F H X) (k := j / 2)
    (by rw [zeroNegArray_length, hX]; omega)
  rw [complexRead_zeroNegArray N hX (by omega) (by omega)] at heven hodd
  rcases Nat.mod_two_eq_zero_or_one j with hpart | hpart
  · rwa [show 2 * (j / 2) = j by omega] at heven
  · rwa [show 2 * (j / 2) + 1 = j by omega] at hodd

end Sys2Proof.Machine

namespace Sys2Proof.Proofs

open Sys2Proof.Machine

/-- Settles O16: each bin up to `H` holds its new phase and the pair of it, the elements above are not written. -/
theorem synthAccumulatesPhase : Obligations.SynthAccumulatesPhase := by
  intro s hmagn hfreq hphase hspectrum hHF
  have hok := (synthStream_eq_ok Config.NUM.toNumOps).2 ⟨⟨hmagn, hfreq, hphase, hspectrum, hHF⟩, rfl⟩
  obtain ⟨hA, hX⟩ := synthStream_lengths _ hok
  refine ⟨_, _, onStream_of_ok hok, hA, hX, fun k magn freq p hk hm hf hp => ?_, fun j hj => synthStream_above _ hok hj⟩
  have hbin := synthStream_getElem? _ hok hk
  rwa [newSumPhase, memRead_of_getElem? _ hm, memRead_of_getElem? _ hf, memRead_of_getElem? _ hp] at hbin

/-- Settles O17: the loop writes the pairs `H + 1 … F − 1` and no other. -/
theorem zeronegClearsUpperBins : Obligations.ZeronegClearsUpperBins := by
  intro s hlen
  exact ⟨_, onStream_of_ok ((zeroNegStream_eq_ok _).2 ⟨hlen, rfl⟩), (zeroNegArray_length _ _ _ _).trans hlen,
    fun j hj => getElem?_zeroNegArray_kept _ _ hj, fun j hj hjF => getElem?_zeroNegArray_cleared _ hlen hj hjF⟩

end Sys2Proof.Proofs
end

section
/-!
Phase synthesis over the real numbers (spec/44_phase_synthesis.md R192, R199). Phases modulo `2π` are Mathlib's `Real.Angle`.
-/

namespace Sys2Proof.Machine

open Sys2Proof.Proofs

/-! ## The increment -/

theorem phaseIncrement_numReal {st : Stream ℝ} (hFPB : st.FPB ≠ 0) (k : ℕ) (f : ℝ) :
    phaseIncrement numReal st k f = 2 * Real.pi * (f / st.FPB - k) / st.O + k * st.EXPCT := by
  simp only [phaseIncrement, numReal_add, numReal_sub, numReal_mul, numReal_div, numReal_num, numReal_twoPi]
  rw [sub_div, Int.cast_natCast, Int.cast_natCast, mul_div_cancel_right₀ _ hFPB]

theorem phaseIncrement_congr {α : Type} {N : NumOps α} {st st' : Stream α} (h : SameLatched st st') (k : ℕ) (f : α) :
    phaseIncrement N st' k f = phaseIncrement N st k f := by
  obtain ⟨-, hO, -, -, -, -, -, -, hFPB, hEXPCT⟩ := h
  rw [phaseIncrement, phaseIncrement, hO, hFPB, hEXPCT]

/-- The increment undoes the analysis: the wrapped residual and the expected advance come back (R199). -/
theorem phaseIncrement_trueFrequency {st : Stream ℝ} (hFPB : st.FPB ≠ 0) (hO : 0 < st.O) (k : ℕ) (ph last : ℝ) :
    phaseIncrement numReal st k (trueFrequency numReal st k ph last) =
      wrapPhase numReal (ph - last - k * st.EXPCT) + k * st.EXPCT := by
  have hO' : (st.O : ℝ) ≠ 0 := Nat.cast_ne_zero.2 hO.ne'
  have hdev : trueFrequency numReal st k ph last / st.FPB - k = binDeviation st k ph last := by
    rw [trueFrequency_numReal, ← add_mul, mul_div_cancel_right₀ _ hFPB, add_sub_cancel_left]
  rw [phaseIncrement_numReal hFPB, hdev, binDeviation]
  field_simp

/-! ## Phases modulo `2π` -/

/-- The wrap takes off a multiple of `2π`. -/
theorem wrapPhase_coe_angle (t : ℝ) : ((wrapPhase numReal t : ℝ) : Real.Angle) = t := by
  obtain ⟨m, hm⟩ := even_evenq (t / Real.pi)
  refine Real.Angle.angle_eq_iff_two_pi_dvd_sub.2 ⟨-m, ?_⟩
  rw [wrapPhase_numReal, hm]
  push_cast
  ring

/-- The increment of an analysed bin is, modulo `2π`, the phase the bin moved since the frame before (R199). -/
theorem phaseIncrement_coe_angle {st : Stream ℝ} (hFPB : st.FPB ≠ 0) (hO : 0 < st.O) (k : ℕ) (ph last : ℝ) :
    ((phaseIncrement numReal st k (trueFrequency numReal st k ph last) : ℝ) : Real.Angle) = ph - last := by
  rw [phaseIncrement_trueFrequency hFPB hO, Real.Angle.coe_add, wrapPhase_coe_angle, Real.Angle.coe_sub, Real.Angle.coe_sub,
    sub_add_cancel]

theorem magnitude_numReal (x : ℝ × ℝ) : magnitude numReal x = 2 * ‖complexOf x‖ := by
  simp [magnitude, complexOf, Complex.norm_def, Complex.normSq_apply]

theorem phase_numReal (x : ℝ × ℝ) : phase numReal x = (complexOf x).arg := rfl

/-- The doubled magnitude at the phase of a pair, or at one that agrees with it, gives the pair doubled. -/
theorem polar_of_angle_eq {x : ℝ × ℝ} {θ : ℝ} (h : (θ : Real.Angle) = (phase numReal x : ℝ)) :
    polar numReal (magnitude numReal x) θ = (2 * x.1, 2 * x.2) := by
  have hcos : Real.cos θ = Real.cos (complexOf x).arg := by rw [← Real.Angle.cos_coe, h, Real.Angle.cos_coe, phase_numReal]
  have hsin : Real.sin θ = Real.sin (complexOf x).arg := by rw [← Real.Angle.sin_coe, h, Real.Angle.sin_coe, phase_numReal]
  simp only [polar, magnitude_numReal, numReal_mul, numReal_cos, numReal_sin, hcos, hsin, mul_assoc,
    Complex.norm_mul_cos_arg, Complex.norm_mul_sin_arg]
  rfl

/-- The synthesis phase of a bin is its analysis phase modulo `2π` (R199). -/
def PhasesAgree (st : Stream ℝ) (k : ℕ) : Prop :=
  ((memRead numReal st.sumPhase k : ℝ) : Real.Angle) = (memRead numReal st.lastPhase k : ℝ)

theorem phasesAgree_iff (st : Stream ℝ) (k : ℕ) :
    PhasesAgree st k ↔ ∃ z : ℤ, memRead numReal st.sumPhase k - memRead numReal st.lastPhase k = 2 * Real.pi * z :=
  Real.Angle.angle_eq_iff_two_pi_dvd_sub

/-! ## The bins after analysis and after remap -/

theorem analyzeStream_bin {α : Type} {N : NumOps α} {st st' : Stream α} (h : analyzeStream N st = .ok st') {k : ℕ} (hk : k ≤ st.H) :
    memRead N st'.anaMagn k = magnitude N (complexRead N st.spectrum k) ∧
      memRead N st'.anaFreq k =
        trueFrequency N st k (phase N (complexRead N st.spectrum k)) (memRead N st.lastPhase k) ∧
      memRead N st'.lastPhase k = phase N (complexRead N st.spectrum k) := by
  obtain ⟨-, rfl⟩ := (analyzeStream_eq_ok N).1 h
  exact ⟨memRead_map_range N _ (by omega), memRead_map_range N _ (by omega), memRead_map_range N _ (by omega)⟩

/-- With `P = 1` the remapper hands every bin on as it is (43_bin_remapper.md R186). -/
theorem remapStream_bin_of_unit_pitch {st st' : Stream ℝ} (h : remapStream numReal st = .ok st') (hg : Geometry st) (hP : st.P = 1)
    {k : ℕ} (hk : k ≤ st.H) :
    memRead numReal st'.synMagn k = memRead numReal st.anaMagn k ∧
      memRead numReal st'.synFreq k = memRead numReal st.anaFreq k := by
  obtain ⟨-, rfl⟩ := (remapStream_eq_ok numReal).1 h
  have hHF := hg.half_lt
  have hmax := hg.frame_max
  have hsource : sourcesBelow numReal 1 k (st.H + 1) = [k] := by
    simpa using sourcesBelow_one numRealWords_laws (t := k) (n := st.H + 1) (by omega) (by omega)
  obtain ⟨hM, hQ⟩ := getElem?_remapArrays numReal st.P st.anaMagn st.anaFreq hk hHF
  rw [hP, hsource] at hM hQ
  rw [hP, memRead_of_getElem? numReal hM, memRead_of_getElem? numReal hQ]
  simp [summedMagnitude, lastFrequency]

/-! ## What the stages leave of the phase arrays -/

theorem synthStream_lastPhase {α : Type} {N : NumOps α} {st st' : Stream α} (h : synthStream N st = .ok st') :
    st'.lastPhase = st.lastPhase := by
  obtain ⟨-, rfl⟩ := (synthStream_eq_ok N).1 h
  rfl

theorem remapStream_phases {α : Type} {N : NumOps α} {st st' : Stream α} (h : remapStream N st = .ok st') :
    st'.lastPhase = st.lastPhase ∧ st'.sumPhase = st.sumPhase := by
  obtain ⟨-, rfl⟩ := (remapStream_eq_ok N).1 h
  exact ⟨rfl, rfl⟩

theorem analyzeStream_sumPhase {α : Type} {N : NumOps α} {st st' : Stream α} (h : analyzeStream N st = .ok st') :
    st'.sumPhase = st.sumPhase := by
  obtain ⟨-, rfl⟩ := (analyzeStream_eq_ok N).1 h
  rfl

theorem Geometry.osamp_pos {α : Type} {st : Stream α} (h : Geometry st) : 0 < st.O :=
  Nat.pos_of_mul_pos_left (h.hop.symm ▸ Nat.zero_lt_of_lt h.half_lt)

/-! ## A frame with `P = 1` -/

section UnitPitch

variable {st st1 st2 st3 : Stream ℝ} (h1 : analyzeStream numReal st = .ok st1) (h2 : remapStream numReal st1 = .ok st2)
  (h3 : synthStream numReal st2 = .ok st3) (hg : Geometry st) (hFPB : st.FPB ≠ 0) (hP : st.P = 1) {k : ℕ} (hk : k ≤ st.H)

include h1 h2 hg hP hk

/-- Synthesis reads the analysed magnitude and the analysed frequency (R199). -/
theorem unitPitch_synthesis_input :
    memRead numReal st2.synMagn k = magnitude numReal (complexRead numReal st.spectrum k) ∧
      memRead numReal st2.synFreq k =
        trueFrequency numReal st k (phase numReal (complexRead numReal st.spectrum k)) (memRead numReal st.lastPhase k) := by
  obtain ⟨hmagn, hfreq, -⟩ := analyzeStream_bin h1 hk
  rw [← hmagn, ← hfreq]
  obtain ⟨-, rfl⟩ := (analyzeStream_eq_ok numReal).1 h1
  exact remapStream_bin_of_unit_pitch h2 { hg with } hP hk

include hFPB

/-- The new synthesis phase of a bin is its analysed phase modulo `2π`, if the two agreed before the frame (R199). -/
theorem unitPitch_newSumPhase (hphase : PhasesAgree st k) :
    ((newSumPhase numReal st2 k : ℝ) : Real.Angle) = (phase numReal (complexRead numReal st.spectrum k) : ℝ) := by
  have hlatched := (analyzeStream_writes _ _ h1).sameLatched.trans (remapStream_writes _ _ h2).sameLatched
  rw [PhasesAgree] at hphase
  obtain ⟨-, hfreq⟩ := unitPitch_synthesis_input h1 h2 hg hP hk
  rw [newSumPhase, hfreq, phaseIncrement_congr hlatched, (remapStream_phases h2).2, analyzeStream_sumPhase h1, numReal_add,
    Real.Angle.coe_add, phaseIncrement_coe_angle hFPB hg.osamp_pos, hphase, add_sub_cancel]

include h3

/-- After synthesis the phases of a bin agree again and its pair is doubled, if the phases agreed before the frame (R199). -/
theorem unitPitch_bin (hphase : PhasesAgree st k) :
    PhasesAgree st3 k ∧
      complexRead numReal st3.spectrum k =
        (2 * (complexRead numReal st.spectrum k).1, 2 * (complexRead numReal st.spectrum k).2) := by
  obtain ⟨-, -, -, -, hH, -⟩ := (analyzeStream_writes _ _ h1).sameLatched.trans (remapStream_writes _ _ h2).sameLatched
  have hnew := unitPitch_newSumPhase h1 h2 hg hFPB hP hk hphase
  obtain ⟨hmagn, -⟩ := unitPitch_synthesis_input h1 h2 hg hP hk
  obtain ⟨-, -, hlast⟩ := analyzeStream_bin h1 hk
  obtain ⟨hsum, hpair⟩ := synthStream_bin numReal h3 (hH ▸ hk)
  constructor
  · rw [PhasesAgree, hsum, hnew, synthStream_lastPhase h3, (remapStream_phases h2).1, hlast]
  · rw [hpair, hmagn, polar_of_angle_eq hnew]

end UnitPitch

end Sys2Proof.Machine

namespace Sys2Proof.Proofs

open Sys2Proof.Machine

/-- Settles O32: `EXPCT = 2π/O` and `FPB = SR/F` put into the increment. -/
theorem realPhaseIncrementIsOneHop : Obligations.RealPhaseIncrementIsOneHop := by
  intro st k f hF hSO hSR hFPB hexpct
  have hS : (st.S : ℝ) ≠ 0 := Nat.cast_ne_zero.2 (Nat.pos_of_mul_pos_right (hSO ▸ hF)).ne'
  have hO : (st.O : ℝ) ≠ 0 := Nat.cast_ne_zero.2 (Nat.pos_of_mul_pos_left (hSO ▸ hF)).ne'
  have hbin : st.FPB = st.SR / (st.S * st.O) := by
    rw [hFPB, numReal_div, numReal_num, Int.cast_natCast, ← hSO, Nat.cast_mul]
  have hFPB0 : st.FPB ≠ 0 := hbin ▸ div_ne_zero hSR.ne' (mul_ne_zero hS hO)
  have hinc : phaseIncrement numReal st k f = 2 * Real.pi * (f / st.FPB - k) / st.O + 2 * Real.pi * k / st.O := by
    rw [phaseIncrement_numReal hFPB0, hexpct, expectedAdvance_eq hF hSO]
    ring
  have hclosed : phaseIncrement numReal st k f = 2 * Real.pi * f / (st.O * st.FPB) := by
    rw [hinc]
    field_simp
    ring
  refine ⟨hinc, hclosed, ?_⟩
  rw [hclosed, hbin]
  field_simp

/-- Settles O33: modulo `2π` the increment is the advance of the analysed phase, so synthesis takes up the analysed phase. -/
theorem unitPitchKeepsPhaseIdentity : Obligations.UnitPitchKeepsPhaseIdentity := by
  intro st hr hFPB hP hphase
  obtain ⟨st1, h1, hr1, hanalysis, -⟩ := analyzeStream_running numReal hr
  obtain ⟨st2, h2, hr2, hsynthesis, -⟩ := remapStream_running numReal hr1 hanalysis
  obtain ⟨st3, h3, -⟩ := synthStream_running numReal hr2 hsynthesis
  refine ⟨st1, st2, st3, h1, h2, h3, fun k hk => ?_⟩
  obtain ⟨hafter, hpair⟩ := unitPitch_bin h1 h2 h3 hr.toGeometry hFPB hP hk ((phasesAgree_iff st k).2 (hphase k hk))
  exact ⟨(phasesAgree_iff st3 k).1 hafter, hpair⟩

end Sys2Proof.Proofs
end

section
/-!
What `U.OLA_ADD`, `U.DRAIN` and `U.ACC_SHIFT` write, element by element, in the arithmetic of the machine (spec/45_overlap_add.md
R211, R212, R213).
-/

namespace Sys2Proof.Machine

variable {α : Type} (N : NumOps α)

/-- A loop that makes element `k` of itself in round `k` has done so for the elements below `n` and for no other. -/
theorem getElem?_loop_update (f : Nat → α → α) (n : Nat) (A : List α) (j : Nat) :
    (loop n (fun k B => memWrite B k (f k (memRead N B k))) A)[j]? = if j < n then A[j]?.map (f j) else A[j]? := by
  induction n with
  | zero => rfl
  | succ n ih =>
    rw [loop_succ, memWrite]
    by_cases hround : n = j
    · subst hround
      rw [if_neg (Nat.lt_irrefl n)] at ih
      rw [List.getElem?_set_self', if_pos (Nat.lt_succ_self n), ih]
      cases hA : A[n]? with
      | none => rfl
      | some a => rw [memRead_of_getElem? N (ih.trans hA)]; rfl
    · rw [List.getElem?_set_ne hround, ih]
      exact if_congr (by omega) rfl rfl

variable {N} {st st' : Stream α}

theorem olaAddStream_added (h : olaAddStream N st = .ok st') {k : Nat} (hk : k < st.F) :
    st'.outputAccumulator[k]? =
      st.outputAccumulator[k]?.map fun a => N.add a (olaIncrement N st.F st.H st.O st.spectrum k) := by
  obtain ⟨-, rfl⟩ := (olaAddStream_eq_ok N).1 h
  exact (getElem?_loop_update N (fun k a => N.add a (olaIncrement N st.F st.H st.O st.spectrum k)) _ _ _).trans (if_pos hk)

theorem olaAddStream_kept (h : olaAddStream N st = .ok st') {k : Nat} (hk : st.F ≤ k) :
    st'.outputAccumulator[k]? = st.outputAccumulator[k]? := by
  obtain ⟨-, rfl⟩ := (olaAddStream_eq_ok N).1 h
  exact getElem?_loop_memWrite _ _ _ hk

theorem olaAddStream_length (h : olaAddStream N st = .ok st') : st'.outputAccumulator.length = 2 * st.F := by
  obtain ⟨⟨hlen, -⟩, rfl⟩ := (olaAddStream_eq_ok N).1 h
  exact (loop_length _ fun _ _ => memWrite_length _ _ _).trans hlen

theorem drainStream_copied (h : drainStream N st = .ok st') {k : Nat} (hk : k < st.S) :
    st'.outputFIFO[k]? = st.outputAccumulator[k]? := by
  obtain ⟨⟨hacc, hfifo, hS⟩, rfl⟩ := (drainStream_eq_ok N).1 h
  refine (getElem?_loop_update N (fun k _ => memRead N st.outputAccumulator k) _ _ _).trans ?_
  rw [if_pos hk, List.getElem?_eq_getElem (by omega), Option.map_some, getElem?_eq_memRead N _ (by omega)]

theorem drainStream_kept (h : drainStream N st = .ok st') {k : Nat} (hk : st.S ≤ k) :
    st'.outputFIFO[k]? = st.outputFIFO[k]? := by
  obtain ⟨-, rfl⟩ := (drainStream_eq_ok N).1 h
  exact getElem?_loop_memWrite _ _ _ hk

theorem drainStream_length (h : drainStream N st = .ok st') : st'.outputFIFO.length = st.F := by
  obtain ⟨⟨-, hlen, -⟩, rfl⟩ := (drainStream_eq_ok N).1 h
  exact (loop_length _ fun _ _ => memWrite_length _ _ _).trans hlen

theorem accShiftStream_length (h : accShiftStream N st = .ok st') : st'.outputAccumulator.length = 2 * st.F := by
  obtain ⟨⟨hlen, -⟩, rfl⟩ := (accShiftStream_eq_ok N).1 h
  exact (accShiftArray_length N _ _ _).trans hlen

theorem accShiftStream_moved (h : accShiftStream N st = .ok st') {k : Nat} (hk : k + st.S < 2 * st.F) :
    st'.outputAccumulator[k]? = st.outputAccumulator[k + st.S]? := by
  have hlen' := accShiftStream_length h
  obtain ⟨⟨hlen, hS⟩, rfl⟩ := (accShiftStream_eq_ok N).1 h
  rw [getElem?_eq_memRead N _ (by omega), memRead_accShiftArray N hlen hS (by omega), if_pos hk,
    getElem?_eq_memRead N _ (by omega)]

theorem accShiftStream_filled (h : accShiftStream N st = .ok st') {k : Nat} (hlow : 2 * st.F ≤ k + st.S) (hk : k < 2 * st.F) :
    st'.outputAccumulator[k]? = some N.zero := by
  have hlen' := accShiftStream_length h
  obtain ⟨⟨hlen, hS⟩, rfl⟩ := (accShiftStream_eq_ok N).1 h
  rw [getElem?_eq_memRead N _ (by omega), memRead_accShiftArray N hlen hS hk, if_neg (by omega)]

end Sys2Proof.Machine

namespace Sys2Proof.Proofs

open Sys2Proof.Machine

/-- Settles O18: the loop adds to the elements below `F`, each in its own round. -/
theorem olaAddAccumulates : Obligations.OlaAddAccumulates := by
  intro s hacc hspectrum
  have hok := (olaAddStream_eq_ok Config.NUM.toNumOps).2 ⟨⟨hacc, hspectrum⟩, rfl⟩
  refine ⟨_, onStream_of_ok hok, olaAddStream_length hok, fun k a re hk ha hre => ?added, fun k => olaAddStream_kept hok⟩
  case added =>
    have hadded := olaAddStream_added hok hk
    rwa [ha, Option.map_some, olaIncrement, memRead_of_getElem? _ hre] at hadded

/-- Settles O19: the loop copies the elements below `S`, which both arrays have. -/
theorem drainCopiesFinishedSamples : Obligations.DrainCopiesFinishedSamples := by
  intro s hacc hfifo hS
  have hok := (drainStream_eq_ok Config.NUM.toNumOps).2 ⟨⟨hacc, hfifo, hS⟩, rfl⟩
  exact ⟨_, onStream_of_ok hok, drainStream_length hok, fun k => drainStream_copied hok, fun k => drainStream_kept hok⟩

/-- Settles O20: one block move of the whole array, then the fill of its top. -/
theorem accShiftMovesAndFills : Obligations.AccShiftMovesAndFills := by
  intro s hacc hS
  have hok := (accShiftStream_eq_ok Config.NUM.toNumOps).2 ⟨⟨hacc, hS⟩, rfl⟩
  exact ⟨_, onStream_of_ok hok, accShiftStream_length hok, fun k => accShiftStream_moved hok,
    fun k => accShiftStream_filled hok⟩

end Sys2Proof.Proofs
end

section
/-!
The inverse transform of a doubled half spectrum (spec/45_overlap_add.md R217): the real part is the signal, with bin 0 and bin `H`
counted once more than the signal has them.
-/

namespace Sys2Proof.Machine

open Finset ComplexConjugate

/-- From index `M − k` the transform reads its powers backwards, as that of the inverse root does from `k`. -/
theorem dft_sub_eq_inv {w : ℂ} {M : ℕ} (hw : w ^ M = 1) (hw0 : w ≠ 0) (x : ℕ → ℂ) {k : ℕ} (hk : k ≤ M) :
    dft w M x (M - k) = dft w⁻¹ M x k :=
  sum_congr rfl fun q _ => by
    rw [mul_comm q (M - k), pow_mul, pow_sub₀ w hw0 hk, hw, one_mul, ← inv_pow, ← pow_mul, mul_comm k q]

/-- The conjugate of the transform of real numbers is that of the conjugate root. -/
theorem conj_dft_ofReal (w : ℂ) (M : ℕ) (x : ℕ → ℝ) (k : ℕ) :
    conj (dft w M (fun q => (x q : ℂ)) k) = dft (conj w) M (fun q => (x q : ℂ)) k := by
  simp [dft]

theorem conj_eq_inv_of_root {w : ℂ} {M : ℕ} (hM : M ≠ 0) (hw : w ^ M = 1) : conj w = w⁻¹ :=
  (Complex.inv_eq_conj (Complex.norm_eq_one_of_pow_eq_one hw hM)).symm

/-- The term of bin `k` in the inverse transform, at position `p`, of the transform of real numbers. -/
noncomputable def binTerm (w : ℂ) (M : ℕ) (x : ℕ → ℝ) (p k : ℕ) : ℂ := dft w M (fun q => (x q : ℂ)) k * w⁻¹ ^ (k * p)

/-- Bins `k` and `M − k` of real numbers have conjugate terms. -/
theorem binTerm_sub {w : ℂ} {M : ℕ} (hM : M ≠ 0) (hw : w ^ M = 1) (x : ℕ → ℝ) (p : ℕ) {k : ℕ} (hk : k ≤ M) :
    binTerm w M x p (M - k) = conj (binTerm w M x p k) := by
  have hw0 : w ≠ 0 := (IsUnit.of_pow_eq_one hw hM).ne_zero
  have hconj := conj_eq_inv_of_root hM hw
  have hinv : w⁻¹ ^ M = 1 := by rw [inv_pow, hw, inv_one]
  rw [binTerm, binTerm, dft_sub_eq_inv hw hw0 _ hk, map_mul, conj_dft_ofReal, map_pow, map_inv₀, hconj, pow_mul, pow_mul,
    pow_sub₀ _ (inv_ne_zero hw0) hk, hinv, one_mul, inv_pow w⁻¹]

/-- The terms of all bins sum to the signal. -/
theorem sum_binTerm {w : ℂ} {M : ℕ} (hw : IsPrimitiveRoot w M) (x : ℕ → ℝ) {p : ℕ} (hp : p < M) :
    ∑ k ∈ range M, binTerm w M x p k = (M * x p : ℝ) :=
  (dft_inv_dft hw _ hp).trans (by push_cast; rfl)

theorem binTerm_zero (w : ℂ) (M : ℕ) (x : ℕ → ℝ) (p : ℕ) : binTerm w M x p 0 = (∑ q ∈ range M, x q : ℝ) := by
  simp [binTerm, dft]

theorem binTerm_half {w : ℂ} {H : ℕ} (hw : w ^ H = -1) (M : ℕ) (x : ℕ → ℝ) (p : ℕ) :
    binTerm w M x p H = ((-1) ^ p * ∑ q ∈ range M, (-1) ^ q * x q : ℝ) := by
  have hinv : w⁻¹ ^ H = -1 := by rw [inv_pow, hw, inv_neg_one]
  rw [binTerm, dft, pow_mul, hinv, mul_comm]
  push_cast
  exact congrArg _ (sum_congr rfl fun q _ => by rw [mul_comm q H, pow_mul, hw, mul_comm])

/-- Twice the first half of a sequence that reads the same from both ends is the whole of it and its two middle terms. -/
theorem two_mul_sum_half {H : ℕ} {r : ℕ → ℝ} (h : ∀ k ≤ H, r (2 * H - k) = r k) :
    2 * ∑ k ∈ range (H + 1), r k = ∑ k ∈ range (2 * H), r k + r 0 + r H := by
  have hsplit : ∑ k ∈ range (2 * H + 1), r k = ∑ k ∈ range H, r k + ∑ k ∈ range (H + 1), r (H + k) := by
    rw [← sum_range_add, show H + (H + 1) = 2 * H + 1 by omega]
  have hmirror : ∑ k ∈ range (H + 1), r (H + k) = ∑ k ∈ range (H + 1), r k := by
    rw [← sum_range_reflect]
    refine sum_congr rfl fun k hk => ?_
    have hkH := mem_range.1 hk
    rw [← h k (by omega)]
    congr 1
    omega
  have hends : r (2 * H) = r 0 := h 0 (Nat.zero_le H)
  rw [sum_range_succ, hends, hmirror, sum_range_succ] at hsplit
  rw [sum_range_succ]
  linarith

/-- The spectrum that `U.SYNTH` and `U.ZERONEG` leave for `P = 1`: bins `0 … H` doubled, the others zero (44 R196, R199). -/
noncomputable def doubledHalf (H : ℕ) (X : ℕ → ℂ) (k : ℕ) : ℂ := if k ≤ H then 2 * X k else 0

/-- The inverse transform of the doubled half sees the terms of bins `0 … H` only, twice. -/
theorem dft_doubledHalf {H : ℕ} (hH : 0 < H) (v : ℂ) (X : ℕ → ℂ) (p : ℕ) :
    dft v (2 * H) (doubledHalf H X) p = 2 * ∑ k ∈ range (H + 1), X k * v ^ (k * p) := by
  rw [dft, ← sum_subset (range_subset_range.2 (by omega : H + 1 ≤ 2 * H)) fun k _ hk => ?above, mul_sum]
  case above => rw [doubledHalf, if_neg (by simpa using hk), zero_mul]
  exact sum_congr rfl fun k hk => by rw [doubledHalf, if_pos (Nat.lt_succ_iff.1 (mem_range.1 hk)), mul_assoc]

/-- The closed form of R217 for the real parts that the overlap-add reads. -/
theorem re_dft_doubledHalf {w : ℂ} {H : ℕ} (hH : 0 < H) (hw : IsPrimitiveRoot w (2 * H)) (x : ℕ → ℝ) {p : ℕ} (hp : p < 2 * H) :
    (dft w⁻¹ (2 * H) (doubledHalf H (dft w (2 * H) fun q => (x q : ℂ))) p).re =
      (2 * H : ℕ) * x p + ∑ q ∈ range (2 * H), x q + (-1) ^ p * ∑ q ∈ range (2 * H), (-1) ^ q * x q := by
  have hmid : w ^ H = -1 := (hw.pow (by omega) (Nat.mul_comm 2 H)).eq_neg_one_of_two_right
  have hmirror : ∀ k ≤ H, (binTerm w (2 * H) x p (2 * H - k)).re = (binTerm w (2 * H) x p k).re := fun k hk => by
    rw [binTerm_sub (by omega) hw.pow_eq_one x p (by omega), Complex.conj_re]
  calc (dft w⁻¹ (2 * H) (doubledHalf H (dft w (2 * H) fun q => (x q : ℂ))) p).re
      = 2 * ∑ k ∈ range (H + 1), (binTerm w (2 * H) x p k).re := by
        rw [dft_doubledHalf hH, ← Complex.re_sum, ← Complex.re_ofReal_mul, Complex.ofReal_ofNat]
        rfl
    _ = (∑ k ∈ range (2 * H), binTerm w (2 * H) x p k).re + (binTerm w (2 * H) x p 0).re + (binTerm w (2 * H) x p H).re := by
        rw [two_mul_sum_half hmirror, Complex.re_sum]
    _ = _ := by
        rw [sum_binTerm hw x hp, binTerm_zero, binTerm_half hmid, Complex.ofReal_re, Complex.ofReal_re, Complex.ofReal_re]

end Sys2Proof.Machine
end

section
/-!
A whole frame with `P = 1` over the real numbers (spec/45_overlap_add.md R217): the transforms around the doubled half spectrum, then
the overlap-add of its real parts.
-/

namespace Sys2Proof.Machine

open Finset Sys2Proof.Proofs

/-! ## One stage -/

theorem SameLatched.geometry {α : Type} {st st' : Stream α} (h : SameLatched st st') (hg : Geometry st) : Geometry st' := by
  obtain ⟨hF, hO, hS, hL, hH, hn, -⟩ := h
  exact
    { frame_pow := by rw [hF, hn, hg.frame_pow]
      frame_min := hF ▸ hg.frame_min
      frame_max := hF ▸ hg.frame_max
      hop := by rw [hS, hO, hF, hg.hop]
      latency := by rw [hL, hS, hF, hg.latency]
      half := by rw [hH, hF, hg.half] }

theorem memRead_congr {α : Type} (N : NumOps α) {A B : List α} {i j : ℕ} (h : A[i]? = B[j]?) : memRead N A i = memRead N B j := by
  rw [memRead, memRead, List.getD_eq_getElem?_getD, List.getD_eq_getElem?_getD, h]

theorem zeroNegStream_bin {α : Type} {N : NumOps α} {st st' : Stream α} (h : zeroNegStream N st = .ok st') {k : ℕ} (hk : k < st.F) :
    complexRead N st'.spectrum k = if k ≤ st.H then complexRead N st.spectrum k else (N.zero, N.zero) := by
  obtain ⟨hlen, rfl⟩ := (zeroNegStream_eq_ok N).1 h
  split
  next hkept =>
    exact Prod.ext (memRead_congr N (getElem?_zeroNegArray_kept _ _ (by omega)))
      (memRead_congr N (getElem?_zeroNegArray_kept _ _ (by omega)))
  next habove => exact complexRead_zeroNegArray N hlen (by omega) hk

/-- The windowed sample at `q` (42_stft_analysis.md R162). -/
noncomputable def windowedSample (st : Stream ℝ) (q : ℕ) : ℝ := hann numReal st.F q * memRead numReal st.inputFIFO q

theorem complexOf_windowStream {st st' : Stream ℝ} (h : windowStream numReal st = .ok st') {k : ℕ} (hk : k < st.F) :
    complexOf (complexRead numReal st'.spectrum k) = (windowedSample st k : ℂ) := by
  obtain ⟨hlen, rfl⟩ := (windowStream_eq_ok numReal).1 h
  obtain ⟨hre, him⟩ := getElem?_windowArray numReal hk (getElem?_eq_memRead numReal st.inputFIFO (hlen ▸ hk))
  rw [complexRead_of_getElem? numReal hre him, numReal_mul, mul_comm, numReal_zero]
  rfl

theorem complexOf_fftStream {dir : Dir} {st st' : Stream ℝ} (h : fftStream numReal dir st = .ok st') (hg : Geometry st) {m : ℕ}
    (hm : m < st.F) :
    complexOf (complexRead numReal st'.spectrum m) =
      dft (unitRoot dir st.F) st.F (fun k => complexOf (complexRead numReal st.spectrum k)) m := by
  obtain ⟨⟨hlen, -⟩, rfl⟩ := (fftStream_eq_ok numReal).1 h
  rw [hg.frame_pow] at hlen hm ⊢
  exact complexOf_fftArray dir hlen hm

theorem complexOf_double (z : ℝ × ℝ) : complexOf (2 * z.1, 2 * z.2) = 2 * complexOf z := by
  apply Complex.ext <;> simp [complexOf]

/-- What one frame adds, with the scale in front (R211). -/
theorem olaIncrement_numReal (F H O : ℕ) (X : List ℝ) (k : ℕ) :
    olaIncrement numReal F H O X k = 2 * hann numReal F k / ((H * O : ℕ) : ℝ) * (complexRead numReal X k).1 := by
  rw [olaIncrement, numReal_div, numReal_mul, numReal_mul, numReal_two, numReal_num, Int.cast_natCast, mul_div_right_comm]
  rfl

theorem memRead_olaAddStream {α : Type} {N : NumOps α} {st st' : Stream α} (h : olaAddStream N st = .ok st') {k : ℕ} (hk : k < st.F) :
    memRead N st'.outputAccumulator k =
      N.add (memRead N st.outputAccumulator k) (olaIncrement N st.F st.H st.O st.spectrum k) := by
  obtain ⟨⟨hlen, -⟩, -⟩ := (olaAddStream_eq_ok N).1 h
  have hadded := olaAddStream_added h hk
  rw [getElem?_eq_memRead N st.outputAccumulator (by omega)] at hadded
  exact memRead_of_getElem? N hadded

/-! ## What the stages before the overlap-add leave of the accumulator -/

section KeepsAccumulator

variable {α : Type} {N : NumOps α}

/-- An operation that, whenever it succeeds, has left the accumulator alone. -/
def KeepsAccumulator (f : Stream α → Except Fault (Stream α)) : Prop :=
  ∀ st st', f st = .ok st' → st'.outputAccumulator = st.outputAccumulator

theorem windowStream_keepsAccumulator : KeepsAccumulator (windowStream N) := fun _ _ h => by
  obtain ⟨-, rfl⟩ := (windowStream_eq_ok N).1 h; rfl

theorem fftStream_keepsAccumulator (dir : Dir) : KeepsAccumulator (fftStream N dir) := fun _ _ h => by
  obtain ⟨-, rfl⟩ := (fftStream_eq_ok N).1 h; rfl

theorem analyzeStream_keepsAccumulator : KeepsAccumulator (analyzeStream N) := fun _ _ h => by
  obtain ⟨-, rfl⟩ := (analyzeStream_eq_ok N).1 h; rfl

theorem remapStream_keepsAccumulator : KeepsAccumulator (remapStream N) := fun _ _ h => by
  obtain ⟨-, rfl⟩ := (remapStream_eq_ok N).1 h; rfl

theorem synthStream_keepsAccumulator : KeepsAccumulator (synthStream N) := fun _ _ h => by
  obtain ⟨-, rfl⟩ := (synthStream_eq_ok N).1 h; rfl

theorem zeroNegStream_keepsAccumulator : KeepsAccumulator (zeroNegStream N) := fun _ _ h => by
  obtain ⟨-, rfl⟩ := (zeroNegStream_eq_ok N).1 h; rfl

end KeepsAccumulator

/-! ## From `U.WINDOW` to `U.FFT.INV` -/

section Transforms

variable {st a b c d e f g : Stream ℝ} (ha : windowStream numReal st = .ok a) (hb : fftStream numReal .fwd a = .ok b)
  (hc : analyzeStream numReal b = .ok c) (hd : remapStream numReal c = .ok d) (he : synthStream numReal d = .ok e)
  (hf : zeroNegStream numReal e = .ok f) (hinv : fftStream numReal .inv f = .ok g)

section Keeps

include ha hb hc hd he

theorem sameLatched_of_synthesis : SameLatched st e :=
  (windowStream_writes _ _ ha).sameLatched.trans <| (fftStream_writes _ _ _ hb).sameLatched.trans <|
    (analyzeStream_writes _ _ hc).sameLatched.trans <| (remapStream_writes _ _ hd).sameLatched.trans
      (synthStream_writes _ _ he).sameLatched

include hf hinv

theorem sameLatched_of_transforms : SameLatched st g :=
  (sameLatched_of_synthesis ha hb hc hd he).trans <| (zeroNegStream_writes _ _ hf).sameLatched.trans
    (fftStream_writes _ _ _ hinv).sameLatched

/-- The stages before the overlap-add leave the accumulator alone. -/
theorem outputAccumulator_of_transforms : g.outputAccumulator = st.outputAccumulator :=
  calc g.outputAccumulator
      = f.outputAccumulator := fftStream_keepsAccumulator _ _ _ hinv
    _ = e.outputAccumulator := zeroNegStream_keepsAccumulator _ _ hf
    _ = d.outputAccumulator := synthStream_keepsAccumulator _ _ he
    _ = c.outputAccumulator := remapStream_keepsAccumulator _ _ hd
    _ = b.outputAccumulator := analyzeStream_keepsAccumulator _ _ hc
    _ = a.outputAccumulator := fftStream_keepsAccumulator _ _ _ hb
    _ = st.outputAccumulator := windowStream_keepsAccumulator _ _ ha

end Keeps

variable (hg : Geometry st) (hFPB : st.FPB ≠ 0) (hP : st.P = 1) (hphase : ∀ k ≤ st.H, PhasesAgree st k)

include ha hb hg

/-- The forward transform is that of the windowed samples (41_radix2_fft_ifft.md R148). -/
theorem complexOf_windowed_transform {m : ℕ} (hm : m < st.F) :
    complexOf (complexRead numReal b.spectrum m) =
      dft (unitRoot .fwd st.F) st.F (fun q => (windowedSample st q : ℂ)) m := by
  have hlatched := (windowStream_writes _ _ ha).sameLatched
  have hF : a.F = st.F := hlatched.1
  rw [complexOf_fftStream hb (hlatched.geometry hg) (by omega), hF]
  exact dft_congr (fun k hk => complexOf_windowStream ha hk) m

include hc hd he hFPB hP hphase

/-- Analysis and synthesis double the bins `0 … H` and keep their phases (44_phase_synthesis.md R199). -/
theorem unitPitch_synthesized {k : ℕ} (hk : k ≤ st.H) :
    PhasesAgree e k ∧
      complexOf (complexRead numReal e.spectrum k) =
        2 * dft (unitRoot .fwd st.F) st.F (fun q => (windowedSample st q : ℂ)) k := by
  rw [← complexOf_windowed_transform ha hb hg (lt_of_le_of_lt hk hg.half_lt), ← complexOf_double]
  obtain ⟨-, rfl⟩ := (windowStream_eq_ok _).1 ha
  obtain ⟨-, rfl⟩ := (fftStream_eq_ok _).1 hb
  obtain ⟨hagree, hpair⟩ := unitPitch_bin hc hd he { hg with } hFPB hP hk (hphase k hk)
  exact ⟨hagree, congrArg complexOf hpair⟩

include hf

theorem unitPitch_halfSpectrum {k : ℕ} (hk : k < st.F) :
    complexOf (complexRead numReal f.spectrum k) =
      doubledHalf st.H (dft (unitRoot .fwd st.F) st.F fun q => (windowedSample st q : ℂ)) k := by
  obtain ⟨hF, -, -, -, hH, -⟩ := sameLatched_of_synthesis ha hb hc hd he
  rw [zeroNegStream_bin hf (by omega), hH, doubledHalf]
  split
  next hkept => exact (unitPitch_synthesized ha hb hc hd he hg hFPB hP hphase hkept).2
  next => simp [complexOf, Complex.ext_iff]

include hinv

/-- The real parts that the overlap-add reads (R217). -/
theorem unitPitch_resynthesized {p : ℕ} (hp : p < st.F) :
    (complexRead numReal g.spectrum p).1 =
      st.F * windowedSample st p + ∑ q ∈ range st.F, windowedSample st q +
        (-1) ^ p * ∑ q ∈ range st.F, (-1) ^ q * windowedSample st q := by
  have hlatched := (sameLatched_of_synthesis ha hb hc hd he).trans (zeroNegStream_writes _ _ hf).sameLatched
  have hF : f.F = st.F := hlatched.1
  have hH : 0 < st.H := by
    have := hg.half
    have := hg.half_lt
    omega
  have hread := complexOf_fftStream hinv (hlatched.geometry hg) (m := p) (by omega)
  rw [hF, dft_congr fun k hk => unitPitch_halfSpectrum ha hb hc hd he hf hg hFPB hP hphase hk,
    ← inv_inv (unitRoot .inv st.F), ← unitRoot_fwd] at hread
  have hroot := unitRoot_primitive .fwd (M := st.F) (by omega)
  have hclosed := congrArg Complex.re hread
  rw [← hg.half] at hroot hclosed hp ⊢
  exact hclosed.trans (re_dft_doubledHalf hH hroot _ hp)

end Transforms

/-! ## From `U.OLA_ADD` to `U.IN_SHIFT` -/

section OverlapAdd

variable {α : Type} {N : NumOps α} {g a b c st' : Stream α} (ha : olaAddStream N g = .ok a) (hb : drainStream N a = .ok b)
  (hc : accShiftStream N b = .ok c) (hd : inShiftStream N c = .ok st')

include ha hb hc hd

/-- The sums are drained below `S` and moved down by `S`. -/
theorem overlapAdd_outputs :
    (∀ k < g.S, st'.outputFIFO[k]? = a.outputAccumulator[k]?) ∧
      ∀ k, k + g.S < 2 * g.F → st'.outputAccumulator[k]? = a.outputAccumulator[k + g.S]? := by
  have hdrained := fun k => drainStream_copied hb (k := k)
  have hmoved := fun k => accShiftStream_moved hc (k := k)
  obtain ⟨-, rfl⟩ := (olaAddStream_eq_ok N).1 ha
  obtain ⟨-, rfl⟩ := (drainStream_eq_ok N).1 hb
  obtain ⟨-, rfl⟩ := (accShiftStream_eq_ok N).1 hc
  obtain ⟨-, rfl⟩ := (inShiftStream_eq_ok N).1 hd
  exact ⟨hdrained, hmoved⟩

theorem overlapAdd_phases : st'.sumPhase = g.sumPhase ∧ st'.lastPhase = g.lastPhase := by
  obtain ⟨-, rfl⟩ := (olaAddStream_eq_ok N).1 ha
  obtain ⟨-, rfl⟩ := (drainStream_eq_ok N).1 hb
  obtain ⟨-, rfl⟩ := (accShiftStream_eq_ok N).1 hc
  obtain ⟨-, rfl⟩ := (inShiftStream_eq_ok N).1 hd
  exact ⟨rfl, rfl⟩

end OverlapAdd

end Sys2Proof.Machine

namespace Sys2Proof.Proofs

open Sys2Proof.Machine

/-- Settles O34: the overlap-add reads the real parts of the inverse transform of the doubled half spectrum. -/
theorem unitPitchFrameClosedForm : Obligations.UnitPitchFrameClosedForm := by
  intro st hr hFPB hP hphase w u X0 XH acc
  have hg := hr.toGeometry
  have hagree : ∀ k ≤ st.H, PhasesAgree st k := fun k hk => (phasesAgree_iff st k).2 (hphase k hk)
  obtain ⟨st', hframe, -⟩ := frameStream_running numReal hr
  obtain ⟨a, b, c, d, e, f, g, h, i, j, ha, hb, hc, hd, he, hf, hinv, hola, hdrain, hshift, hin⟩ :=
    (frameStream_eq_ok numReal).1 hframe
  obtain ⟨hF, hO, hS, -, hH, -⟩ := sameLatched_of_transforms ha hb hc hd he hf hinv
  have hsum : ∀ p < st.F, memRead numReal h.outputAccumulator p = acc p := fun p hp => by
    rw [memRead_olaAddStream hola (by omega), outputAccumulator_of_transforms ha hb hc hd he hf hinv, hF, hO, hH,
      olaIncrement_numReal, unitPitch_resynthesized ha hb hc hd he hf hinv hg hFPB hP hagree hp, windowedSample, ← mul_assoc]
    rfl
  obtain ⟨hdrained, hmoved⟩ := overlapAdd_outputs hola hdrain hshift hin
  refine ⟨st', hframe, fun k hk => ?drained, fun k hk => ?moved, fun k hk => ?phases⟩
  case drained =>
    have := hg.hop_le
    rw [memRead_congr numReal (hdrained k (by omega)), hsum k (by omega)]
  case moved =>
    have hread := hmoved k (by omega)
    rw [hS] at hread
    rw [memRead_congr numReal hread, hsum _ hk]
  case phases =>
    obtain ⟨hsumPhase, hlastPhase⟩ := overlapAdd_phases hola hdrain hshift hin
    have hafter := (unitPitch_synthesized ha hb hc hd he hg hFPB hP hagree hk).1
    rw [hsumPhase, hlastPhase]
    obtain ⟨-, rfl⟩ := (zeroNegStream_eq_ok _).1 hf
    obtain ⟨-, rfl⟩ := (fftStream_eq_ok _).1 hinv
    exact (phasesAgree_iff e k).1 hafter

end Sys2Proof.Proofs
end

section
/-!
The commands that carry no sample: `NOP`, `RESET`, `WRCFG`, `RDCFG`, `CLRERR` and `START` (spec/46_host_commands.md R226 to R233).
-/

namespace Sys2Proof.Machine

open Sys2Proof.Proofs

/-! ## Answers without data words -/

/-- A command without data words is answered by its header alone (30_encoding.md R99). -/
theorem respond_nil {op : BitVec 8} {w : Word} (hw : responseHeader op 0x00 0 = w) (s : State) :
    respond op [] s = { s with rsp := s.rsp ++ [w] } := by
  rw [respond_spec, List.length_nil, hw]

/-! ## Register numbers -/

/-- The number of a register (10_state.md section 4). -/
def Reg.number : Reg → RegNum
  | .status => 0x0000
  | .frame => 0x0001
  | .osamp => 0x0002
  | .pitch => 0x0003
  | .rate => 0x0004
  | .maxframe => 0x0005
  | .step => 0x0006
  | .latency => 0x0007
  | .rover => 0x0008

@[simp] theorem regOf_number (r : Reg) : regOf r.number = some r := by cases r <;> rfl

theorem exists_number_toNat {k : Nat} (h : k ≤ 8) : ∃ r : Reg, r.number.toNat = k := by
  interval_cases k
  exacts [⟨.status, rfl⟩, ⟨.frame, rfl⟩, ⟨.osamp, rfl⟩, ⟨.pitch, rfl⟩, ⟨.rate, rfl⟩, ⟨.maxframe, rfl⟩, ⟨.step, rfl⟩,
    ⟨.latency, rfl⟩, ⟨.rover, rfl⟩]

/-- The numbers up to 8 are those of the nine registers (20_memory.md R67). -/
theorem exists_eq_number {reg : RegNum} (h : reg.toNat ≤ 8) : ∃ r : Reg, reg = r.number := by
  obtain ⟨r, hr⟩ := exists_number_toNat h
  exact ⟨r, BitVec.eq_of_toNat_eq hr.symm⟩

/-- The numbers above 8 name no register (20_memory.md R67). -/
theorem regOf_eq_none {reg : RegNum} (h : 8 < reg.toNat) : regOf reg = none := by
  unfold regOf
  split
  case h_10 => rfl
  all_goals omega

/-! ## `RDCFG` -/

theorem toNat_append_eq_add {m n : Nat} (x : BitVec m) (y : BitVec n) : (x ++ y).toNat = x.toNat * 2 ^ n + y.toNat := by
  rw [BitVec.toNat_append, ← Nat.shiftLeft_add_eq_or_of_lt y.isLt, Nat.shiftLeft_eq]

theorem flagBit_toNat (b : Bool) : (flagBit b).toNat = if b then 1 else 0 := by cases b <;> rfl

/-- The word of `STATUS` as a number (46_host_commands.md R230). -/
theorem statusWord_eq (s : State) :
    statusWord s = BitVec.ofNat 32
      (256 * s.errcode.toNat + (if s.err then 2 else 0) + (if s.mode = .run then 1 else 0)) := by
  have hcode := s.errcode.isLt
  apply BitVec.eq_of_toNat_eq
  simp only [statusWord, toNat_append_eq_add, flagBit_toNat, BitVec.ofNat_eq_ofNat, BitVec.toNat_ofNat, decide_eq_true_eq]
  split_ifs <;> omega

theorem execRdcfg_number (r : Reg) (s : State) :
    execRdcfg r.number s = .next { s with rsp := s.rsp ++ [0x03000001, regval s r] } := by
  have hheader : responseHeader 0x03 0x00 [regval s r].length = 0x03000001 := by rw [List.length_singleton]; decide
  simp only [execRdcfg, regOf_number, respond_spec, hheader]

theorem execRdcfg_of_no_register {reg : RegNum} (h : 8 < reg.toNat) (s : State) :
    execRdcfg reg s = .next (refused 0x03 0x02 s) := by
  simp only [execRdcfg, regOf_eq_none h, refuse_eq_refused, statusCode]

/-! ## `WRCFG` -/

/-- The four configuration registers, which a write reaches, have the numbers 1 to 4 (46_host_commands.md R228). -/
theorem writeReg_number_eq_none_iff (s : State) (v : Word) (r : Reg) :
    writeReg s v r = none ↔ r.number.toNat = 0 ∨ 5 ≤ r.number.toNat := by
  cases r with
  | frame | osamp | pitch | rate => exact iff_of_false (by simp [writeReg]) (by decide)
  | status | maxframe | step | latency | rover => exact iff_of_true rfl (by decide)

/-- A number names no configuration register exactly outside 1 to 4 (46_host_commands.md R228). -/
theorem writeReg_regOf_eq_none_iff (s : State) (v : Word) (reg : RegNum) :
    (regOf reg).bind (writeReg s v) = none ↔ reg.toNat = 0 ∨ 5 ≤ reg.toNat := by
  rcases Nat.lt_or_ge 8 reg.toNat with h | h
  · rw [regOf_eq_none h]
    exact iff_of_true rfl (by omega)
  · obtain ⟨r, rfl⟩ := exists_eq_number h
    rw [regOf_number]
    exact writeReg_number_eq_none_iff s v r

theorem execWrcfg_of_bad_register {reg : RegNum} (v : Word) {s : State} (h : reg.toNat = 0 ∨ 5 ≤ reg.toNat) :
    execWrcfg reg v s = .next (refused 0x02 0x02 s) := by
  simp only [execWrcfg, (writeReg_regOf_eq_none_iff s v reg).2 h, refuse_eq_refused, statusCode]

theorem execWrcfg_of_run {reg : RegNum} (v : Word) {s : State} (hm : s.mode = .run) (h1 : 1 ≤ reg.toNat)
    (h4 : reg.toNat ≤ 4) : execWrcfg reg v s = .next (refused 0x02 0x03 s) := by
  obtain ⟨s', hs'⟩ := Option.ne_none_iff_exists'.1 (mt (writeReg_regOf_eq_none_iff s v reg).1 (by omega))
  simp only [execWrcfg, hs', hm, refuse_eq_refused, statusCode]

theorem execWrcfg_of_config {r : Reg} {v : Word} {s s' : State} (hm : s.mode = .config) (h : writeReg s v r = some s') :
    execWrcfg r.number v s = .next { s' with rsp := s.rsp ++ [0x02000000] } := by
  simp only [execWrcfg, regOf_number, Option.bind_some, h, hm, respond_nil (op := 0x02) (w := 0x02000000) (by decide),
    writeReg_rsp h]

/-! ## `START` -/

/-- The bit test of R231 in the terms of the statements: a power of two is 2 to its own binary logarithm. -/
theorem frame_check_iff (w : Word) : (w = 0 ∨ w &&& (w - 1) ≠ 0) ↔ w.toNat ≠ 2 ^ Nat.log2 w.toNat := by
  have hlog : (∃ n, w.toNat = 2 ^ n) ↔ w.toNat = 2 ^ Nat.log2 w.toNat :=
    ⟨fun ⟨n, hn⟩ => by rw [hn, Nat.log2_two_pow], fun h => ⟨_, h⟩⟩
  rw [← not_iff_not, not_or, not_not, not_not, ← hlog, frame_power_of_two_iff]

/-- The six checks of a configuration, on numbers (R231). -/
theorem startRefusal_eq {α : Type} (N : NumOps α) (frame osamp : Word) (p sr : α) :
    startRefusal N frame osamp p sr =
      if frame.toNat ≠ 2 ^ Nat.log2 frame.toNat then some .cfgFrameNotPow2
      else if frame.toNat < 2 ∨ 4096 < frame.toNat then some .cfgFrameRange
      else if osamp.toNat < 1 ∨ frame.toNat < osamp.toNat then some .cfgOsampRange
      else if frame.toNat % osamp.toNat ≠ 0 then some .cfgOsampNdiv
      else if N.isFinite p = false ∨ N.lt p N.half = true ∨ N.lt N.two p = true then some .cfgPitchRange
      else if N.isFinite sr = false ∨ N.le sr N.zero = true then some .cfgRateRange
      else none := by
  simp only [startRefusal, frame_check_iff, Bool.not_eq_true, gt_iff_lt, Config.minFrame, Config.maxFrame]

theorem execStart_of_run {s : State} (hm : s.mode = .run) : execStart s = .next (refused 0x04 0x03 s) := by
  simp only [execStart, hm, refuse_eq_refused, statusCode]

theorem execStart_of_refusal {s : State} {c : Status} (hm : s.mode = .config)
    (h : startRefusal Config.NUM.toNumOps s.frame s.osamp (Config.NUM.decode s.pitch) (Config.NUM.decode s.rate) = some c) :
    execStart s = .next (refused 0x04 (statusCode c) s) := by
  simp only [execStart, hm, h, refuse_eq_refused]

/-- An accepted `START` changes the mode and the stream and answers `OK` (R231). -/
theorem execStart_of_accepted {s : State} (hm : s.mode = .config)
    (h : startRefusal Config.NUM.toNumOps s.frame s.osamp (Config.NUM.decode s.pitch) (Config.NUM.decode s.rate) = none) :
    execStart s = .next { s with
      mode := .run
      stream := startStream Config.NUM.toNumOps s.frame.toNat s.osamp.toNat (Config.NUM.decode s.pitch)
        (Config.NUM.decode s.rate) s.stream
      rsp := s.rsp ++ [0x04000000] } := by
  simp only [execStart, hm, h, respond_nil (op := 0x04) (w := 0x04000000) (by decide)]

end Sys2Proof.Machine

namespace Sys2Proof.Proofs

open Sys2Proof.Machine

/-- Settles O1: `NOP` is a response and nothing else. -/
theorem nopOnlyAnswersOk : Obligations.NopOnlyAnswersOk :=
  fun s => congrArg Host.Outcome.next (respond_nil (by decide) s)

/-- Settles O2: `RESET` is the transition of hardware reset and a response. -/
theorem resetCommandTakesResetState : Obligations.ResetCommandTakesResetState := by
  intro s
  have hexec : exec .reset s = .next { resetTransition s with rsp := s.rsp ++ [0x01000000] } :=
    congrArg Host.Outcome.next (respond_nil (by decide) (resetTransition s))
  exact ⟨_, hexec, rfl, rfl, rfl, rfl, rfl, rfl, rfl, rfl, rfl, rfl, rfl⟩

/-- Settles O4: a number outside 1 to 4 is refused before the mode is looked at. -/
theorem wrcfgStoresOrRefuses : Obligations.WrcfgStoresOrRefuses := by
  refine fun s v => ⟨fun hm => ⟨?frame, ?osamp, ?pitch, ?rate⟩, fun hm reg h1 h4 => execWrcfg_of_run v hm h1 h4,
    fun reg h => execWrcfg_of_bad_register v h⟩
  case frame => exact execWrcfg_of_config (r := .frame) hm rfl
  case osamp => exact execWrcfg_of_config (r := .osamp) hm rfl
  case pitch => exact execWrcfg_of_config (r := .pitch) hm rfl
  case rate => exact execWrcfg_of_config (r := .rate) hm rfl

/-- Settles O5: a number up to 8 is that of a register; the word of `STATUS` is a concatenation, that of `ROVER` an extension. -/
theorem rdcfgReadsOrRefuses : Obligations.RdcfgReadsOrRefuses := by
  refine fun s => ⟨fun reg h => ?reads, fun reg h => execRdcfg_of_no_register h s⟩
  case reads =>
    obtain ⟨r, rfl⟩ := exists_eq_number h
    refine (execRdcfg_number r s).trans ?_
    cases r with
    | status => rw [regval, statusWord_eq]; rfl
    | rover => rw [regval, runOnly, BitVec.ofNat_toNat]; rfl
    | frame | osamp | pitch | rate | maxframe | step | latency => rfl

/-- Settles O6: `CLRERR` clears the record and is answered. -/
theorem clrerrClearsErrorRecord : Obligations.ClrerrClearsErrorRecord :=
  fun s => congrArg Host.Outcome.next (respond_nil (by decide) (clearError s))

/-- Settles O7: the statement's conditions are the checks in their order, so each case of the one is a case of the other. -/
theorem startValidatesThenCreatesStream : Obligations.StartValidatesThenCreatesStream := by
  refine fun s => ⟨execStart_of_run, fun hm => ?config⟩
  case config =>
    intro f o p sr
    have hchecks := startRefusal_eq Config.NUM.toNumOps s.frame s.osamp (Config.NUM.decode s.pitch) (Config.NUM.decode s.rate)
    split_ifs at hchecks ⊢ with _ hlimits
    case neg =>
      have hf : f ≤ 4096 := by omega
      have hrover : (BitVec.ofNat Config.idxW (f - f / o)).toNat = f - f / o := rover_ofNat ((Nat.sub_le _ _).trans hf)
      exact ⟨_, execStart_of_accepted hm hchecks, rfl, rfl, rfl, rfl, rfl, rfl, rfl, rfl, rfl, rfl, hrover, rfl, rfl, rfl, rfl,
        rfl, rfl⟩
    all_goals exact execStart_of_refusal hm hchecks

end Sys2Proof.Proofs
end

section
/-!
When a step waits for words of the host and when it takes hardware reset (spec/70_reset_and_hazards.md R280, R282, R297).
-/

namespace Sys2Proof.Machine

/-- Only a legal word announces operand words, so a command that lacks some is one not sent whole (30_encoding.md R94). -/
theorem decodeCommand_of_lt_nops {w : Word} {ws : List Word} (h : ws.length < nops w) :
    decodeCommand (w :: ws) = .incomplete := by
  cases hw : decodeHeader w with
  | none => simp [nops, hw] at h
  | some hd => exact decodeCommand_of_short hw (nops_of_decodeHeader hw ▸ h)

/-- The next assertion of `rst` is behind the words sent before it. -/
theorem afterReset_words_append (ws : List Word) (rest : List HostInput) :
    afterReset (ws.map HostInput.word ++ rest) = afterReset rest := by
  induction ws with
  | nil => rfl
  | cons w ws ih => exact ih

theorem leadingWords_words (ws : List Word) : leadingWords (ws.map HostInput.word) = ws := by
  simpa [leadingWords] using leadingWords_words_append ws []

theorem afterReset_words (ws : List Word) : afterReset (ws.map HostInput.word) = none := by
  simpa [afterReset] using afterReset_words_append ws []

/-- Words that are no whole command, and no `rst` behind them: the block idles or waits, and stays as it is (R297). -/
theorem step_of_unfinished {s : State} {ws : List Word} (hu : s.uop = 0x0) (hcmd : s.cmd = ws.map HostInput.word)
    (hdec : decodeCommand ws = .incomplete) : step s = .next s := by
  have hfetch : fetchCommand s = if s.cmd = [] then .instr .uIdle s else .waiting := by
    have hwords : leadingWords s.cmd = ws := hcmd ▸ leadingWords_words ws
    have hrst : afterReset s.cmd = none := hcmd ▸ afterReset_words ws
    simp only [fetchCommand, hwords, hdec, hrst]
  rw [step, fetch_of_idle hu, hfetch]
  by_cases hempty : s.cmd = []
  · rw [if_pos hempty]; rfl
  · rw [if_neg hempty]

/-- Words that are no whole command are discarded by the `rst` behind them (R280, R282). -/
theorem step_of_reset {s : State} {ws : List Word} {rest : List HostInput} (hu : s.uop = 0x0)
    (hcmd : s.cmd = ws.map HostInput.word ++ .rst :: rest) (hdec : decodeCommand ws = .incomplete) :
    step s = .next (resetTransition { s with cmd := rest }) := by
  have hfetch : fetchCommand s = .hardwareReset { s with cmd := rest } := by
    simp only [fetchCommand, hcmd, leadingWords_words_append, afterReset_words_append, leadingWords, afterReset,
      List.append_nil, hdec]
  rw [step, fetch_of_idle hu, hfetch]

end Sys2Proof.Machine

namespace Sys2Proof.Proofs

open Sys2Proof.Machine

/-- Settles O46: no word and too few words are both a command not sent whole. -/
theorem stepWaitsForWords : Obligations.StepWaitsForWords :=
  ⟨fun _ hu hcmd => step_of_unfinished (ws := []) hu hcmd rfl,
    fun _ _ _ hu hcmd hlen => step_of_unfinished hu hcmd (decodeCommand_of_lt_nops hlen)⟩

/-- Settles O47: an `rst` between commands cuts the command of no words. -/
theorem stepTakesHardwareReset : Obligations.StepTakesHardwareReset :=
  ⟨fun _ _ hu hcmd => step_of_reset (ws := []) hu hcmd rfl,
    fun _ _ _ _ hu hlen hcmd => step_of_reset hu hcmd (decodeCommand_of_lt_nops hlen)⟩

end Sys2Proof.Proofs
end

section
/-!
The error record holds the first refusal since it was last cleared: every command is answered `OK` or refused, and only a refusal
writes the record (spec/60_exceptions.md R256).
-/

namespace Sys2Proof.Machine

/-- The response words and the error record are as before. -/
structure SameAnswers (s t : State) : Prop where
  rsp : t.rsp = s.rsp
  err : t.err = s.err
  errcode : t.errcode = s.errcode

theorem SameAnswers.refl (s : State) : SameAnswers s s := ⟨rfl, rfl, rfl⟩

theorem SameAnswers.with_stream (s : State) (st : Stream Num) : SameAnswers s { s with stream := st } := ⟨rfl, rfl, rfl⟩

/-- How a command that does not clear the record ends: with the response `OK`, after a change that neither answers nor records
an error, or with a refusal in the state it began in (60_exceptions.md R250). -/
inductive AnsweredOrRefused (s : State) : State → Prop where
  /-- The command executed. -/
  | answered {u : State} (op : BitVec 8) (data : List Word) (h : SameAnswers s u) : AnsweredOrRefused s (respond op data u)
  /-- The command was refused. -/
  | refused (op : BitVec 8) {c : Status} (hc : c ≠ .ok) : AnsweredOrRefused s (refuse op c s)

theorem writeReg_sameAnswers {s s' : State} {v : Word} {r : Reg} (h : writeReg s v r = some s') : SameAnswers s s' := by
  cases r <;> cases h <;> exact ⟨rfl, rfl, rfl⟩

theorem execWrcfg_outcome {s t : State} {reg : RegNum} {v : Word} (h : execWrcfg reg v s = .next t) :
    AnsweredOrRefused s t := by
  unfold execWrcfg at h
  split at h
  next => cases h; exact .refused _ (by decide)
  next s' hw =>
    obtain ⟨r, -, hw⟩ := Option.bind_eq_some_iff.1 hw
    split at h
    next => cases h; exact .refused _ (by decide)
    next => cases h; exact .answered _ _ (writeReg_sameAnswers hw)

theorem execRdcfg_outcome {s t : State} {reg : RegNum} (h : execRdcfg reg s = .next t) : AnsweredOrRefused s t := by
  unfold execRdcfg at h
  split at h
  next => cases h; exact .refused _ (by decide)
  next => cases h; exact .answered _ _ (.refl s)

theorem execStart_outcome {s t : State} (h : execStart s = .next t) : AnsweredOrRefused s t := by
  unfold execStart at h
  split at h
  next => cases h; exact .refused _ (by decide)
  next =>
    dsimp only at h
    split at h
    next c hc => cases h; exact .refused _ (Proofs.startRefusal_ne_ok _ hc)
    next => cases h; exact .answered _ _ ⟨rfl, rfl, rfl⟩

theorem execPush_outcome {s t : State} {x : Word} (h : execPush x s = .next t) : AnsweredOrRefused s t := by
  unfold execPush at h
  split at h
  next => cases h; exact .refused _ (by decide)
  next =>
    split at h
    next => cases h; exact .answered _ _ (.with_stream s _)
    next => cases h

theorem execBlock_outcome {s t : State} {xs : List Word} (h : execBlock xs s = .next t) : AnsweredOrRefused s t := by
  unfold execBlock at h
  split at h
  next => cases h; exact .refused _ (by decide)
  next =>
    split at h
    next => cases h; exact .answered _ _ (.with_stream s _)
    next => cases h

theorem exec_assemble_outcome {hd : Header} {ops : List Word} {s t : State} (hreset : assemble hd ops ≠ .reset)
    (hclrerr : assemble hd ops ≠ .clrerr) (h : exec (assemble hd ops) s = .next t) : AnsweredOrRefused s t := by
  cases hd with
  | nop => cases h; exact .answered _ _ (.refl s)
  | reset => exact absurd rfl hreset
  | wrcfg reg => exact execWrcfg_outcome h
  | rdcfg reg => exact execRdcfg_outcome h
  | start => exact execStart_outcome h
  | push => exact execPush_outcome h
  | block cnt => exact execBlock_outcome h
  | clrerr => exact absurd rfl hclrerr

/-- A micro-operation answers nothing and records nothing; a command is answered or refused (10_state.md R42). -/
theorem exec_outcome {i : Instr} {s t : State} (hreset : i ≠ .reset) (hclrerr : i ≠ .clrerr) (h : exec i s = .next t) :
    SameAnswers s t ∨ AnsweredOrRefused s t := by
  obtain ⟨hd, ops, rfl⟩ | rfl | ⟨f, hexec, -⟩ := instr_cases i
  · exact .inr (exec_assemble_outcome hreset hclrerr h)
  · cases h; exact .inl (.refl s)
  · obtain ⟨st, -, rfl⟩ := onStream_eq_next.1 ((hexec s).symm.trans h)
    exact .inl (.with_stream s st)

end Sys2Proof.Machine

namespace Sys2Proof.Proofs

open Sys2Proof.Machine

/-- Settles O57: what is neither silent nor answered `OK` is a refusal, which records its code in a free record only. -/
theorem firstErrorWins : Obligations.FirstErrorWins := by
  intro i s t hreset hclrerr h
  obtain ⟨hrsp, herr, hcode⟩ | hcommand := exec_outcome hreset hclrerr h
  · exact .inl ⟨.inl hrsp, herr, hcode⟩
  · cases hcommand with
    | answered op data hsame =>
      obtain ⟨hrsp, herr, hcode⟩ := hsame
      exact .inl ⟨.inr ⟨op, data, by rw [respond_rsp, hrsp]; rfl⟩, herr, hcode⟩
    | @refused op c hc =>
      exact .inr ⟨op, statusCode c, statusCode_ne_zero hc, refuse_rsp op c s, refuse_err op c s, refuse_errcode op c s⟩

end Sys2Proof.Proofs
end

section
/-!
`CONFIGURE` with a valid configuration starts the stream of it (spec/30_encoding.md R107, 46_host_commands.md R236,
70_reset_and_hazards.md R284).
-/

namespace Sys2Proof.Machine

theorem runAll_wrcfg {r : Reg} {v : Word} {is : List Instr} {s s' : State} (hm : s.mode = .config)
    (hw : writeReg s v r = some s') :
    runAll (.wrcfg r.number v :: is) s = runAll is { s' with rsp := s.rsp ++ [0x02000000] } := by
  have hexec : exec (.wrcfg r.number v) s = .next { s' with rsp := s.rsp ++ [0x02000000] } := execWrcfg_of_config hm hw
  rw [runAll, hexec]

theorem runAll_start {s : State} (hm : s.mode = .config)
    (hacc : startRefusal Config.NUM.toNumOps s.frame s.osamp (Config.NUM.decode s.pitch) (Config.NUM.decode s.rate) = none) :
    runAll [.start] s = .next { s with
      mode := .run
      stream := startStream Config.NUM.toNumOps s.frame.toNat s.osamp.toNat (Config.NUM.decode s.pitch)
        (Config.NUM.decode s.rate) s.stream
      rsp := s.rsp ++ [0x04000000] } := by
  rw [runAll, exec, execStart_of_accepted hm hacc]
  rfl

/-- In CONFIG mode the five commands of `CONFIGURE` write the four registers and create their stream, if `START` accepts them. -/
theorem runAll_configure {p f o sr : Word} {s : State} (hm : s.mode = .config)
    (hacc : startRefusal Config.NUM.toNumOps f o (Config.NUM.decode p) (Config.NUM.decode sr) = none) :
    runAll (configure p f o sr) s = .next { s with
      mode := .run
      frame := f
      osamp := o
      pitch := p
      rate := sr
      stream := startStream Config.NUM.toNumOps f.toNat o.toNat (Config.NUM.decode p) (Config.NUM.decode sr) s.stream
      rsp := s.rsp ++ [0x02000000] ++ [0x02000000] ++ [0x02000000] ++ [0x02000000] ++ [0x04000000] } := by
  refine (runAll_wrcfg (r := .frame) (by exact hm) rfl).trans ?_
  refine (runAll_wrcfg (r := .osamp) (by exact hm) rfl).trans ?_
  refine (runAll_wrcfg (r := .pitch) (by exact hm) rfl).trans ?_
  refine (runAll_wrcfg (r := .rate) (by exact hm) rfl).trans ?_
  exact runAll_start hm hacc

end Sys2Proof.Machine

namespace Sys2Proof.Proofs

open Sys2Proof.Machine

/-- Settles O59: the reset state is in CONFIG mode, the checks pass, and the fresh stream is a running one latched from the words
written. -/
theorem configureFromResetStartsStream : Obligations.ConfigureFromResetStartsStream := by
  intro p f o sr n h1 h12 hf ho hfin hlow hhigh hrfin hrpos
  have hacc : startRefusal Config.NUM.toNumOps f o (Config.NUM.decode p) (Config.NUM.decode sr) = none :=
    (startRefusal_eq_none_iff _ _ _ _ _).2 ⟨⟨⟨n, h1, h12, hf⟩, hf ▸ ho⟩, ⟨hfin, hlow, hhigh⟩, ⟨hrfin, hrpos⟩⟩
  have hrun : Running (startStream Config.NUM.toNumOps f.toNat o.toNat (Config.NUM.decode p) (Config.NUM.decode sr)
      State.reset.stream) := by
    rw [hf]
    exact startStream_running _ _ _ _ h1 h12 ho
  exact ⟨_, runAll_configure rfl hacc, rfl, rfl, rfl, rfl, rfl, rfl, rfl, hrun, hacc, rfl, rfl, rfl, rfl, rfl, rfl⟩

end Sys2Proof.Proofs
end
